-- ==== Sys2Proof/Word.lean ====
section
/-! DEFINITION. The two word widths of RLEC (00_scope.md R3): the pixel and stream byte, and the host register word. -/

namespace Sys2Proof

/-- A pixel sample or a stream byte: 8 bits, unsigned (R3). -/
abbrev Byte := BitVec 8

/-- A host register word, and the width of every counter: 32 bits, unsigned (R3). -/
abbrev Word := BitVec 32

end Sys2Proof
end

