-- ==== Sys2Proof/Syntax.lean ====
section
/-! DEFINITION. The syntax of RLEC: formats, the sixteen instructions of spec/opcode_table.json (seven command words and
nine record kinds), and the host's operations (20_memory.md R44 to R47; 30_encoding.md R75). -/

namespace Sys2Proof

/-- The stream formats (30_encoding.md R60): A 1-bit toggle, B 7-bit grayscale, C 4-bit nibble. -/
inductive Format where
  | a | b | c
deriving DecidableEq, Repr

/-- The direction of a job (10_state.md R25). -/
inductive Dir where
  | enc | dec
deriving DecidableEq, Repr

/-- The instructions: one constructor per row of spec/opcode_table.json. A command word has no operand field: its operands
are the configuration registers (30_encoding.md R62). A record carries the fields of its encoding (R63 to R70). -/
inductive Instr where
  /-- NOP, 40_commands.md R92. -/
  | nop
  /-- ENC.A, R100. -/
  | encA
  /-- ENC.B, R101. -/
  | encB
  /-- ENC.C, R102. -/
  | encC
  /-- DEC.A, R103. -/
  | decA
  /-- DEC.B, R104. -/
  | decB
  /-- DEC.C, R105. -/
  | decC
  /-- A.RUN s, l: a run of l pixels, on when bit 7 is 1 (42_format_a.md R125). -/
  | aRun (on : Bool) (l : BitVec 7)
  /-- B.PIX c: one pixel of colour c (43_format_b.md R146). -/
  | bPix (c : BitVec 7)
  /-- B.RUN1 c, n: length tier L1 (R147). -/
  | bRun1 (c : BitVec 7) (n : BitVec 7)
  /-- B.RUN2 c, n: length tier L2 (R148). -/
  | bRun2 (c : BitVec 7) (n : BitVec 14)
  /-- B.RUN3 c, n: length tier L3 (R149). -/
  | bRun3 (c : BitVec 7) (n : BitVec 21)
  /-- B.RUN4 c, n: length tier L4 (R150). -/
  | bRun4 (c : BitVec 7) (n : BitVec 28)
  /-- C.RUNK n: n pixels of colour 0 (44_format_c.md R166). -/
  | cRunK (n : BitVec 12)
  /-- C.RUNW n: n pixels of colour 15 (R167). -/
  | cRunW (n : BitVec 12)
  /-- C.RUNM c, n: n pixels of a middle colour, 1 to 14 (R168). -/
  | cRunM (c : BitVec 4) (n : BitVec 4)
deriving DecidableEq, Repr

/-- What an instruction is read from: a command word written to CMD, or the bytes of a record, in stream order, in a
stream of one format. The format belongs to the reading: a stream carries no format tag (30_encoding.md, section 8). -/
inductive Code where
  | command (v : Word)
  | record (f : Format) (bytes : List Byte)
deriving DecidableEq, Repr

/-- The two byte buffers (10_state.md R31). -/
inductive Buf where
  | ibuf | obuf
deriving DecidableEq, Repr

/-- One host operation (20_memory.md R44 to R47), and `poll`, the one loop of a host program (30_encoding.md R75). A
register slot has a 4-bit index; a buffer address is any number (R48 says what lies beyond the buffer). -/
inductive HostOp where
  | regRead (i : BitVec 4)
  | regWrite (i : BitVec 4) (v : Word)
  | bufRead (b : Buf) (a : Nat)
  | bufWrite (b : Buf) (a : Nat) (v : Byte)
  | poll
deriving DecidableEq, Repr

/-- What a read returned to the host. -/
inductive Reply where
  | word (v : Word)
  | byte (v : Byte)
deriving DecidableEq, Repr

/-- Who takes the next step: the host, the engine, or the platform's reset input (00_scope.md R4; 70_reset_and_hazards.md
R231, R243). -/
inductive Agent where
  | host | engine | reset
deriving DecidableEq, Repr

end Sys2Proof
end

