-- ==== Sys2Proof/WellFormed.lean ====
section
/-! DEFINITION. Which instruction terms an encoding exists for. The field widths are in the types; the one check left is
C.RUNM's colour (44_format_c.md R168). -/

namespace Sys2Proof

/-- A colour that C.RUNM may carry: 1 to 14, since 0 and 15 take the 2-byte records (30_encoding.md R68, R70). -/
def middleColour (c : BitVec 4) : Bool := c != 0#4 && c != 15#4

/-- The well-formed instructions: those that some word or record of 30_encoding.md encodes. -/
def Instr.wellFormed : Instr → Bool
  | .nop => true
  | .encA => true
  | .encB => true
  | .encC => true
  | .decA => true
  | .decB => true
  | .decC => true
  | .aRun _ _ => true
  | .bPix _ => true
  | .bRun1 _ _ => true
  | .bRun2 _ _ => true
  | .bRun3 _ _ => true
  | .bRun4 _ _ => true
  | .cRunK _ => true
  | .cRunW _ => true
  | .cRunM c _ => middleColour c

end Sys2Proof
end

