-- ==== Sys2Proof/Decode.lean ====
section
/-! DEFINITION. The decoder of command words and records, total and rejecting by name, then the encoder from the same
tables (30_encoding.md R62 to R70), then the reading of a table word for the host. -/

namespace Sys2Proof

/-- Why a code is no instruction. -/
inductive DecodeError where
  /-- A command word other than the seven of R62 (30_encoding.md R73). -/
  | reservedCommand
  /-- The bytes end before the record does (60_exceptions.md R203). -/
  | truncated
  /-- A Format B first length byte with bits 7:4 = 1111 (30_encoding.md R67). -/
  | reservedPrefix
  /-- A whole record is followed by further bytes, where exactly one record was asked for. -/
  | trailingBytes
deriving DecidableEq, Repr

/-! ### Decoding -/

/-- A command word is matched whole (30_encoding.md R62); every other word is reserved (R73). -/
def decodeCommand (v : Word) : Except DecodeError Instr :=
  if v = 0x00000000#32 then .ok .nop
  else if v = 0x00000001#32 then .ok .encA
  else if v = 0x00000002#32 then .ok .encB
  else if v = 0x00000003#32 then .ok .encC
  else if v = 0x00000011#32 then .ok .decA
  else if v = 0x00000012#32 then .ok .decB
  else if v = 0x00000013#32 then .ok .decC
  else .error .reservedCommand

/-- A Format A record is the byte `slllllll` (R63). -/
def decodeA : List Byte → Except DecodeError (Instr × List Byte)
  | [] => .error .truncated
  | b :: rest => .ok (.aRun (b.getLsbD 7) (b.extractLsb' 0 7), rest)

/-- A Format B record: the colour byte `fccccccc` (R64), then, when f = 1, the length tier that the first length byte
selects (R66). -/
def decodeB : List Byte → Except DecodeError (Instr × List Byte)
  | [] => .error .truncated
  | b0 :: r0 =>
    if b0.getLsbD 7 = false then .ok (.bPix (b0.extractLsb' 0 7), r0)
    else
      match r0 with
      | [] => .error .truncated
      | l0 :: r1 =>
        if l0.getLsbD 7 = false then .ok (.bRun1 (b0.extractLsb' 0 7) (l0.extractLsb' 0 7), r1)
        else if l0.extractLsb' 6 2 = 0b10#2 then
          match r1 with
          | l1 :: r2 => .ok (.bRun2 (b0.extractLsb' 0 7) (l0.extractLsb' 0 6 ++ l1), r2)
          | [] => .error .truncated
        else if l0.extractLsb' 5 3 = 0b110#3 then
          match r1 with
          | l1 :: l2 :: r2 => .ok (.bRun3 (b0.extractLsb' 0 7) (l0.extractLsb' 0 5 ++ l1 ++ l2), r2)
          | _ => .error .truncated
        else if l0.extractLsb' 4 4 = 0b1110#4 then
          match r1 with
          | l1 :: l2 :: l3 :: r2 => .ok (.bRun4 (b0.extractLsb' 0 7) (l0.extractLsb' 0 4 ++ l1 ++ l2 ++ l3), r2)
          | _ => .error .truncated
        else .error .reservedPrefix

/-- A Format C record: the top nibble of the first byte tells the width (R68); 0 and 15 are `ccccllll llllllll` (R69),
the others `ccccllll` (R70). -/
def decodeC : List Byte → Except DecodeError (Instr × List Byte)
  | [] => .error .truncated
  | b0 :: r0 =>
    if b0.extractLsb' 4 4 = 0x0#4 then
      match r0 with
      | b1 :: r1 => .ok (.cRunK (b0.extractLsb' 0 4 ++ b1), r1)
      | [] => .error .truncated
    else if b0.extractLsb' 4 4 = 0xF#4 then
      match r0 with
      | b1 :: r1 => .ok (.cRunW (b0.extractLsb' 0 4 ++ b1), r1)
      | [] => .error .truncated
    else .ok (.cRunM (b0.extractLsb' 4 4) (b0.extractLsb' 0 4), r0)

/-- The first record of a stream of format f, and the bytes after it (30_encoding.md R61). -/
def decodeRecord : Format → List Byte → Except DecodeError (Instr × List Byte)
  | .a, bs => decodeA bs
  | .b, bs => decodeB bs
  | .c, bs => decodeC bs

/-- The instruction that a code is, exactly. -/
def decode : Code → Except DecodeError Instr
  | .command v => decodeCommand v
  | .record f bs =>
    match decodeRecord f bs with
    | .ok (i, []) => .ok i
    | .ok (_, _ :: _) => .error .trailingBytes
    | .error e => .error e

/-! ### Encoding -/

/-- The code of an instruction: a command's word (R62), or a record's bytes in stream order (R63, R65, R69, R70). -/
def encode : Instr → Code
  | .nop => .command 0x00000000#32
  | .encA => .command 0x00000001#32
  | .encB => .command 0x00000002#32
  | .encC => .command 0x00000003#32
  | .decA => .command 0x00000011#32
  | .decB => .command 0x00000012#32
  | .decC => .command 0x00000013#32
  | .aRun on l => .record .a [BitVec.ofBool on ++ l]
  | .bPix c => .record .b [0#1 ++ c]
  | .bRun1 c n => .record .b [1#1 ++ c, 0#1 ++ n]
  | .bRun2 c n => .record .b [1#1 ++ c, 0b10#2 ++ n.extractLsb' 8 6, n.extractLsb' 0 8]
  | .bRun3 c n => .record .b [1#1 ++ c, 0b110#3 ++ n.extractLsb' 16 5, n.extractLsb' 8 8, n.extractLsb' 0 8]
  | .bRun4 c n =>
    .record .b [1#1 ++ c, 0b1110#4 ++ n.extractLsb' 24 4, n.extractLsb' 16 8, n.extractLsb' 8 8, n.extractLsb' 0 8]
  | .cRunK n => .record .c [0x0#4 ++ n.extractLsb' 8 4, n.extractLsb' 0 8]
  | .cRunW n => .record .c [0xF#4 ++ n.extractLsb' 8 4, n.extractLsb' 0 8]
  | .cRunM c n => .record .c [c ++ n]

/-- The bytes of a code in a stream: a record's bytes, none for a command word, which is no part of a stream. -/
def Code.bytes : Code → List Byte
  | .command _ => []
  | .record _ bs => bs

/-- The bytes of an instruction in its stream. -/
def recordBytes (i : Instr) : List Byte := (encode i).bytes

/-- The record length in bytes by kind (30_encoding.md R72); 0 for a command word, which lies in no stream. -/
def Instr.recordLength : Instr → Nat
  | .nop => 0
  | .encA => 0
  | .encB => 0
  | .encC => 0
  | .decA => 0
  | .decB => 0
  | .decC => 0
  | .aRun _ _ => 1
  | .bPix _ => 1
  | .bRun1 _ _ => 2
  | .bRun2 _ _ => 3
  | .bRun3 _ _ => 4
  | .bRun4 _ _ => 5
  | .cRunK _ => 2
  | .cRunW _ => 2
  | .cRunM _ _ => 1

/-- The longest record, in bytes (30_encoding.md R72). -/
def maxRecordBytes : Nat := 5

/-! ### Table words -/

/-- The bytes of a table word of `k` bytes in stream order. spec/opcode_table.json reads a record as ONE number whose most
significant byte is the first of the stream ("b0:l0, b0 most significant"), as R50 orders record bytes. Log entry 14. -/
def tableBytes (k w : Nat) : List Byte :=
  (List.range k).map fun j => BitVec.ofNat 8 (w >>> (8 * (k - 1 - j)))

/-- A record's bytes with zero bytes after them, up to the longest record. -/
def padRecord (bs : List Byte) : List Byte := bs ++ List.replicate (maxRecordBytes - bs.length) 0#8

/-- The format in which a table word of 1 or 2 bytes is read. The same bytes are records of several formats, and a word
carries no format tag (30_encoding.md, section 8), so a choice is made here, for table words only: of single bytes, those
with bit 7 set are A.RUN, those with top nibble 1 to 6 are C.RUNM and the rest are B.PIX; of byte pairs, those with top
nibble 0 or 15 are Format C and the rest Format B. DESIGN CHOICE, log entry 12. -/
def tableFormat (k : Nat) (b0 : Byte) : Format :=
  if k = 1 then
    if b0.getLsbD 7 then .a
    else if b0.extractLsb' 4 3 = 0#3 ∨ b0.extractLsb' 4 3 = 7#3 then .b
    else .c
  else if k = 2 ∧ (b0.extractLsb' 4 4 = 0x0#4 ∨ b0.extractLsb' 4 4 = 0xF#4) then .c
  else .b

/-- The code that a table word of nbits bits stands for: a word of 32 bits with bit 31 clear is a command word (every
4-byte record has it set, R149), and any other word of 1 to 5 bytes is a record. -/
def tableCode (nbits w : Nat) : Option Code :=
  if nbits = 32 ∧ (BitVec.ofNat 32 w).getLsbD 31 = false then some (.command (BitVec.ofNat 32 w))
  else if nbits = 8 ∨ nbits = 16 ∨ nbits = 24 ∨ nbits = 32 ∨ nbits = 40 then
    some (.record (tableFormat (nbits / 8) ((tableBytes (nbits / 8) w).headD 0#8))
      (padRecord (tableBytes (nbits / 8) w)))
  else none

/-- The instruction at the front of a code: a command word's, or the first record's. -/
def decodeFront : Code → Option Instr
  | .command v => (decodeCommand v).toOption
  | .record f bs => (decodeRecord f bs).toOption.map Prod.fst

/-- The instruction that the decoder reads from an opcode-table word (bits as spec/opcode_table.json numbers them). -/
def decodeTableWord (nbits w : Nat) : Option Instr := (tableCode nbits w).bind decodeFront

end Sys2Proof
end

