-- ==== Sys2Proof/Config.lean ====
section
/-! DEFINITION. What an instance of RLEC fixes and what the spec leaves open: the two buffer sizes (00_scope.md R2) and
the unspecified values (70_reset_and_hazards.md R232, R239). Every constant here is opaque: no proof can learn its value. -/

namespace Sys2Proof.Config

/-- IBUF_SIZE less one: any number below 2^32 - 1 (R2, D28: OPEN). Log entry 1. -/
opaque ibufSizePred : Fin 4294967295

/-- OBUF_SIZE less one: any number below 2^32 - 1 (R2, D28: OPEN). Log entry 1. -/
opaque obufSizePred : Fin 4294967295

/-- IBUF_SIZE of the instance that State.reset describes: 1 to 2^32 - 1 (R2). -/
def ibufSize : Nat := ibufSizePred.val + 1

/-- OBUF_SIZE of the instance that State.reset describes: 1 to 2^32 - 1 (R2). -/
def obufSize : Nat := obufSizePred.val + 1

/-- The byte that IBUF holds at an address after a reset: unspecified (R232, I2). The first argument counts the resets,
so that each reset leaves contents of its own. Log entry 2. -/
opaque resetIbuf : Nat → Nat → Byte

/-- The byte that OBUF holds at an address after a reset: unspecified (R232, I2, I22). Log entry 2. -/
opaque resetObuf : Nat → Nat → Byte

/-- What a RegRead of OUT_LEN or IN_POS returns while BUSY = 1: any 32-bit value (R239, I4). The argument counts the
unspecified reads, so that each may return another value. Log entry 3. -/
opaque busyWord : Nat → Word

/-- What a HostRead inside OBUF returns while BUSY = 1: any byte (R239, I3). Log entry 3. -/
opaque busyByte : Nat → Byte

end Sys2Proof.Config
end

