-- ==== Sys2Proof/Machine/State.lean ====
section
/-! DEFINITION. The state of RLEC as plain data (10_state.md), the reasons a step can stop, and the state after reset
(70_reset_and_hazards.md R230). -/

namespace Sys2Proof.Machine

/-- The error of the last ended job, STATUS.ERR (60_exceptions.md R201). Its three-bit code is ErrCode.code. -/
inductive ErrCode where
  | noError | invalidParameter | truncatedStream | overrun | unsupportedRunLength | malformedRecord | outputOverflow
  | illegalCommand
deriving DecidableEq, Repr

/-- STATUS (10_state.md R13). The reserved bits read 0 and nothing writes them, so only the three flags are kept. -/
structure Status where
  busy : Bool
  done : Bool
  err : ErrCode
deriving DecidableEq, Repr

/-- MODE (10_state.md R17). The reserved bits read 0 and writes ignore them, so only the two mode bits are kept. -/
structure Mode where
  strict : Bool
  zeroDimOk : Bool
deriving DecidableEq, Repr

/-- A buffer's known bytes: (address, byte) cells, addresses strictly rising. An address that is not listed holds a byte
nobody has written since the reset: it has no value in the list and reads as a free value (70_reset_and_hazards.md R232).
Log entry 2. -/
abbrev Memory := List Host.Cell

/-- The state. -/
structure State where
  /-- IBUF_SIZE, a parameter of the instance (00_scope.md R2); no step changes it. -/
  ibufSize : Nat
  /-- OBUF_SIZE, a parameter of the instance (R2); no step changes it. -/
  obufSize : Nat
  /-- STATUS, slot 1 (10_state.md R13). -/
  status : Status
  /-- WIDTH, slot 2 (R14). -/
  width : BitVec 16
  /-- HEIGHT, slot 3 (R15). -/
  height : BitVec 16
  /-- A_THRESH, slot 4 (R16). -/
  aThresh : BitVec 9
  /-- MODE, slot 5 (R17). -/
  mode : Mode
  /-- IN_LEN, slot 6 (R18). -/
  inLen : Word
  /-- OUT_CAP, slot 7 (R19). -/
  outCap : Word
  /-- OUT_LEN, slot 8 (R20). -/
  outLen : Word
  /-- IN_POS, slot 9, the block's program counter (R21). -/
  inPos : Word
  /-- JOB_DIR (R25). -/
  jobDir : Dir
  /-- JOB_FMT (R26). -/
  jobFmt : Format
  /-- NPIX (R27). -/
  npix : Word
  /-- ACC_VAL (R28). -/
  accVal : Byte
  /-- ACC_LEN (R29). -/
  accLen : Word
  /-- IBUF (20_memory.md R40). -/
  ibuf : Memory
  /-- OBUF (20_memory.md R41). -/
  obuf : Memory
  /-- The model's own: the operations the host has still to issue, in order (00_scope.md R4; 30_encoding.md R75). -/
  program : List HostOp
  /-- The model's own: which agent takes the next steps (the scheduler of 70_reset_and_hazards.md R243). -/
  schedule : List Agent
  /-- The model's own: what the host's reads have returned, newest first. -/
  replies : List Reply
  /-- The model's own: how many resets have happened; it selects the free contents of the buffers (R232). -/
  resets : Nat
  /-- The model's own: how many unspecified reads have been answered; it selects the next free value (R239). -/
  freeReads : Nat
deriving DecidableEq, Repr

/-- Why the machine stops. -/
inductive Fault where
  /-- HAZARD_IBUF_WRITE: the host writes IBUF while BUSY = 1 (70_reset_and_hazards.md R237). The spec's own fault: safe. -/
  | hazardIbufWrite
  /-- HAZARD_OBUF_WRITE: the host writes OBUF while BUSY = 1 (R238). The spec's own fault: safe. -/
  | hazardObufWrite
  /-- The engine reads IBUF at an address that does not exist. The start checks rule it out (20_memory.md R40): only a
  state that no run reaches raises it. Safe. Log entry 8. -/
  | noSuchIbufAddress
  /-- The engine writes OBUF at an address that does not exist. The start checks rule it out (20_memory.md R41): only a
  state that no run reaches raises it. Safe. Log entry 8. -/
  | noSuchObufAddress
deriving DecidableEq, Repr

/-- Why an instruction has no meaning. -/
inductive Refusal where
  /-- Raised by an arm of exec whose instruction is not modelled yet. No arm is: every instruction has its meaning. Safe. -/
  | notModelled (mnemonic : String)
deriving DecidableEq, Repr

/-- The machine right after reset (70_reset_and_hazards.md R230): every register at the value the spec states, the buffers
with no known byte, the engine idle, no host program. -/
def State.reset : State where
  ibufSize := Config.ibufSize
  obufSize := Config.obufSize
  status := { busy := false, done := false, err := .noError }
  width := 0#16
  height := 0#16
  aThresh := 0x0FF#9
  mode := { strict := false, zeroDimOk := false }
  inLen := 0#32
  outCap := BitVec.ofNat 32 Config.obufSize
  outLen := 0#32
  inPos := 0#32
  jobDir := .enc
  jobFmt := .a
  npix := 0#32
  accVal := 0#8
  accLen := 0#32
  ibuf := []
  obuf := []
  program := []
  schedule := []
  replies := []
  resets := 0
  freeReads := 0

end Sys2Proof.Machine
end

