-- ==== Sys2Proof/Machine/Flags.lean ====
section
/-! DEFINITION. The flags STATUS.BUSY, STATUS.DONE and STATUS.ERR: their codes, how the register reads, and every way a
flag is written (10_state.md R13, R30). -/

namespace Sys2Proof.Machine

/-- The code of an error in STATUS.ERR (60_exceptions.md R201). -/
def ErrCode.code : ErrCode → BitVec 3
  | .noError => 0#3
  | .invalidParameter => 1#3
  | .truncatedStream => 2#3
  | .overrun => 3#3
  | .unsupportedRunLength => 4#3
  | .malformedRecord => 5#3
  | .outputOverflow => 6#3
  | .illegalCommand => 7#3

/-- STATUS as a word: bit 0 BUSY, bit 1 DONE, bits 6:4 ERR, the other bits 0 (10_state.md R13). -/
def Status.word (t : Status) : Word :=
  0#25 ++ t.err.code ++ 0#2 ++ BitVec.ofBool t.done ++ BitVec.ofBool t.busy

/-- MODE as a word: bit 0 STRICT, bit 1 ZERO_DIM_OK, the other bits 0 (R17). -/
def Mode.word (m : Mode) : Word := 0#30 ++ BitVec.ofBool m.zeroDimOk ++ BitVec.ofBool m.strict

/-- What a write of a word to MODE keeps (R17). -/
def Mode.ofWord (v : Word) : Mode := { strict := v.getLsbD 0, zeroDimOk := v.getLsbD 1 }

/-- Accepting a command clears DONE and ERR (40_commands.md R93). -/
def Status.accepted (t : Status) : Status := { t with done := false, err := .noError }

/-- A job that passes its start checks runs: BUSY = 1 (40_commands.md R93). -/
def Status.running (t : Status) : Status := { t with busy := true }

/-- finish(): BUSY = 0, DONE = 1, ERR = 0 (40_commands.md R98). -/
def Status.finished : Status := { busy := false, done := true, err := .noError }

/-- raise E: BUSY = 0, DONE = 1, ERR = code(E) (60_exceptions.md R205). -/
def Status.raised (e : ErrCode) : Status := { busy := false, done := true, err := e }

end Sys2Proof.Machine
end

