-- ==== Sys2Proof/Machine/Operands.lean ====
section
/-! DEFINITION. The operand computations: quantizers and dequantizers (41_scanner.md R111 to R113, R116), the colours with
2-byte records, and the bytes a flush emits (43_format_b.md R143, 44_format_c.md R162). -/

namespace Sys2Proof.Machine

/-! ### Quantizers -/

/-- The Format A quantizer: on exactly when p >= A_THRESH, unsigned over the 9 bits of A_THRESH (41_scanner.md R111). -/
def quantA (thresh : BitVec 9) (p : Byte) : Bool := decide (thresh.toNat ≤ p.toNat)

/-- The Format B quantizer, grey7 = p >> 1 (R112). -/
def quantB (p : Byte) : Byte := p >>> 1

/-- The Format C quantizer, colour = p >> 4 (R113). -/
def quantC (p : Byte) : Byte := p >>> 4

/-- The value of ACC_VAL for a Format A state: bit 0 is the state, the other bits are 0 (10_state.md R28). -/
def stateByte (on : Bool) : Byte := 0#7 ++ BitVec.ofBool on

/-! ### Dequantizers (R116) -/

/-- The pixel of a Format A state: 255 on, 0 off. -/
def dequantA (on : Bool) : Byte := if on then 255#8 else 0#8

/-- The pixel of a Format B colour: c << 1. -/
def dequantB (c : BitVec 7) : Byte := c ++ 0#1

/-- The pixel of a Format C colour: c << 4. -/
def dequantC (c : BitVec 4) : Byte := c ++ 0#4

/-! ### Record bounds -/

/-- The longest run of a Format A record: 125 (42_format_a.md R123). -/
def capA : Nat := 125

/-- The longest run of a Format B record: 0x0FFFFFFF (43_format_b.md R142). -/
def ceilingB : Nat := 0x0FFFFFFF

/-- The colours with 2-byte records: 0 and 15 (30_encoding.md R68). -/
def extremeColour (c : Nat) : Bool := c == 0 || c == 15

/-- The longest run of a Format C record of a colour: 0xFFF for 0 and 15, 0xF for 1 to 14 (30_encoding.md R60). -/
def capC (c : Nat) : Nat := if extremeColour c then 0xFFF else 0xF

/-! ### The bytes of a flush -/

/-- What a_flush() emits for state bit v and run length r: nothing when r = 0, else (v << 7) | r (42_format_a.md R122). -/
def flushBytesA (v r : Nat) : List Byte := if r = 0 then [] else [BitVec.ofNat 8 (v <<< 7 ||| r)]

/-- What b_flush() emits for colour c and stride s, by length tier (43_format_b.md R143). -/
def flushBytesB (c s : Nat) : List Byte :=
  if s = 0 then []
  else if s = 1 then [BitVec.ofNat 8 c]
  else if s ≤ 0x7F then [BitVec.ofNat 8 (c ||| 0x80), BitVec.ofNat 8 s]
  else if s ≤ 0x3FFF then
    [BitVec.ofNat 8 (c ||| 0x80), BitVec.ofNat 8 (s >>> 8 ||| 0x80), BitVec.ofNat 8 (s &&& 0xFF)]
  else if s ≤ 0x1FFFFF then
    [BitVec.ofNat 8 (c ||| 0x80), BitVec.ofNat 8 (s >>> 16 ||| 0xC0), BitVec.ofNat 8 (s >>> 8 &&& 0xFF),
      BitVec.ofNat 8 (s &&& 0xFF)]
  else
    [BitVec.ofNat 8 (c ||| 0x80), BitVec.ofNat 8 (s >>> 24 ||| 0xE0), BitVec.ofNat 8 (s >>> 16 &&& 0xFF),
      BitVec.ofNat 8 (s >>> 8 &&& 0xFF), BitVec.ofNat 8 (s &&& 0xFF)]

/-- The bytes of one Format C record of colour c and length n: 2 bytes of a big-endian word for colours 0 and 15, else
one byte (44_format_c.md R162). -/
def recordBytesC (c n : Nat) : List Byte :=
  if extremeColour c then
    [BitVec.ofNat 8 (((n &&& 0xFFF) ||| c <<< 12) >>> 8), BitVec.ofNat 8 (((n &&& 0xFFF) ||| c <<< 12) &&& 0xFF)]
  else [BitVec.ofNat 8 (n ||| c <<< 4)]

/-- The loop of c_flush() for colour c and r pixels left, with at most `fuel` turns: each turn takes a record of
min(r, cap) pixels (44_format_c.md R162). -/
def flushLoopC (c : Nat) : Nat → Nat → List Byte
  | 0, _ => []
  | fuel + 1, r =>
    if r = 0 then [] else recordBytesC c (min r (capC c)) ++ flushLoopC c fuel (r - min r (capC c))

/-- What c_flush() emits for colour c and reps r (44_format_c.md R162). Every turn takes at least one pixel, so r turns
are enough. -/
def flushBytesC (c r : Nat) : List Byte := flushLoopC c r r

end Sys2Proof.Machine
end

