-- ==== Sys2Proof/Machine/Ops.lean ====
section
/-! DEFINITION. The named operations: buffers, the start and end of a job (40_commands.md R93 to R95, R98), raising an error
(60_exceptions.md R205), emit and put_pixels (20_memory.md R42, R43), the shared run of a record, the host's reads and
writes of the buffers, and the reset event (70_reset_and_hazards.md R231). -/

namespace Sys2Proof.Machine

/-! ### Buffers as sorted cells -/

/-- The known byte at an address, if any. -/
def readCell : Memory → Nat → Option Byte
  | [], _ => none
  | (k, v) :: m, a => if a = k then some v else readCell m a

/-- Make the byte at an address known, keeping the addresses rising. -/
def writeCell : Memory → Nat → Byte → Memory
  | [], a, b => [(a, b)]
  | (k, v) :: m, a, b =>
    if a < k then (a, b) :: (k, v) :: m
    else if a = k then (k, b) :: m
    else (k, v) :: writeCell m a b

/-- Write n copies of a byte at rising addresses from a. -/
def fillCells (m : Memory) (a : Nat) (b : Byte) : Nat → Memory
  | 0 => m
  | n + 1 => fillCells (writeCell m a b) (a + 1) b n

/-- Write bytes at rising addresses from a. -/
def writeCells (m : Memory) (a : Nat) : List Byte → Memory
  | [] => m
  | b :: bs => writeCells (writeCell m a b) (a + 1) bs

/-- The addresses rise strictly. -/
def risingFrom : Nat → Memory → Bool
  | _, [] => true
  | lo, (k, _) :: m => decide (lo ≤ k) && risingFrom (k + 1) m

/-- The canonical form of a buffer of a size: addresses strictly rising and below the size. An address not listed has no
value in the list, so no cell can repeat what an unlisted address reads as. -/
def Memory.wf (size : Nat) (m : Memory) : Bool := risingFrom 0 m && m.all fun c => decide (c.1 < size)

/-- The byte IBUF holds at an address: the one written since the last reset, or the free one (70_reset_and_hazards.md
R232). -/
def State.ibufByte (s : State) (a : Nat) : Byte := (readCell s.ibuf a).getD (Config.resetIbuf s.resets a)

/-- The byte OBUF holds at an address. -/
def State.obufByte (s : State) (a : Nat) : Byte := (readCell s.obuf a).getD (Config.resetObuf s.resets a)

/-! ### The start and end of a job -/

/-- finish() (40_commands.md R98). -/
def State.finish (s : State) : State := { s with status := Status.finished }

/-- raise E: the error model's one operation (60_exceptions.md R205). OUT_LEN, IN_POS, OBUF and the accumulator keep
their values (R213); no state is saved and control goes nowhere (R214). -/
def State.raise (e : ErrCode) (s : State) : State := { s with status := Status.raised e }

/-- The first part of accept_and_start: DONE, ERR, OUT_LEN and IN_POS are cleared (40_commands.md R93). -/
def State.accept (s : State) : State :=
  { s with status := s.status.accepted, outLen := 0#32, inPos := 0#32 }

/-- NPIX for the host's dimensions: WIDTH × HEIGHT (10_state.md R27). It fits 32 bits. -/
def State.pixelCount (s : State) : Word := BitVec.ofNat 32 (s.width.toNat * s.height.toNat)

/-- The job latch: JOB_DIR, JOB_FMT, NPIX and the cleared accumulator (40_commands.md R93; 41_scanner.md R114). -/
def State.latchJob (d : Dir) (f : Format) (s : State) : State :=
  { s with jobDir := d, jobFmt := f, npix := s.pixelCount, accVal := 0#8, accLen := 0#32 }

/-- BUSY is set: the engine runs (40_commands.md R93). -/
def State.run (s : State) : State := { s with status := s.status.running }

/-- The start checks of a latched job, in the spec's order; the job runs when none of them ends it (40_commands.md R94,
R95). -/
def State.startChecks (s : State) : State :=
  if s.obufSize < s.outCap.toNat then s.raise .invalidParameter
  else if s.width = 0#16 ∨ s.height = 0#16 then
    if s.mode.zeroDimOk then s.finish else s.raise .invalidParameter
  else
    match s.jobDir with
    | .enc => if s.ibufSize < s.npix.toNat then s.raise .invalidParameter else s.run
    | .dec =>
      if s.ibufSize < s.inLen.toNat then s.raise .invalidParameter
      else if s.outCap.toNat < s.npix.toNat then s.raise .invalidParameter
      else s.run

/-- accept_and_start for a job command (40_commands.md R93). -/
def State.startJob (d : Dir) (f : Format) (s : State) : State := (s.accept.latchJob d f).startChecks

/-- A job command's CMD write: ignored while BUSY = 1 (40_commands.md R90), else accepted (R91). -/
def jobCommand (d : Dir) (f : Format) (s : State) : Host.Outcome State Fault Refusal :=
  if s.status.busy then .next s else .next (s.startJob d f)

/-- A reserved command word: ignored while BUSY = 1 (R90), else IllegalCommandError, with the job latch and the
accumulator as they were (40_commands.md R106). -/
def illegalCommand (s : State) : State := if s.status.busy then s else s.accept.raise .illegalCommand

/-! ### Engine accesses -/

/-- Where a part of an engine step leads: on to the step's next part, to the end of the job by `raise` (nothing later in
the step runs, R205), or to a fault. -/
inductive Flow where
  | ok (s : State)
  | ended (s : State)
  | fault (x : Fault)
deriving DecidableEq, Repr

/-- The next part of a step, unless the step has ended. -/
def Flow.andThen (m : Flow) (k : State → Flow) : Flow :=
  match m with
  | .ok s => k s
  | .ended s => .ended s
  | .fault x => .fault x

/-- The outcome of a step whose last part is k. -/
def Flow.outcome (m : Flow) (k : State → State) : Host.Outcome State Fault Refusal :=
  match m with
  | .ok s => .next (k s)
  | .ended s => .next s
  | .fault x => .fault x

/-- OBUF gets a byte at OUT_LEN and OUT_LEN counts it. -/
def State.appendByte (b : Byte) (s : State) : State :=
  { s with obuf := writeCell s.obuf s.outLen.toNat b, outLen := s.outLen + 1#32 }

/-- emit(b): OutputOverflowError when OUT_LEN >= OUT_CAP, else the byte goes to OBUF[OUT_LEN] (20_memory.md R42). -/
def emit (b : Byte) (s : State) : Flow :=
  if s.outCap.toNat ≤ s.outLen.toNat then .ended (s.raise .outputOverflow)
  else if s.obufSize ≤ s.outLen.toNat then .fault .noSuchObufAddress
  else .ok (s.appendByte b)

/-- emit for several bytes in stream order, first byte first; the first that overflows ends the job and the bytes before
it stay written (20_memory.md R42). -/
def emitAll : List Byte → State → Flow
  | [], s => .ok s
  | b :: bs, s => (emit b s).andThen (emitAll bs)

/-- OBUF gets n pixels from OUT_LEN on and OUT_LEN counts them. -/
def State.appendPixels (v : Byte) (n : Nat) (s : State) : State :=
  { s with obuf := fillCells s.obuf s.outLen.toNat v n, outLen := BitVec.ofNat 32 (s.outLen.toNat + n) }

/-- put_pixels(v, n) (20_memory.md R43). n = 0 writes nothing. -/
def putPixels (v : Byte) (n : Nat) (s : State) : Flow :=
  if n ≠ 0 ∧ s.obufSize < s.outLen.toNat + n then .fault .noSuchObufAddress
  else .ok (s.appendPixels v n)

/-- IN_POS moves past n bytes or pixels (10_state.md R21). -/
def State.advance (n : Nat) (s : State) : State := { s with inPos := BitVec.ofNat 32 (s.inPos.toNat + n) }

/-- ACC_VAL and ACC_LEN get values. -/
def State.setAcc (v : Byte) (n : Word) (s : State) : State := { s with accVal := v, accLen := n }

/-- The effect of one record of `len` bytes that decodes to a run of n pixels of value v, in the order of the checks
(60_exceptions.md R211): TruncatedStreamError when the stream has fewer than len bytes left (R203), MalformedRecordError
when MODE.STRICT = 1 and no encoder emits the record (R207), OverrunError when the run passes NPIX (R204); then the pixels
are written and IN_POS moves past the record. On an error no pixel is written and IN_POS stays. -/
def runRecord (len n : Nat) (canonical : Bool) (v : Byte) (s : State) : Host.Outcome State Fault Refusal :=
  if s.inLen.toNat < s.inPos.toNat + len then .next (s.raise .truncatedStream)
  else if s.mode.strict = true ∧ canonical = false then .next (s.raise .malformedRecord)
  else if s.npix.toNat < s.outLen.toNat + n then .next (s.raise .overrun)
  else (putPixels v n s).outcome (State.advance len)

/-! ### Host access to the buffers -/

/-- HostRead while the value is specified: the stored byte, or 0x00 beyond the buffer (20_memory.md R46 to R48). -/
def bufValue (b : Buf) (a : Nat) (s : State) : Byte :=
  match b with
  | .ibuf => if a < s.ibufSize then s.ibufByte a else 0#8
  | .obuf => if a < s.obufSize then s.obufByte a else 0#8

/-- Whether a HostRead returns an unspecified value: inside OBUF while BUSY = 1 (70_reset_and_hazards.md R239). Beyond the
buffer it is 0x00, BUSY or not (20_memory.md R48). -/
def bufReadOpen (b : Buf) (a : Nat) (s : State) : Bool :=
  match b with
  | .ibuf => false
  | .obuf => s.status.busy && decide (a < s.obufSize)

/-- What a HostRead returns. -/
def hostRead (b : Buf) (a : Nat) (s : State) : Byte :=
  if bufReadOpen b a s then Config.busyByte s.freeReads else bufValue b a s

/-- The fault of a HostWrite while BUSY = 1 (70_reset_and_hazards.md R237, R238). -/
def bufHazard : Buf → Fault
  | .ibuf => .hazardIbufWrite
  | .obuf => .hazardObufWrite

/-- A byte is stored in a buffer, or nowhere when the address is beyond it (20_memory.md R46 to R48). -/
def State.storeByte (b : Buf) (a : Nat) (v : Byte) (s : State) : State :=
  match b with
  | .ibuf => if a < s.ibufSize then { s with ibuf := writeCell s.ibuf a v } else s
  | .obuf => if a < s.obufSize then { s with obuf := writeCell s.obuf a v } else s

/-- HostWrite: a hazard while BUSY = 1, for every address (R237, R238), else a store. -/
def hostWrite (b : Buf) (a : Nat) (v : Byte) (s : State) : Host.Outcome State Fault Refusal :=
  if s.status.busy then .fault (bufHazard b) else .next (s.storeByte b a v)

/-- A read's value goes to the host; an unspecified one takes the next free value. -/
def State.answer (r : Reply) (isOpen : Bool) (s : State) : State :=
  { s with replies := r :: s.replies, freeReads := if isOpen then s.freeReads + 1 else s.freeReads }

/-! ### Reset -/

/-- reset(): every piece of the block's state takes its value of R230, whatever the block was doing; the buffers hold
unspecified bytes anew (70_reset_and_hazards.md R231, R232). The instance keeps its sizes, and the host, which is outside the
block, keeps its program, its replies and the rest of the schedule. Log entry 9. -/
def State.resetEvent (s : State) : State :=
  { State.reset with
    ibufSize := s.ibufSize
    obufSize := s.obufSize
    outCap := BitVec.ofNat 32 s.obufSize
    program := s.program
    schedule := s.schedule
    replies := s.replies
    resets := s.resets + 1
    freeReads := s.freeReads }

end Sys2Proof.Machine
end

