-- ==== Sys2Proof/Machine/Commands.lean ====
section
/-! DEFINITION. The meanings of the seven command words: what the CMD write does (40_commands.md R90 to R95, R100 to R105).
The engine steps of the job that a command starts are Engine.lean's. -/

namespace Sys2Proof.Machine

/-- NOP changes no state, idle or busy (40_commands.md R92, R90; 30_encoding.md R74). -/
def execNop (s : State) : Host.Outcome State Fault Refusal := .next s

/-- ENC.A starts an encode job of format A (40_commands.md R100). -/
def execEncA (s : State) : Host.Outcome State Fault Refusal := jobCommand .enc .a s

/-- ENC.B starts an encode job of format B (R101). -/
def execEncB (s : State) : Host.Outcome State Fault Refusal := jobCommand .enc .b s

/-- ENC.C starts an encode job of format C (R102). -/
def execEncC (s : State) : Host.Outcome State Fault Refusal := jobCommand .enc .c s

/-- DEC.A starts a decode job of format A (R103). -/
def execDecA (s : State) : Host.Outcome State Fault Refusal := jobCommand .dec .a s

/-- DEC.B starts a decode job of format B (R104). -/
def execDecB (s : State) : Host.Outcome State Fault Refusal := jobCommand .dec .b s

/-- DEC.C starts a decode job of format C (R105). -/
def execDecC (s : State) : Host.Outcome State Fault Refusal := jobCommand .dec .c s

end Sys2Proof.Machine
end

