-- ==== Sys2Proof/Machine/FormatA.lean ====
section
/-! DEFINITION. Format A, 1-bit toggle RLE (42_format_a.md): the encoder's pixel step and flush, and the meaning of its
record. -/

namespace Sys2Proof.Machine

/-- currentState as a number, ACC_VAL bit 0 (42_format_a.md R120). -/
def State.stateBit (s : State) : Nat := (s.accVal.getLsbD 0).toNat

/-- a_flush(): the pending run, if any, is emitted; the accumulator keeps its values (42_format_a.md R122). -/
def flushA (s : State) : Flow := emitAll (flushBytesA s.stateBit s.accLen.toNat) s

/-- a_pixel(p): a matching pixel lengthens the run, and at 125 the run is emitted and ACC_LEN is 0; another pixel flushes
and starts a run of 1 (42_format_a.md R121, R123). -/
def pixelA (p : Byte) (s : State) : Flow :=
  if quantA s.aThresh p = s.accVal.getLsbD 0 then
    if s.accLen.toNat + 1 = capA then
      (emitAll (flushBytesA s.stateBit capA) (s.setAcc s.accVal (s.accLen + 1#32))).andThen fun t =>
        .ok (t.setAcc t.accVal 0#32)
    else .ok (s.setAcc s.accVal (s.accLen + 1#32))
  else
    (flushA s).andThen fun t => .ok (t.setAcc (stateByte (quantA s.aThresh p)) 1#32)

/-- The record lengths the Format A encoder emits: 1 to 125 (42_format_a.md R127; 30_encoding.md R71). -/
def canonicalA (l : Nat) : Bool := decide (1 ≤ l ∧ l ≤ capA)

/-- A.RUN s, l: l pixels of 255 (on) or 0 (off); IN_POS moves 1 (42_format_a.md R125, R126). -/
def execARun (on : Bool) (l : BitVec 7) (s : State) : Host.Outcome State Fault Refusal :=
  runRecord 1 l.toNat (canonicalA l.toNat) (dequantA on) s

end Sys2Proof.Machine
end

