-- ==== Sys2Proof/Machine/FormatB.lean ====
section
/-! DEFINITION. Format B, 7-bit grayscale RLE (43_format_b.md): the encoder's pixel step and flush, and the meanings of its
five records. -/

namespace Sys2Proof.Machine

/-- b_flush(): the pending run, if any, is emitted as one record; the accumulator keeps its values (43_format_b.md R143). -/
def flushB (s : State) : Flow := emitAll (flushBytesB (s.accVal.extractLsb' 0 7).toNat s.accLen.toNat) s

/-- b_pixel(p): a matching pixel lengthens the run, or raises UnsupportedRunLengthError at the ceiling before anything
changes; another pixel flushes and starts a run of 1 (43_format_b.md R141, R142). -/
def pixelB (p : Byte) (s : State) : Flow :=
  if quantB p = s.accVal then
    if s.accLen.toNat = ceilingB then .ended (s.raise .unsupportedRunLength)
    else .ok (s.setAcc s.accVal (s.accLen + 1#32))
  else
    (flushB s).andThen fun t => .ok (t.setAcc (quantB p) 1#32)

/-- B.PIX c: one pixel of c << 1; IN_POS moves 1. Every B.PIX is canonical (43_format_b.md R146). -/
def execBPix (c : BitVec 7) (s : State) : Host.Outcome State Fault Refusal :=
  runRecord 1 1 true (dequantB c) s

/-- B.RUN1 c, n: n pixels of c << 1; IN_POS moves 2; canonical from n = 2 (43_format_b.md R147, R152). -/
def execBRun1 (c : BitVec 7) (n : BitVec 7) (s : State) : Host.Outcome State Fault Refusal :=
  runRecord 2 n.toNat (decide (2 ≤ n.toNat)) (dequantB c) s

/-- B.RUN2 c, n: n pixels of c << 1; IN_POS moves 3; canonical from n = 0x80 (43_format_b.md R148, R152). -/
def execBRun2 (c : BitVec 7) (n : BitVec 14) (s : State) : Host.Outcome State Fault Refusal :=
  runRecord 3 n.toNat (decide (0x80 ≤ n.toNat)) (dequantB c) s

/-- B.RUN3 c, n: n pixels of c << 1; IN_POS moves 4; canonical from n = 0x4000 (43_format_b.md R149, R152). -/
def execBRun3 (c : BitVec 7) (n : BitVec 21) (s : State) : Host.Outcome State Fault Refusal :=
  runRecord 4 n.toNat (decide (0x4000 ≤ n.toNat)) (dequantB c) s

/-- B.RUN4 c, n: n pixels of c << 1; IN_POS moves 5; canonical from n = 0x200000 (43_format_b.md R150, R152). -/
def execBRun4 (c : BitVec 7) (n : BitVec 28) (s : State) : Host.Outcome State Fault Refusal :=
  runRecord 5 n.toNat (decide (0x200000 ≤ n.toNat)) (dequantB c) s

end Sys2Proof.Machine
end

