-- ==== Sys2Proof/Machine/FormatC.lean ====
section
/-! DEFINITION. Format C, 4-bit nibble RLE (44_format_c.md): the encoder's pixel step and flush, and the meanings of its
three records. -/

namespace Sys2Proof.Machine

/-- c_flush(), the source's PutReps: the pending run is emitted as one or more records and ACC_LEN is 0 (44_format_c.md
R162). -/
def flushC (s : State) : Flow :=
  (emitAll (flushBytesC (s.accVal.extractLsb' 0 4).toNat s.accLen.toNat) s).andThen fun t =>
    .ok (t.setAcc t.accVal 0#32)

/-- c_pixel(p): a matching pixel lengthens the run; another pixel flushes and starts a run of 1 (44_format_c.md R161). -/
def pixelC (p : Byte) (s : State) : Flow :=
  if quantC p = s.accVal then .ok (s.setAcc s.accVal (s.accLen + 1#32))
  else
    (flushC s).andThen fun t => .ok (t.setAcc (quantC p) 1#32)

/-- C.RUNK n: n pixels of 0x00; IN_POS moves 2; canonical unless n = 0 (44_format_c.md R166, R170). -/
def execCRunK (n : BitVec 12) (s : State) : Host.Outcome State Fault Refusal :=
  runRecord 2 n.toNat (decide (1 ≤ n.toNat)) (dequantC 0#4) s

/-- C.RUNW n: n pixels of 0xF0; IN_POS moves 2; canonical unless n = 0 (44_format_c.md R167, R170). -/
def execCRunW (n : BitVec 12) (s : State) : Host.Outcome State Fault Refusal :=
  runRecord 2 n.toNat (decide (1 ≤ n.toNat)) (dequantC 15#4) s

/-- C.RUNM c, n: n pixels of c << 4; IN_POS moves 1; canonical unless n = 0 (44_format_c.md R168, R170). -/
def execCRunM (c : BitVec 4) (n : BitVec 4) (s : State) : Host.Outcome State Fault Refusal :=
  runRecord 1 n.toNat (decide (1 ≤ n.toNat)) (dequantC c) s

end Sys2Proof.Machine
end

