-- ==== Sys2Proof/Machine/Dispatch.lean ====
section
/-! DEFINITION. exec: the meaning of an instruction, one arm per constructor of Instr. -/

namespace Sys2Proof.Machine

def exec (i : Instr) (s : State) : Host.Outcome State Fault Refusal :=
  match i with
  -- command words, 40_commands.md
  | .nop => Sys2Proof.Machine.execNop s
  | .encA => Sys2Proof.Machine.execEncA s
  | .encB => Sys2Proof.Machine.execEncB s
  | .encC => Sys2Proof.Machine.execEncC s
  | .decA => Sys2Proof.Machine.execDecA s
  | .decB => Sys2Proof.Machine.execDecB s
  | .decC => Sys2Proof.Machine.execDecC s
  -- records, 42_format_a.md to 44_format_c.md
  | .aRun on l => Sys2Proof.Machine.execARun on l s
  | .bPix c => Sys2Proof.Machine.execBPix c s
  | .bRun1 c n => Sys2Proof.Machine.execBRun1 c n s
  | .bRun2 c n => Sys2Proof.Machine.execBRun2 c n s
  | .bRun3 c n => Sys2Proof.Machine.execBRun3 c n s
  | .bRun4 c n => Sys2Proof.Machine.execBRun4 c n s
  | .cRunK n => Sys2Proof.Machine.execCRunK n s
  | .cRunW n => Sys2Proof.Machine.execCRunW n s
  | .cRunM c n => Sys2Proof.Machine.execCRunM c n s

end Sys2Proof.Machine
end

