-- ==== Sys2Proof/Machine/Engine.lean ====
section
/-! DEFINITION. The engine's step (40_commands.md R96 to R99): one pixel or the final flush of an encode job, one record or
the end of a decode job; and the fetch of a record from the stream (60_exceptions.md R203). -/

namespace Sys2Proof.Machine

/-! ### Encode jobs -/

/-- The scan step of a format for one pixel. -/
def pixelStep : Format → Byte → State → Flow
  | .a, p, s => pixelA p s
  | .b, p, s => pixelB p s
  | .c, p, s => pixelC p s

/-- The flush of a format. -/
def flushStep : Format → State → Flow
  | .a, s => flushA s
  | .b, s => flushB s
  | .c, s => flushC s

/-- enc_step(): the next pixel, after which IN_POS moves 1 unless the pixel raised; or, with the raster exhausted, the final
flush and finish() (40_commands.md R97; 41_scanner.md R110). -/
def encStep (s : State) : Host.Outcome State Fault Refusal :=
  if s.inPos.toNat < s.npix.toNat then
    if s.ibufSize ≤ s.inPos.toNat then .fault .noSuchIbufAddress
    else (pixelStep s.jobFmt (s.ibufByte s.inPos.toNat) s).outcome (State.advance 1)
  else (flushStep s.jobFmt s).outcome State.finish

/-! ### Decode jobs -/

/-- How many bytes at IN_POS the decoder may look at: those below IN_LEN and inside IBUF, at most the longest record. -/
def State.windowLength (s : State) : Nat := min maxRecordBytes (min s.inLen.toNat s.ibufSize - s.inPos.toNat)

/-- The stream bytes at IN_POS, in stream order. Reading a byte has no side effect (20_memory.md R40), so looking at bytes
the record turns out not to need changes nothing. -/
def State.window (s : State) : List Byte :=
  (List.range s.windowLength).map fun k => s.ibufByte (s.inPos.toNat + k)

/-- What follows when the decoder needs a byte past the window: TruncatedStreamError when that byte's address is at or
beyond IN_LEN (60_exceptions.md R203); below IN_LEN it lies outside IBUF, which the start checks rule out. -/
def missingByte (s : State) : Host.Outcome State Fault Refusal :=
  if s.inLen.toNat ≤ s.inPos.toNat + s.windowLength then .next (s.raise .truncatedStream)
  else .fault .noSuchIbufAddress

/-- One record of the stream: a_record(), b_record() or c_record() (42_format_a.md R126, 43_format_b.md R151,
44_format_c.md R169). The decoded record is executed; a stream that ends inside the record and a reserved length prefix are
raised before anything else is looked at. -/
def recordStep (s : State) : Host.Outcome State Fault Refusal :=
  match decodeRecord s.jobFmt s.window with
  | .ok (i, _) => exec i s
  | .error .truncated => missingByte s
  | .error .reservedPrefix => .next (s.raise .malformedRecord)
  | .error .reservedCommand => .next (s.raise .malformedRecord)
  | .error .trailingBytes => .next (s.raise .malformedRecord)

/-- dec_step(): a record while the raster is not filled, else finish() (40_commands.md R99). -/
def decStep (s : State) : Host.Outcome State Fault Refusal :=
  if s.outLen.toNat < s.npix.toNat then recordStep s else .next s.finish

/-- The engine's step: none while BUSY = 0, else a step of the job (40_commands.md R96). -/
def engineStep (s : State) : Host.Outcome State Fault Refusal :=
  if s.status.busy then
    match s.jobDir with
    | .enc => encStep s
    | .dec => decStep s
  else .next s

end Sys2Proof.Machine
end

