-- ==== Sys2Proof/Machine/HostPort.lean ====
section
/-! DEFINITION. The host's side (20_memory.md R44 to R49): the register file (10_state.md R11 to R24), the CMD write
(40_commands.md R90, R91), and the next operation of the host program (30_encoding.md R75). -/

namespace Sys2Proof.Machine

/-! ### Reading a register -/

/-- ID (10_state.md R22). -/
def idWord : Word := 0x524C4543#32

/-- The value of a register slot (10_state.md R12 to R23). -/
def regValue (i : BitVec 4) (s : State) : Word :=
  if i = 1#4 then s.status.word
  else if i = 2#4 then s.width.setWidth 32
  else if i = 3#4 then s.height.setWidth 32
  else if i = 4#4 then s.aThresh.setWidth 32
  else if i = 5#4 then s.mode.word
  else if i = 6#4 then s.inLen
  else if i = 7#4 then s.outCap
  else if i = 8#4 then s.outLen
  else if i = 9#4 then s.inPos
  else if i = 10#4 then idWord
  else 0#32

/-- Whether a RegRead returns an unspecified value: OUT_LEN or IN_POS while BUSY = 1 (70_reset_and_hazards.md R239). -/
def regReadOpen (i : BitVec 4) (s : State) : Bool := s.status.busy && (i == 8#4 || i == 9#4)

/-- What a RegRead returns (20_memory.md R44). -/
def regRead (i : BitVec 4) (s : State) : Word :=
  if regReadOpen i s then Config.busyWord s.freeReads else regValue i s

/-! ### Writing a register -/

/-- A write to CMD: the decoded command is executed; a reserved word raises IllegalCommandError (40_commands.md R91, R106).
While BUSY = 1 both ignore the write (R90). -/
def cmdWrite (v : Word) (s : State) : Host.Outcome State Fault Refusal :=
  match decodeCommand v with
  | .ok i => exec i s
  | .error _ => .next (illegalCommand s)

/-- A write to a configuration register keeps the low bits of the field (10_state.md R14 to R19); a write to any other
slot changes nothing (R23). -/
def State.setConfig (i : BitVec 4) (v : Word) (s : State) : State :=
  if i = 2#4 then { s with width := v.extractLsb' 0 16 }
  else if i = 3#4 then { s with height := v.extractLsb' 0 16 }
  else if i = 4#4 then { s with aThresh := v.extractLsb' 0 9 }
  else if i = 5#4 then { s with mode := Mode.ofWord v }
  else if i = 6#4 then { s with inLen := v }
  else if i = 7#4 then { s with outCap := v }
  else s

/-- RegWrite (20_memory.md R45): CMD issues a command; the configuration registers ignore writes while BUSY = 1
(10_state.md R24). -/
def regWrite (i : BitVec 4) (v : Word) (s : State) : Host.Outcome State Fault Refusal :=
  if i = 0#4 then cmdWrite v s
  else if s.status.busy then .next s
  else .next (s.setConfig i v)

/-! ### The host's program -/

/-- One host operation, already taken off the program. `poll` reads STATUS and stays at the program's head while BUSY = 1
(30_encoding.md R75). -/
def runHostOp (op : HostOp) (s : State) : Host.Outcome State Fault Refusal :=
  match op with
  | .regRead i => .next (s.answer (.word (regRead i s)) (regReadOpen i s))
  | .regWrite i v => regWrite i v s
  | .bufRead b a => .next (s.answer (.byte (hostRead b a s)) (bufReadOpen b a s))
  | .bufWrite b a v => hostWrite b a v s
  | .poll =>
    if s.status.busy then
      .next ({ s with program := .poll :: s.program }.answer (.word (regRead 1#4 s)) false)
    else .next (s.answer (.word (regRead 1#4 s)) false)

/-- The host's step: the next operation of its program, or nothing when the program has ended (20_memory.md R49;
70_reset_and_hazards.md R244). -/
def hostStep (s : State) : Host.Outcome State Fault Refusal :=
  match s.program with
  | [] => .next s
  | op :: rest => runHostOp op { s with program := rest }

/-! ### Who steps next -/

/-- The step of an agent. -/
def agentStep : Agent → State → Host.Outcome State Fault Refusal
  | .host, s => hostStep s
  | .engine, s => engineStep s
  | .reset, s => .next s.resetEvent

/-- The agent of the next step and the state it steps from: the schedule's next entry; after the schedule the engine while
BUSY = 1, else the host (70_reset_and_hazards.md R243). Log entry 6. -/
def nextAgent (s : State) : Agent × State :=
  match s.schedule with
  | g :: rest => (g, { s with schedule := rest })
  | [] => (if s.status.busy then .engine else .host, s)

/-- One atomic step of the machine. -/
def machineStep (s : State) : Host.Outcome State Fault Refusal := agentStep (nextAgent s).1 (nextAgent s).2

/-! ### Placing an instruction -/

/-- The host is about to write a command word to CMD of the idle block. -/
def State.withCommand (v : Word) (s : State) : State :=
  { s with
    status := { s.status with busy := false }
    program := .regWrite 0#4 v :: s.program
    schedule := [] }

/-- A decode job of format f has just started on a stream of these bytes (IN_POS = OUT_LEN = 0, 40_commands.md R93), on an
instance with the largest buffers (00_scope.md R2) and a raster of the largest size, so that the record lies inside IBUF
whatever its length and the raster is not filled. Log entry 13. -/
def State.withRecord (f : Format) (bs : List Byte) (s : State) : State :=
  { s with
    ibufSize := 0xFFFFFFFF
    obufSize := 0xFFFFFFFF
    status := { busy := true, done := false, err := .noError }
    width := 0xFFFF#16
    height := 0xFFFF#16
    inLen := BitVec.ofNat 32 bs.length
    outCap := 0xFFFFFFFF#32
    outLen := 0#32
    inPos := 0#32
    jobDir := .dec
    jobFmt := f
    npix := 0xFFFE0001#32
    ibuf := writeCells s.ibuf 0 bs
    schedule := [] }

/-- A code where the next step fetches it. -/
def State.withCode (s : State) : Code → State
  | .command v => s.withCommand v
  | .record f bs => s.withRecord f bs

end Sys2Proof.Machine
end

