-- ==== Sys2Proof/Machine/Step.lean ====
section
/-! DEFINITION. The step of the machine, and where the step finds its next instruction. -/

namespace Sys2Proof.Machine

/-- One atomic step: of the host, of the engine, or a reset (70_reset_and_hazards.md R243). -/
def step (s : State) : Host.Outcome State Fault Refusal := machineStep s

/-- The state with an opcode-table word where the next step fetches: a command word as the host's next CMD write, a record
as the first of a running decode job's stream. A word of no row changes nothing. Log entries 7 and 13. -/
def State.withFetchWord (s : State) (nbits w : Nat) : State :=
  match tableCode nbits w with
  | some c => s.withCode c
  | none => s

end Sys2Proof.Machine
end

