-- ==== Sys2Proof/Machine/Assembler.lean ====
section
/-! DEFINITION. The assembler's notation: host program lines (30_encoding.md R75), records (R76) and the RUN
pseudo-instruction (R77). -/

namespace Sys2Proof.Machine

/-! ### Host programs (R75) -/

/-- The register names of 10_state.md R11. -/
inductive RegName where
  | cmd | status | width | height | aThresh | mode | inLen | outCap | outLen | inPos | id
deriving DecidableEq, Repr

/-- A register's slot (10_state.md R11). -/
def RegName.index : RegName → BitVec 4
  | .cmd => 0#4
  | .status => 1#4
  | .width => 2#4
  | .height => 3#4
  | .aThresh => 4#4
  | .mode => 5#4
  | .inLen => 6#4
  | .outCap => 7#4
  | .outLen => 8#4
  | .inPos => 9#4
  | .id => 10#4

/-- A line of a host program (R75). R75 writes `wbuf` for IBUF and `rbuf` for OBUF only; that both lines may name either
buffer, so that every HostRead and HostWrite can be written, is the model's choice. DESIGN CHOICE, log entry 19. -/
inductive Line where
  | wreg (r : RegName) (v : Word)
  | rreg (r : RegName)
  | cmd (i : Instr)
  | wbuf (b : Buf) (a : Nat) (bytes : List Byte)
  | rbuf (b : Buf) (a n : Nat)
  | poll
deriving DecidableEq, Repr

/-- One HostWrite per byte, at rising addresses. -/
def bufWrites (b : Buf) : Nat → List Byte → List HostOp
  | _, [] => []
  | a, v :: vs => .bufWrite b a v :: bufWrites b (a + 1) vs

/-- One HostRead per address. -/
def bufReads (b : Buf) : Nat → Nat → List HostOp
  | _, 0 => []
  | a, n + 1 => .bufRead b a :: bufReads b (a + 1) n

/-- The operations of a line; `cmd` takes the mnemonic of a command word, so a record there cannot be written (R75). -/
def Line.expand : Line → Option (List HostOp)
  | .wreg r v => some [.regWrite r.index v]
  | .rreg r => some [.regRead r.index]
  | .cmd i =>
    match encode i with
    | .command v => some [.regWrite 0#4 v]
    | .record _ _ => none
  | .wbuf b a bytes => some (bufWrites b a bytes)
  | .rbuf b a n => some (bufReads b a n)
  | .poll => some [.poll]

/-- The operations of a host program, in the order of its lines. -/
def assemble : List Line → Option (List HostOp)
  | [] => some []
  | l :: ls =>
    match l.expand, assemble ls with
    | some ops, some rest => some (ops ++ rest)
    | _, _ => none

/-! ### Records (R76) -/

/-- `B.RUN c, n`: the canonical record of a run of n pixels (R76, R65); no record when n = 0 or n is above the ceiling. -/
def bRunRecord (c : BitVec 7) (n : Nat) : Option Instr :=
  if n = 0 then none
  else if n = 1 then some (.bPix c)
  else if n ≤ 0x7F then some (.bRun1 c (BitVec.ofNat 7 n))
  else if n ≤ 0x3FFF then some (.bRun2 c (BitVec.ofNat 14 n))
  else if n ≤ 0x1FFFFF then some (.bRun3 c (BitVec.ofNat 21 n))
  else if n ≤ ceilingB then some (.bRun4 c (BitVec.ofNat 28 n))
  else none

/-- The Format C record of a colour and a length in the form's range: 2 bytes for colours 0 and 15, else 1 byte (R76,
R68). -/
def cRunRecord (c : BitVec 4) (n : Nat) : Instr :=
  if c = 0#4 then .cRunK (BitVec.ofNat 12 n)
  else if c = 15#4 then .cRunW (BitVec.ofNat 12 n)
  else .cRunM c (BitVec.ofNat 4 n)

/-- `C.RUN c, n`; a length out of the form's range cannot be written (R76). -/
def cRunItem (c : BitVec 4) (n : Nat) : Option Instr :=
  if n ≤ capC c.toNat then some (cRunRecord c n) else none

/-! ### RUN v, n (R77)

R77 gives `RUN v, n` for n >= 1 only. What the three functions give for n = 0 is the model's choice: no record in Formats A
and C, by the same divisions, and no expansion in Format B, where `B.RUN c, 0` cannot be written. DESIGN CHOICE, log entry
20. -/

/-- `RUN v, n` in Format A: records of 125, then the rest if any. n = 0 gives the empty list, the model's choice (log entry
20). -/
def runRecordsA (on : Bool) (n : Nat) : List Instr :=
  List.replicate (n / capA) (.aRun on (BitVec.ofNat 7 capA)) ++
    if n % capA = 0 then [] else [.aRun on (BitVec.ofNat 7 (n % capA))]

/-- `RUN v, n` in Format B: one record, none above the ceiling. n = 0 gives no expansion, the model's choice (log entry
20). -/
def runRecordsB (c : BitVec 7) (n : Nat) : Option (List Instr) := (bRunRecord c n).map fun i => [i]

/-- `RUN v, n` in Format C: records of the colour's cap, then the rest if any. n = 0 gives the empty list, the model's
choice (log entry 20). -/
def runRecordsC (c : BitVec 4) (n : Nat) : List Instr :=
  List.replicate (n / capC c.toNat) (cRunRecord c (capC c.toNat)) ++
    if n % capC c.toNat = 0 then [] else [cRunRecord c (n % capC c.toNat)]

/-- The stream that a list of records is: their bytes, one after the other (R61). -/
def streamBytes (is : List Instr) : List Byte := is.flatMap recordBytes

end Sys2Proof.Machine
end

