-- ==== Sys2Proof/Safety.lean ====
section
/-! DEFINITION. What a sound state of RLEC is: the facts the spec promises of every state a run reaches. -/

namespace Sys2Proof.Machine

/-- The sizes are those R2 allows: 1 to 2^32 - 1 (00_scope.md R2). -/
abbrev State.SizesOk (s : State) : Prop :=
  (1 ≤ s.ibufSize ∧ s.ibufSize < 2 ^ 32) ∧ 1 ≤ s.obufSize ∧ s.obufSize < 2 ^ 32

/-- Both buffers are in canonical form, with no cell at an address that does not exist (20_memory.md R40, R41). -/
abbrev State.BuffersOk (s : State) : Prop :=
  Memory.wf s.ibufSize s.ibuf = true ∧ Memory.wf s.obufSize s.obuf = true

/-- BUSY and DONE are never both 1, and ERR is 0 unless DONE = 1 (10_state.md R13). -/
abbrev State.StatusOk (s : State) : Prop :=
  ¬(s.status.busy = true ∧ s.status.done = true) ∧ (s.status.done = false → s.status.err = .noError)

/-- The accumulator stays in its format's range: ACC_VAL has its unused bits 0 (10_state.md R28) and ACC_LEN has the
format's bound (R29). -/
abbrev State.AccOk (s : State) : Prop :=
  (s.jobFmt = .a → s.accVal.toNat ≤ 1 ∧ s.accLen.toNat ≤ capA) ∧
  (s.jobFmt = .b → s.accVal.toNat < 128 ∧ s.accLen.toNat ≤ ceilingB) ∧
  (s.jobFmt = .c → s.accVal.toNat < 16)

/-- A running encode job lies inside its buffers and its counters inside the job (20_memory.md R40, R41; 42_format_a.md
R120; 44_format_c.md R160). -/
abbrev State.EncodeOk (s : State) : Prop :=
  s.npix.toNat ≤ s.ibufSize ∧ s.inPos.toNat ≤ s.npix.toNat ∧ s.outLen.toNat ≤ s.outCap.toNat ∧
    s.accLen.toNat ≤ s.inPos.toNat ∧ (s.jobFmt = .a → s.accLen.toNat < capA)

/-- A running decode job lies inside its buffers and its counters inside the job (20_memory.md R40, R43). -/
abbrev State.DecodeOk (s : State) : Prop :=
  s.inLen.toNat ≤ s.ibufSize ∧ s.npix.toNat ≤ s.outCap.toNat ∧ s.outLen.toNat ≤ s.npix.toNat ∧
    s.inPos.toNat ≤ s.inLen.toNat

/-- A running job has passed its start checks (40_commands.md R94): NPIX is WIDTH × HEIGHT, not 0, and the job fits. -/
abbrev State.JobOk (s : State) : Prop :=
  s.status.busy = true →
    s.npix = s.pixelCount ∧ s.width ≠ 0#16 ∧ s.height ≠ 0#16 ∧ s.outCap.toNat ≤ s.obufSize ∧
      (s.jobDir = .enc → s.EncodeOk) ∧ (s.jobDir = .dec → s.DecodeOk)

/-- The invariant of the machine. -/
abbrev State.Inv (s : State) : Prop := s.SizesOk ∧ s.BuffersOk ∧ s.StatusOk ∧ s.AccOk ∧ s.JobOk

/-- The host program's next operation writes a buffer. -/
def bufWriteNext : List HostOp → Bool
  | [] => false
  | .regRead _ :: _ => false
  | .regWrite _ _ :: _ => false
  | .bufRead _ _ :: _ => false
  | .bufWrite _ _ _ :: _ => true
  | .poll :: _ => false

/-- The next step is a host write to a buffer while a job runs: the two hazards the host must avoid
(70_reset_and_hazards.md R237, R238). -/
abbrev State.HazardNext (s : State) : Prop :=
  s.status.busy = true ∧ (nextAgent s).1 = .host ∧ bufWriteNext s.program = true

/-! ### The terms claims use -/

/-- A job of a direction and a format is running. -/
abbrev State.Runs (d : Dir) (f : Format) (s : State) : Prop :=
  s.status.busy = true ∧ s.jobDir = d ∧ s.jobFmt = f

/-- k steps of the machine, stopping at the first fault or refusal. -/
def steps : Nat → State → Host.Outcome State Fault Refusal
  | 0, s => .next s
  | k + 1, s =>
    match step s with
    | .next t => steps k t
    | .fault x => .fault x
    | .refused r => .refused r

/-- t is s after a record of `len` bytes wrote its run of n pixels of value v: OBUF has the pixels from OUT_LEN on and no
other byte of it changed, OUT_LEN and IN_POS moved, and nothing else changed (20_memory.md R43; 10_state.md R21). -/
def WritesRun (s t : State) (v : Byte) (n len : Nat) : Prop :=
  t = { s with
    obuf := t.obuf
    outLen := BitVec.ofNat 32 (s.outLen.toNat + n)
    inPos := BitVec.ofNat 32 (s.inPos.toNat + len) } ∧
  ∀ a, t.obufByte a =
    if s.outLen.toNat ≤ a ∧ a < s.outLen.toNat + n then v else s.obufByte a

/-- t's OBUF and OUT_LEN are s's after emitting bytes up to OUT_CAP: OBUF has them from OUT_LEN on, as many as fit, and no
other byte of it changed (20_memory.md R42; 60_exceptions.md R213). -/
def EmitsUpToCap (s t : State) (bs : List Byte) : Prop :=
  t.outLen.toNat = min (s.outLen.toNat + bs.length) s.outCap.toNat ∧
  ∀ a, t.obufByte a =
    if s.outLen.toNat ≤ a ∧ a < t.outLen.toNat then bs.getD (a - s.outLen.toNat) 0#8 else s.obufByte a

end Sys2Proof.Machine

namespace Sys2Proof

/-- How many pixels a record stands for; 0 for a command word (30_encoding.md R63 to R70). -/
def Instr.runLength : Instr → Nat
  | .nop => 0
  | .encA => 0
  | .encB => 0
  | .encC => 0
  | .decA => 0
  | .decB => 0
  | .decC => 0
  | .aRun _ l => l.toNat
  | .bPix _ => 1
  | .bRun1 _ n => n.toNat
  | .bRun2 _ n => n.toNat
  | .bRun3 _ n => n.toNat
  | .bRun4 _ n => n.toNat
  | .cRunK n => n.toNat
  | .cRunW n => n.toNat
  | .cRunM _ n => n.toNat

/-- The pixel a record writes; 0 for a command word (41_scanner.md R116). -/
def Instr.pixel : Instr → Byte
  | .nop => 0#8
  | .encA => 0#8
  | .encB => 0#8
  | .encC => 0#8
  | .decA => 0#8
  | .decB => 0#8
  | .decC => 0#8
  | .aRun on _ => if on then 0xFF#8 else 0x00#8
  | .bPix c => BitVec.ofNat 8 (2 * c.toNat)
  | .bRun1 c _ => BitVec.ofNat 8 (2 * c.toNat)
  | .bRun2 c _ => BitVec.ofNat 8 (2 * c.toNat)
  | .bRun3 c _ => BitVec.ofNat 8 (2 * c.toNat)
  | .bRun4 c _ => BitVec.ofNat 8 (2 * c.toNat)
  | .cRunK _ => 0x00#8
  | .cRunW _ => 0xF0#8
  | .cRunM c _ => BitVec.ofNat 8 (16 * c.toNat)

/-- The records of 30_encoding.md R71's table are not canonical: no encoder emits them. -/
def Instr.canonical : Instr → Bool
  | .nop => true
  | .encA => true
  | .encB => true
  | .encC => true
  | .decA => true
  | .decB => true
  | .decC => true
  | .aRun _ l => l != 0#7 && l != 126#7 && l != 127#7
  | .bPix _ => true
  | .bRun1 _ n => n != 0#7 && n != 1#7
  | .bRun2 _ n => decide (0x80 ≤ n.toNat)
  | .bRun3 _ n => decide (0x4000 ≤ n.toNat)
  | .bRun4 _ n => decide (0x200000 ≤ n.toNat)
  | .cRunK n => n != 0#12
  | .cRunW n => n != 0#12
  | .cRunM _ n => n != 0#4

end Sys2Proof
end

