-- ==== Sys2Proof/Certificates/Slice0/Obligations.lean ====
section
/-! DEFINITION. The statements about the machine, for the provers. Each docstring names the rule of spec/ it formalises. -/

open Sys2Proof Sys2Proof.Machine

/-! ### Reset and the invariant -/

/-- R230: after reset every register and internal register has its stated value, the engine is idle, and a job command raises
InvalidParameterError. R230 and R232 leave the buffer bytes unspecified; that each is the free byte of the reset count is
the model's choice (log entry 2). -/
def Obligations.ResetStateHasTheStatedValues : Prop :=
  regRead 0#4 State.reset = 0x00000000#32 ∧ regRead 1#4 State.reset = 0x00000000#32 ∧
  regRead 2#4 State.reset = 0x00000000#32 ∧ regRead 3#4 State.reset = 0x00000000#32 ∧
  regRead 4#4 State.reset = 0x000000FF#32 ∧ regRead 5#4 State.reset = 0x00000000#32 ∧
  regRead 6#4 State.reset = 0x00000000#32 ∧ (regRead 7#4 State.reset).toNat = State.reset.obufSize ∧
  regRead 8#4 State.reset = 0x00000000#32 ∧ regRead 9#4 State.reset = 0x00000000#32 ∧
  regRead 10#4 State.reset = 0x524C4543#32 ∧
  (∀ i : BitVec 4, 11 ≤ i.toNat → regRead i State.reset = 0x00000000#32) ∧
  State.reset.jobDir = .enc ∧ State.reset.jobFmt = .a ∧ State.reset.npix = 0#32 ∧ State.reset.accVal = 0#8 ∧
  State.reset.accLen = 0#32 ∧
  (∀ a, State.reset.ibufByte a = Config.resetIbuf State.reset.resets a ∧
    State.reset.obufByte a = Config.resetObuf State.reset.resets a) ∧
  engineStep State.reset = .next State.reset ∧
  ∀ i ∈ [Instr.encA, .encB, .encC, .decA, .decB, .decC],
    ∃ t, exec i State.reset = .next t ∧ regRead 1#4 t = 0x00000012#32

/-- The reset state satisfies the invariant of the machine (the model's own collection of R2, R13, R28, R29, R40, R41).
The invariant is the model's own collection of the spec's bounds (log entry 17). -/
def Obligations.ResetStateSatisfiesTheInvariant : Prop := State.reset.Inv

/-- Every step keeps the invariant: the sizes stay legal, both buffers stay in canonical form inside their sizes, BUSY and
DONE are never both 1 and ERR is 0 unless DONE (R13), ACC_VAL and ACC_LEN stay in their format's range (R28, R29), and a
running job stays inside its buffers with its counters in range (R3, R40, R41).
The invariant is the model's own collection of the spec's bounds (log entry 17). -/
def Obligations.EveryStepKeepsTheInvariant : Prop :=
  ∀ s t : State, s.Inv → step s = .next t → t.Inv

/-- From a state that satisfies the invariant the machine stops only on a hazard of the host: the engine never leaves its
buffers (R40, R41), no host operation raises an error (R212), and nothing is refused.
The invariant is the model's own collection of the spec's bounds (log entry 17). That an engine access beyond its buffer would be a
fault is the model's choice (log entry 8). -/
def Obligations.TheMachineStopsOnlyOnHazards : Prop :=
  ∀ s : State, s.Inv →
    (∃ t, step s = .next t) ∨
    (s.HazardNext ∧ (step s = .fault .hazardIbufWrite ∨ step s = .fault .hazardObufWrite))

/-- R231: a reset event, whatever the block is doing, gives every register its value of R230; the sizes stay. R232
leaves the buffer bytes unspecified anew; that each is the free byte of the new reset count is the model's choice (log entry
2), and so is that the host keeps its program and replies (log entry 9). -/
def Obligations.ResetEventRestoresTheResetState : Prop :=
  ∀ (s : State) (rest : List Agent), s.SizesOk → s.schedule = .reset :: rest →
    ∃ t, step s = .next t ∧ t.ibufSize = s.ibufSize ∧ t.obufSize = s.obufSize ∧
      regRead 1#4 t = 0x00000000#32 ∧ regRead 2#4 t = 0x00000000#32 ∧ regRead 3#4 t = 0x00000000#32 ∧
      regRead 4#4 t = 0x000000FF#32 ∧ regRead 5#4 t = 0x00000000#32 ∧ regRead 6#4 t = 0x00000000#32 ∧
      (regRead 7#4 t).toNat = s.obufSize ∧ regRead 8#4 t = 0x00000000#32 ∧ regRead 9#4 t = 0x00000000#32 ∧
      t.jobDir = .enc ∧ t.jobFmt = .a ∧ t.npix = 0#32 ∧ t.accVal = 0#8 ∧ t.accLen = 0#32 ∧
      (∀ a, t.ibufByte a = Config.resetIbuf (s.resets + 1) a ∧ t.obufByte a = Config.resetObuf (s.resets + 1) a) ∧
      t.program = s.program ∧ t.schedule = rest ∧ t.replies = s.replies

/-! ### Registers and buffers -/

/-- The layout of STATUS (R13) and the value it reads after a job ended with an error (R201: 0x00000002 | (code << 4)), for
every error with its code. -/
def Obligations.StatusReadsFlagsAndErrorCode : Prop :=
  (∀ t : Status, t.word.getLsbD 0 = t.busy ∧ t.word.getLsbD 1 = t.done ∧ t.word.extractLsb' 2 2 = 0#2 ∧
    t.word.extractLsb' 4 3 = t.err.code ∧ t.word.extractLsb' 7 25 = 0#25) ∧
  (∀ (e : ErrCode) (s : State), regRead 1#4 (s.raise e) = 0x00000002#32 ||| (e.code.setWidth 32 <<< 4)) ∧
  (∀ s : State, regRead 1#4 s.finish = 0x00000002#32) ∧
  ErrCode.code .noError = 0#3 ∧ ErrCode.code .invalidParameter = 1#3 ∧ ErrCode.code .truncatedStream = 2#3 ∧
  ErrCode.code .overrun = 3#3 ∧ ErrCode.code .unsupportedRunLength = 4#3 ∧ ErrCode.code .malformedRecord = 5#3 ∧
  ErrCode.code .outputOverflow = 6#3 ∧ ErrCode.code .illegalCommand = 7#3

/-- What every slot reads (R11 to R23): idle, its register's value; busy, the same but for OUT_LEN and IN_POS. R239 lets these
two read any value while BUSY = 1; that it is the next free value is the model's choice (log entry 3). -/
def Obligations.RegisterReadsFollowTheMap : Prop :=
  ∀ s : State,
    regRead 0#4 s = 0#32 ∧ regRead 1#4 s = s.status.word ∧
    (regRead 2#4 s).toNat = s.width.toNat ∧ (regRead 3#4 s).toNat = s.height.toNat ∧
    (regRead 4#4 s).toNat = s.aThresh.toNat ∧
    (regRead 5#4 s).toNat = s.mode.strict.toNat + 2 * s.mode.zeroDimOk.toNat ∧
    regRead 6#4 s = s.inLen ∧ regRead 7#4 s = s.outCap ∧
    (s.status.busy = false → regRead 8#4 s = s.outLen ∧ regRead 9#4 s = s.inPos) ∧
    (s.status.busy = true → regRead 8#4 s = Config.busyWord s.freeReads ∧ regRead 9#4 s = Config.busyWord s.freeReads) ∧
    regRead 10#4 s = 0x524C4543#32 ∧ (∀ i : BitVec 4, 11 ≤ i.toNat → regRead i s = 0#32)

/-- R44, R46, R47, R239: a host read, and a poll's read of STATUS, answers the host and changes nothing of the block. A
poll stays at the program's head exactly while BUSY = 1 (R75).
That the host keeps what it read in `replies`, newest first, is the model's choice (log entries 7 and 11), and so is that a poll is
one operation that stays at the program's head and logs each STATUS it reads (log entry 11); R75 says only that it repeats the
read of STATUS until BUSY = 0. -/
def Obligations.HostReadsChangeNothingOfTheBlock : Prop :=
  ∀ (s : State) (rest : List HostOp),
    (∀ i, s.program = .regRead i :: rest →
      ∃ n, hostStep s = .next { s with program := rest, replies := .word (regRead i s) :: s.replies, freeReads := n }) ∧
    (∀ b a, s.program = .bufRead b a :: rest →
      ∃ n, hostStep s = .next { s with program := rest, replies := .byte (hostRead b a s) :: s.replies, freeReads := n }) ∧
    (s.program = .poll :: rest →
      hostStep s = .next { s with
        program := if s.status.busy then .poll :: rest else rest
        replies := .word s.status.word :: s.replies })

/-- R90 and R236: while BUSY = 1 no register write changes anything, whatever the slot and the value. -/
def Obligations.RegisterWritesAreIgnoredWhileBusy : Prop :=
  ∀ (s : State) (i : BitVec 4) (v : Word), s.status.busy = true → regWrite i v s = .next s

/-- R14 to R19: an idle write to a configuration register stores the low bits of its field and nothing else changes. -/
def Obligations.ConfigurationWritesStoreTheirField : Prop :=
  ∀ (s : State) (v : Word), s.status.busy = false →
    (∃ w : BitVec 16, regWrite 2#4 v s = .next { s with width := w } ∧ w.toNat = v.toNat % 2 ^ 16) ∧
    (∃ w : BitVec 16, regWrite 3#4 v s = .next { s with height := w } ∧ w.toNat = v.toNat % 2 ^ 16) ∧
    (∃ w : BitVec 9, regWrite 4#4 v s = .next { s with aThresh := w } ∧ w.toNat = v.toNat % 2 ^ 9) ∧
    (∃ m : Mode, regWrite 5#4 v s = .next { s with mode := m } ∧
      m.strict.toNat + 2 * m.zeroDimOk.toNat = v.toNat % 4) ∧
    regWrite 6#4 v s = .next { s with inLen := v } ∧
    regWrite 7#4 v s = .next { s with outCap := v }

/-- R23: writes to the read-only and the reserved slots are ignored, reserved slots and reserved bits read 0, and writes
ignore reserved bits. -/
def Obligations.ReservedAndReadOnlyRegistersIgnoreWrites : Prop :=
  ∀ (s : State) (v : Word),
    (∀ i : BitVec 4, i = 1#4 ∨ 8 ≤ i.toNat → regWrite i v s = .next s) ∧
    (∀ i : BitVec 4, 11 ≤ i.toNat → regRead i s = 0#32) ∧
    regRead 1#4 s &&& 0xFFFFFF8C#32 = 0#32 ∧ regRead 2#4 s &&& 0xFFFF0000#32 = 0#32 ∧
    regRead 3#4 s &&& 0xFFFF0000#32 = 0#32 ∧ regRead 4#4 s &&& 0xFFFFFE00#32 = 0#32 ∧
    regRead 5#4 s &&& 0xFFFFFFFC#32 = 0#32 ∧
    regWrite 2#4 v s = regWrite 2#4 (v &&& 0x0000FFFF#32) s ∧ regWrite 3#4 v s = regWrite 3#4 (v &&& 0x0000FFFF#32) s ∧
    regWrite 4#4 v s = regWrite 4#4 (v &&& 0x000001FF#32) s ∧ regWrite 5#4 v s = regWrite 5#4 (v &&& 0x00000003#32) s

/-- R46, R47, R48, R241: an idle host write stores its byte, or nothing beyond the buffer, where a read gives 0x00; every
other byte of both buffers, and everything else, keeps its value. -/
def Obligations.HostWriteThenHostRead : Prop :=
  ∀ (s : State) (b : Buf) (a : Nat) (v : Byte), s.status.busy = false →
    ∃ t, hostWrite b a v s = .next t ∧ t = { s with ibuf := t.ibuf, obuf := t.obuf } ∧
      (a < (match b with | .ibuf => s.ibufSize | .obuf => s.obufSize) → hostRead b a t = v) ∧
      ((match b with | .ibuf => s.ibufSize | .obuf => s.obufSize) ≤ a → t = s ∧ hostRead b a t = 0x00#8) ∧
      ∀ b' a', (b', a') ≠ (b, a) → hostRead b' a' t = hostRead b' a' s

/-- R237, R238: a host write to a buffer while BUSY = 1 stops the model with the buffer's hazard, for every address. -/
def Obligations.BufferWritesWhileBusyAreHazards : Prop :=
  ∀ (s : State) (a : Nat) (v : Byte), s.status.busy = true →
    hostWrite .ibuf a v s = .fault .hazardIbufWrite ∧ hostWrite .obuf a v s = .fault .hazardObufWrite

/-! ### Commands -/

/-- R92: NOP, the command word 0x00000000, changes no state, idle or busy. -/
def Obligations.NopChangesNothing : Prop :=
  decode (.command 0x00000000#32) = .ok .nop ∧
  ∀ s : State, exec .nop s = .next s ∧ regWrite 0#4 0x00000000#32 s = .next s

/-- ENC.A, ENC.B and ENC.C complete (R93, R94, R100 to R102): idle, with legal dimensions, OUT_CAP inside OBUF and a raster
that fits IBUF, the job runs from a cleared start and nothing else changes. -/
def Obligations.EncodeCommandsStartAJob : Prop :=
  ∀ s : State, s.status.busy = false → s.outCap.toNat ≤ s.obufSize → s.width ≠ 0#16 → s.height ≠ 0#16 →
    s.width.toNat * s.height.toNat ≤ s.ibufSize →
    ∀ i f, (i, f) ∈ [(Instr.encA, Format.a), (.encB, .b), (.encC, .c)] →
      exec i s = .next { s with
        status := { busy := true, done := false, err := .noError }, outLen := 0#32, inPos := 0#32
        jobDir := .enc, jobFmt := f, npix := BitVec.ofNat 32 (s.width.toNat * s.height.toNat)
        accVal := 0#8, accLen := 0#32 }

/-- DEC.A, DEC.B and DEC.C complete (R93, R94, R103 to R105): idle, with legal dimensions, OUT_CAP inside OBUF, a stream
that fits IBUF and a raster that fits OUT_CAP, the job runs from a cleared start and nothing else changes. -/
def Obligations.DecodeCommandsStartAJob : Prop :=
  ∀ s : State, s.status.busy = false → s.outCap.toNat ≤ s.obufSize → s.width ≠ 0#16 → s.height ≠ 0#16 →
    s.inLen.toNat ≤ s.ibufSize → s.width.toNat * s.height.toNat ≤ s.outCap.toNat →
    ∀ i f, (i, f) ∈ [(Instr.decA, Format.a), (.decB, .b), (.decC, .c)] →
      exec i s = .next { s with
        status := { busy := true, done := false, err := .noError }, outLen := 0#32, inPos := 0#32
        jobDir := .dec, jobFmt := f, npix := BitVec.ofNat 32 (s.width.toNat * s.height.toNat)
        accVal := 0#8, accLen := 0#32 }

/-- R94: the start checks of every job command, in the spec's order; the first that fails ends the job. -/
def Obligations.StartChecksRunInOrder : Prop :=
  ∀ s : State, s.status.busy = false →
    ∀ i d f, (i, d, f) ∈ [(Instr.encA, Dir.enc, Format.a), (.encB, .enc, .b), (.encC, .enc, .c), (.decA, .dec, .a),
      (.decB, .dec, .b), (.decC, .dec, .c)] →
      exec i s = .next { s with
        status :=
          if s.obufSize < s.outCap.toNat then { busy := false, done := true, err := .invalidParameter }
          else if s.width.toNat = 0 ∨ s.height.toNat = 0 then
            if s.mode.zeroDimOk = false then { busy := false, done := true, err := .invalidParameter }
            else { busy := false, done := true, err := .noError }
          else if d = .enc then
            if s.ibufSize < s.width.toNat * s.height.toNat then
              { busy := false, done := true, err := .invalidParameter }
            else { busy := true, done := false, err := .noError }
          else if s.ibufSize < s.inLen.toNat then { busy := false, done := true, err := .invalidParameter }
          else if s.outCap.toNat < s.width.toNat * s.height.toNat then
            { busy := false, done := true, err := .invalidParameter }
          else { busy := true, done := false, err := .noError }
        outLen := 0#32, inPos := 0#32, jobDir := d, jobFmt := f
        npix := BitVec.ofNat 32 (s.width.toNat * s.height.toNat), accVal := 0#8, accLen := 0#32 }

/-- R95: with MODE.ZERO_DIM_OK = 1 a job of a zero dimension ends in its start step with no error and an empty output,
whatever IN_LEN holds. -/
def Obligations.ZeroDimensionJobEndsAtOnce : Prop :=
  ∀ s : State, s.status.busy = false → s.outCap.toNat ≤ s.obufSize → (s.width = 0#16 ∨ s.height = 0#16) →
    s.mode.zeroDimOk = true → ∀ i ∈ [Instr.encA, .encB, .encC, .decA, .decB, .decC],
      ∃ t, exec i s = .next t ∧ t.status = { busy := false, done := true, err := .noError } ∧ t.outLen = 0#32 ∧
        t.inPos = 0#32 ∧ ∀ a, t.obufByte a = s.obufByte a

/-- R106: every word but the seven commands, written to CMD while idle, clears DONE, ERR, OUT_LEN and IN_POS and raises
IllegalCommandError: STATUS reads 0x00000072, and nothing else changes. -/
def Obligations.ReservedCommandWordsAreIllegal : Prop :=
  ∀ (s : State) (v : Word), s.status.busy = false →
    v ∉ [0x00#32, 0x01#32, 0x02#32, 0x03#32, 0x11#32, 0x12#32, 0x13#32] →
    ∃ t, regWrite 0#4 v s = .next t ∧ regRead 1#4 t = 0x00000072#32 ∧
      t = { s with
        status := { busy := false, done := true, err := .illegalCommand }, outLen := 0#32, inPos := 0#32 }

/-- R109, R216: what a job command makes of an idle block depends on the configuration and the buffers alone: two blocks
that differ only in what earlier jobs left (flags, positions, latch, accumulator, OBUF) start the same job. -/
def Obligations.JobStartForgetsEarlierJobs : Prop :=
  ∀ s u : State, s.status.busy = false → u.status.busy = false →
    u = { s with
      status := u.status, outLen := u.outLen, inPos := u.inPos, jobDir := u.jobDir, jobFmt := u.jobFmt
      npix := u.npix, accVal := u.accVal, accLen := u.accLen, obuf := u.obuf } →
    ∀ i ∈ [Instr.encA, .encB, .encC, .decA, .decB, .decC],
      ∃ t, exec i s = .next t ∧ exec i u = .next { t with obuf := u.obuf }

/-! ### Encodings -/

/-- Decoding the encoding of any well-formed instruction gives the instruction back (R62 to R70). -/
def Obligations.DecodingAnEncodingGivesTheInstruction : Prop :=
  ∀ i : Instr, i.wellFormed = true → decode (encode i) = .ok i

/-- Whatever code decodes, decodes to a well-formed instruction whose encoding is that code: no bit of a code is dropped
(R62 to R70). -/
def Obligations.EncodingADecodingGivesTheCode : Prop :=
  ∀ (c : Code) (i : Instr), decode c = .ok i → i.wellFormed = true ∧ encode i = c

/-- Words and records written out from the tables of R62 to R70 decode to what they stand for. -/
def Obligations.SampleCodesDecode : Prop :=
  decode (.command 0x00000000#32) = .ok .nop ∧ decode (.command 0x00000002#32) = .ok .encB ∧
  decode (.command 0x00000013#32) = .ok .decC ∧ decode (.command 0x00000010#32) = .error .reservedCommand ∧
  decode (.record .a [0x83#8]) = .ok (.aRun true 3#7) ∧
  decode (.record .b [0x7F#8]) = .ok (.bPix 0x7F#7) ∧
  decode (.record .b [0x88#8, 0x03#8]) = .ok (.bRun1 8#7 3#7) ∧
  decode (.record .b [0x85#8, 0xBF#8, 0xFF#8]) = .ok (.bRun2 5#7 0x3FFF#14) ∧
  decode (.record .b [0x85#8, 0xC0#8, 0x40#8, 0x00#8]) = .ok (.bRun3 5#7 0x4000#21) ∧
  decode (.record .b [0x85#8, 0xE0#8, 0x20#8, 0x00#8, 0x00#8]) = .ok (.bRun4 5#7 0x200000#28) ∧
  decode (.record .b [0x85#8, 0xF0#8]) = .error .reservedPrefix ∧
  decode (.record .c [0x03#8, 0x89#8]) = .ok (.cRunK 905#12) ∧
  decode (.record .c [0xF0#8, 0x02#8]) = .ok (.cRunW 2#12) ∧
  decode (.record .c [0x7F#8]) = .ok (.cRunM 7#4 15#4)

/-! ### Records -/

/-- A.RUN completes (R125): with its byte in the stream, a canonical length or STRICT = 0, and room in the raster, it writes
its run and moves IN_POS by 1. -/
def Obligations.FormatARecordWritesItsRun : Prop :=
  ∀ (s : State) (on : Bool) (l : BitVec 7), s.inPos.toNat + 1 ≤ s.inLen.toNat →
    (s.mode.strict = true → 1 ≤ l.toNat ∧ l.toNat ≤ 125) → s.outLen.toNat + l.toNat ≤ s.npix.toNat →
    s.npix.toNat ≤ s.obufSize →
    ∃ t, exec (.aRun on l) s = .next t ∧ WritesRun s t (if on then 255#8 else 0#8) l.toNat 1

/-- B.PIX and B.RUN1 to B.RUN4 complete (R146 to R150): with their bytes in the stream, a length of at least the tier's
minimum or STRICT = 0, and room in the raster, they write a run of c << 1 and move IN_POS by their length. -/
def Obligations.FormatBRecordsWriteTheirRun : Prop :=
  ∀ (s : State) (c : BitVec 7), s.npix.toNat ≤ s.obufSize →
    (s.inPos.toNat + 1 ≤ s.inLen.toNat → s.outLen.toNat + 1 ≤ s.npix.toNat →
      ∃ t, exec (.bPix c) s = .next t ∧ WritesRun s t (BitVec.ofNat 8 (2 * c.toNat)) 1 1) ∧
    (∀ n : BitVec 7, s.inPos.toNat + 2 ≤ s.inLen.toNat → (s.mode.strict = true → 2 ≤ n.toNat) →
      s.outLen.toNat + n.toNat ≤ s.npix.toNat →
      ∃ t, exec (.bRun1 c n) s = .next t ∧ WritesRun s t (BitVec.ofNat 8 (2 * c.toNat)) n.toNat 2) ∧
    (∀ n : BitVec 14, s.inPos.toNat + 3 ≤ s.inLen.toNat → (s.mode.strict = true → 0x80 ≤ n.toNat) →
      s.outLen.toNat + n.toNat ≤ s.npix.toNat →
      ∃ t, exec (.bRun2 c n) s = .next t ∧ WritesRun s t (BitVec.ofNat 8 (2 * c.toNat)) n.toNat 3) ∧
    (∀ n : BitVec 21, s.inPos.toNat + 4 ≤ s.inLen.toNat → (s.mode.strict = true → 0x4000 ≤ n.toNat) →
      s.outLen.toNat + n.toNat ≤ s.npix.toNat →
      ∃ t, exec (.bRun3 c n) s = .next t ∧ WritesRun s t (BitVec.ofNat 8 (2 * c.toNat)) n.toNat 4) ∧
    (∀ n : BitVec 28, s.inPos.toNat + 5 ≤ s.inLen.toNat → (s.mode.strict = true → 0x200000 ≤ n.toNat) →
      s.outLen.toNat + n.toNat ≤ s.npix.toNat →
      ∃ t, exec (.bRun4 c n) s = .next t ∧ WritesRun s t (BitVec.ofNat 8 (2 * c.toNat)) n.toNat 5)

/-- C.RUNK, C.RUNW and C.RUNM complete (R166 to R168): with their bytes in the stream, a length that is not 0 or STRICT = 0,
and room in the raster, they write a run of colour << 4 and move IN_POS by their length. -/
def Obligations.FormatCRecordsWriteTheirRun : Prop :=
  ∀ s : State, s.npix.toNat ≤ s.obufSize →
    (∀ n : BitVec 12, s.inPos.toNat + 2 ≤ s.inLen.toNat → (s.mode.strict = true → n.toNat ≠ 0) →
      s.outLen.toNat + n.toNat ≤ s.npix.toNat →
      (∃ t, exec (.cRunK n) s = .next t ∧ WritesRun s t 0x00#8 n.toNat 2) ∧
      ∃ t, exec (.cRunW n) s = .next t ∧ WritesRun s t 0xF0#8 n.toNat 2) ∧
    (∀ c n : BitVec 4, s.inPos.toNat + 1 ≤ s.inLen.toNat → (s.mode.strict = true → n.toNat ≠ 0) →
      s.outLen.toNat + n.toNat ≤ s.npix.toNat →
      ∃ t, exec (.cRunM c n) s = .next t ∧ WritesRun s t (BitVec.ofNat 8 (16 * c.toNat)) n.toNat 1)

/-- The errors of every record, in the order of R211: TruncatedStreamError when its bytes are not all below IN_LEN (R203),
then MalformedRecordError for a record of R71's table when STRICT = 1 (R207), then OverrunError (R204). Each ends the job
and changes nothing but STATUS. -/
def Obligations.RecordErrorsComeInOrder : Prop :=
  ∀ (s : State) (i : Instr), 1 ≤ i.recordLength →
    (s.inLen.toNat < s.inPos.toNat + i.recordLength →
      exec i s = .next { s with status := { busy := false, done := true, err := .truncatedStream } }) ∧
    (s.inPos.toNat + i.recordLength ≤ s.inLen.toNat → s.mode.strict = true → i.canonical = false →
      exec i s = .next { s with status := { busy := false, done := true, err := .malformedRecord } }) ∧
    (s.inPos.toNat + i.recordLength ≤ s.inLen.toNat → (s.mode.strict = true → i.canonical = true) →
      s.npix.toNat < s.outLen.toNat + i.runLength →
      exec i s = .next { s with status := { busy := false, done := true, err := .overrun } })

/-! ### The engine -/

/-- R96: the engine has no step while BUSY = 0; while BUSY = 1 its step is enc_step() or dec_step() by JOB_DIR. -/
def Obligations.EngineStepsExactlyWhileBusy : Prop :=
  ∀ s : State, (s.status.busy = false → engineStep s = .next s) ∧
    (s.status.busy = true → s.jobDir = .enc → engineStep s = encStep s) ∧
    (s.status.busy = true → s.jobDir = .dec → engineStep s = decStep s)

/-- R114, R33: the first pixel of a run that holds nothing leaves one run of length 1 of the pixel's value and emits
nothing, whatever ACC_VAL the accumulator starts with in the format's range. -/
def Obligations.FirstPixelStartsARunOfOne : Prop :=
  ∀ (s : State) (p : Byte), s.accLen = 0#32 →
    (s.accVal.toNat ≤ 1 →
      pixelStep .a p s =
        .ok { s with accVal := (if s.aThresh.toNat ≤ p.toNat then 1#8 else 0#8), accLen := 1#32 }) ∧
    pixelStep .b p s = .ok { s with accVal := p >>> 1, accLen := 1#32 } ∧
    pixelStep .c p s = .ok { s with accVal := p >>> 4, accLen := 1#32 }

/-- R121: one Format A scan step of a job whose output lies inside OBUF. -/
def Obligations.FormatAPixelStep : Prop :=
  ∀ s : State, s.Runs .enc .a → s.inPos.toNat < s.npix.toNat → s.npix.toNat ≤ s.ibufSize →
    s.outLen.toNat ≤ s.outCap.toNat → s.outCap.toNat ≤ s.obufSize → s.accLen.toNat ≤ 124 →
    ∃ t, engineStep s = .next t ∧
      if decide (s.aThresh.toNat ≤ (s.ibufByte s.inPos.toNat).toNat) = s.accVal.getLsbD 0 then
        if s.accLen.toNat + 1 = 125 then
          EmitsUpToCap s t [BitVec.ofNat 8 (128 * (s.accVal.getLsbD 0).toNat + 125)] ∧
          if s.outLen.toNat < s.outCap.toNat then
            t = { s with obuf := t.obuf, outLen := t.outLen, accLen := 0#32, inPos := s.inPos + 1#32 }
          else t = { s with
            obuf := t.obuf, outLen := t.outLen, accLen := 125#32
            status := { busy := false, done := true, err := .outputOverflow } }
        else t = { s with accLen := s.accLen + 1#32, inPos := s.inPos + 1#32 }
      else if s.accLen = 0#32 then
        t = { s with
          accVal := (if s.aThresh.toNat ≤ (s.ibufByte s.inPos.toNat).toNat then 1#8 else 0#8), accLen := 1#32
          inPos := s.inPos + 1#32 }
      else
        EmitsUpToCap s t [BitVec.ofNat 8 (128 * (s.accVal.getLsbD 0).toNat + s.accLen.toNat)] ∧
        if s.outLen.toNat < s.outCap.toNat then
          t = { s with
            obuf := t.obuf, outLen := t.outLen
            accVal := (if s.aThresh.toNat ≤ (s.ibufByte s.inPos.toNat).toNat then 1#8 else 0#8), accLen := 1#32
            inPos := s.inPos + 1#32 }
        else t = { s with
          obuf := t.obuf, outLen := t.outLen, status := { busy := false, done := true, err := .outputOverflow } }

/-- R141, R142: one Format B scan step of a job whose output lies inside OBUF. A matching pixel lengthens the run, or at the
ceiling raises UnsupportedRunLengthError and changes nothing but STATUS; another pixel flushes and starts a run of 1. -/
def Obligations.FormatBPixelStep : Prop :=
  ∀ s : State, s.Runs .enc .b → s.inPos.toNat < s.npix.toNat → s.npix.toNat ≤ s.ibufSize →
    s.outLen.toNat ≤ s.outCap.toNat → s.outCap.toNat ≤ s.obufSize →
    ∃ t, engineStep s = .next t ∧
      if (s.ibufByte s.inPos.toNat).toNat / 2 = s.accVal.toNat then
        if s.accLen.toNat = 0x0FFFFFFF then
          t = { s with status := { busy := false, done := true, err := .unsupportedRunLength } }
        else t = { s with accLen := s.accLen + 1#32, inPos := s.inPos + 1#32 }
      else
        EmitsUpToCap s t (flushBytesB (s.accVal.toNat % 128) s.accLen.toNat) ∧
        if s.outLen.toNat + (flushBytesB (s.accVal.toNat % 128) s.accLen.toNat).length ≤ s.outCap.toNat then
          t = { s with
            obuf := t.obuf, outLen := t.outLen, accVal := s.ibufByte s.inPos.toNat >>> 1, accLen := 1#32
            inPos := s.inPos + 1#32 }
        else t = { s with
          obuf := t.obuf, outLen := t.outLen, status := { busy := false, done := true, err := .outputOverflow } }

/-- R161: one Format C scan step of a job whose output lies inside OBUF. -/
def Obligations.FormatCPixelStep : Prop :=
  ∀ s : State, s.Runs .enc .c → s.inPos.toNat < s.npix.toNat → s.npix.toNat ≤ s.ibufSize →
    s.outLen.toNat ≤ s.outCap.toNat → s.outCap.toNat ≤ s.obufSize →
    ∃ t, engineStep s = .next t ∧
      if (s.ibufByte s.inPos.toNat).toNat / 16 = s.accVal.toNat then
        t = { s with accLen := s.accLen + 1#32, inPos := s.inPos + 1#32 }
      else
        EmitsUpToCap s t (flushBytesC (s.accVal.toNat % 16) s.accLen.toNat) ∧
        if s.outLen.toNat + (flushBytesC (s.accVal.toNat % 16) s.accLen.toNat).length ≤ s.outCap.toNat then
          t = { s with
            obuf := t.obuf, outLen := t.outLen, accVal := s.ibufByte s.inPos.toNat >>> 4, accLen := 1#32
            inPos := s.inPos + 1#32 }
        else t = { s with
          obuf := t.obuf, outLen := t.outLen, status := { busy := false, done := true, err := .outputOverflow } }

/-- R124, R145, R165, R213: the final step of an encode job emits the pending run and finishes, or overflows. -/
def Obligations.FinalEncodeStepFlushesAndFinishes : Prop :=
  ∀ (s : State) (f : Format) (bs : List Byte), s.Runs .enc f → s.npix.toNat ≤ s.inPos.toNat →
    s.outLen.toNat ≤ s.outCap.toNat → s.outCap.toNat ≤ s.obufSize →
    (bs = match f with
      | .a => flushBytesA (s.accVal.toNat % 2) s.accLen.toNat
      | .b => flushBytesB (s.accVal.toNat % 128) s.accLen.toNat
      | .c => flushBytesC (s.accVal.toNat % 16) s.accLen.toNat) →
    ∃ t, engineStep s = .next t ∧ EmitsUpToCap s t bs ∧
      if s.outLen.toNat + bs.length ≤ s.outCap.toNat then
        t = { s with
          obuf := t.obuf, outLen := t.outLen, accLen := (if f = .c then 0#32 else s.accLen)
          status := { busy := false, done := true, err := .noError } }
      else t = { s with
        obuf := t.obuf, outLen := t.outLen, status := { busy := false, done := true, err := .outputOverflow } }

/-- R122, R143, R65: the bytes of the Format A flush and of the Format B flush, tier by tier, as numbers. -/
def Obligations.FlushBytesByLength : Prop :=
  (∀ v, flushBytesA v 0 = []) ∧ (∀ c, flushBytesB c 0 = []) ∧
  (∀ v r, v ≤ 1 → 1 ≤ r → r ≤ 125 → flushBytesA v r = [BitVec.ofNat 8 (128 * v + r)]) ∧
  (∀ c s, c < 128 →
    (s = 1 → flushBytesB c s = [BitVec.ofNat 8 c]) ∧
    (2 ≤ s → s ≤ 0x7F → flushBytesB c s = [BitVec.ofNat 8 (128 + c), BitVec.ofNat 8 s]) ∧
    (0x80 ≤ s → s ≤ 0x3FFF →
      flushBytesB c s = [BitVec.ofNat 8 (128 + c), BitVec.ofNat 8 (0x80 + s / 256), BitVec.ofNat 8 s]) ∧
    (0x4000 ≤ s → s ≤ 0x1FFFFF →
      flushBytesB c s = [BitVec.ofNat 8 (128 + c), BitVec.ofNat 8 (0xC0 + s / 65536), BitVec.ofNat 8 (s / 256),
        BitVec.ofNat 8 s]) ∧
    (0x200000 ≤ s → s ≤ 0x0FFFFFFF →
      flushBytesB c s = [BitVec.ofNat 8 (128 + c), BitVec.ofNat 8 (0xE0 + s / 16777216), BitVec.ofNat 8 (s / 65536),
        BitVec.ofNat 8 (s / 256), BitVec.ofNat 8 s]))

/-- R77, R163: what a flush emits for a run is the stream of the run's RUN expansion, in every format.
R77 speaks of n >= 1; for n = 0 the clauses rest on the model's choice (log entry 20). -/
def Obligations.FlushesEmitTheRunExpansion : Prop :=
  (∀ (on : Bool) (n : Nat), 1 ≤ n → n ≤ 125 → flushBytesA on.toNat n = streamBytes (runRecordsA on n)) ∧
  (∀ (c : BitVec 7) (n : Nat) (is : List Instr), runRecordsB c n = some is → flushBytesB c.toNat n = streamBytes is) ∧
  (∀ (c : BitVec 4) (n : Nat), flushBytesC c.toNat n = streamBytes (runRecordsC c n))

/-- R118, R77: the records of a RUN expansion are well-formed and canonical, write the run's pixel, have no length 0, and
their lengths add up to the run.
R77 speaks of n >= 1; for n = 0 the clauses rest on the model's choice (log entry 20). -/
def Obligations.RunExpansionsCoverTheRun : Prop :=
  (∀ (on : Bool) (n : Nat), ((runRecordsA on n).map Instr.runLength).sum = n ∧
    ∀ i ∈ runRecordsA on n, i.wellFormed = true ∧ i.canonical = true ∧ 1 ≤ i.runLength ∧ i.pixel = dequantA on) ∧
  (∀ (c : BitVec 7) (n : Nat) (is : List Instr), runRecordsB c n = some is → (is.map Instr.runLength).sum = n ∧
    ∀ i ∈ is, i.wellFormed = true ∧ i.canonical = true ∧ 1 ≤ i.runLength ∧ i.pixel = dequantB c) ∧
  (∀ (c : BitVec 4) (n : Nat), ((runRecordsC c n).map Instr.runLength).sum = n ∧
    ∀ i ∈ runRecordsC c n, i.wellFormed = true ∧ i.canonical = true ∧ 1 ≤ i.runLength ∧ i.pixel = dequantC c)

/-- R111, R112, R113, R116: the quantizers and dequantizers as numbers. -/
def Obligations.QuantizersFollowTheirFormulas : Prop :=
  (∀ (t : BitVec 9) (p : Byte), quantA t p = true ↔ t.toNat ≤ p.toNat) ∧
  (∀ p : Byte, quantA 0#9 p = true ∧ (quantA 255#9 p = true ↔ p = 255#8)) ∧
  (∀ (t : BitVec 9) (p : Byte), 256 ≤ t.toNat → quantA t p = false) ∧
  (∀ p : Byte, (quantB p).toNat = p.toNat / 2 ∧ (quantC p).toNat = p.toNat / 16) ∧
  dequantA true = 255#8 ∧ dequantA false = 0#8 ∧
  (∀ c : BitVec 7, (dequantB c).toNat = 2 * c.toNat) ∧ (∀ c : BitVec 4, (dequantC c).toNat = 16 * c.toNat)

/-- R99: a decode job whose raster is filled ends with no error, whatever bytes of the stream are left. -/
def Obligations.FilledRasterEndsTheDecodeJob : Prop :=
  ∀ s : State, s.status.busy = true → s.jobDir = .dec → s.npix.toNat ≤ s.outLen.toNat →
    engineStep s = .next { s with status := { busy := false, done := true, err := .noError } }

/-- R126: one Format A decode step of a job that fits its buffers. -/
def Obligations.FormatARecordStep : Prop :=
  ∀ s : State, s.Runs .dec .a → s.outLen.toNat < s.npix.toNat → s.inLen.toNat ≤ s.ibufSize →
    s.npix.toNat ≤ s.obufSize →
    ∃ t, engineStep s = .next t ∧
      if s.inLen.toNat ≤ s.inPos.toNat then
        t = { s with status := { busy := false, done := true, err := .truncatedStream } }
      else if s.mode.strict = true ∧
          ((s.ibufByte s.inPos.toNat).toNat % 128 = 0 ∨ 125 < (s.ibufByte s.inPos.toNat).toNat % 128) then
        t = { s with status := { busy := false, done := true, err := .malformedRecord } }
      else if s.npix.toNat < s.outLen.toNat + (s.ibufByte s.inPos.toNat).toNat % 128 then
        t = { s with status := { busy := false, done := true, err := .overrun } }
      else
        WritesRun s t (if 128 ≤ (s.ibufByte s.inPos.toNat).toNat then 255#8 else 0#8)
          ((s.ibufByte s.inPos.toNat).toNat % 128) 1

/-- R151: one Format B decode step of a job that fits its buffers. b k is the stream byte k places after IN_POS as a number;
the length, the record's size and the tier's minimum are those of the tier that the first length byte selects. -/
def Obligations.FormatBRecordStep : Prop :=
  ∀ (s : State) (b : Nat → Nat), s.Runs .dec .b → s.outLen.toNat < s.npix.toNat → s.inLen.toNat ≤ s.ibufSize →
    s.npix.toNat ≤ s.obufSize → (∀ k, b k = (s.ibufByte (s.inPos.toNat + k)).toNat) →
    ∃ t, engineStep s = .next t ∧
      if s.inLen.toNat < s.inPos.toNat + 1 then
        t = { s with status := { busy := false, done := true, err := .truncatedStream } }
      else if b 0 < 128 then
        WritesRun s t (BitVec.ofNat 8 (2 * b 0)) 1 1
      else if s.inLen.toNat < s.inPos.toNat + 2 then
        t = { s with status := { busy := false, done := true, err := .truncatedStream } }
      else if 0xF0 ≤ b 1 then
        t = { s with status := { busy := false, done := true, err := .malformedRecord } }
      else
        ∃ n size least,
          (if b 1 < 0x80 then n = b 1 ∧ size = 2 ∧ least = 2
           else if b 1 < 0xC0 then n = 256 * (b 1 - 0x80) + b 2 ∧ size = 3 ∧ least = 0x80
           else if b 1 < 0xE0 then n = 65536 * (b 1 - 0xC0) + 256 * b 2 + b 3 ∧ size = 4 ∧ least = 0x4000
           else n = 16777216 * (b 1 - 0xE0) + 65536 * b 2 + 256 * b 3 + b 4 ∧ size = 5 ∧ least = 0x200000) ∧
          if s.inLen.toNat < s.inPos.toNat + size then
            t = { s with status := { busy := false, done := true, err := .truncatedStream } }
          else if s.mode.strict = true ∧ n < least then
            t = { s with status := { busy := false, done := true, err := .malformedRecord } }
          else if s.npix.toNat < s.outLen.toNat + n then
            t = { s with status := { busy := false, done := true, err := .overrun } }
          else WritesRun s t (BitVec.ofNat 8 (2 * (b 0 - 128))) n size

/-- R169: one Format C decode step of a job that fits its buffers. b k is the stream byte k places after IN_POS as a
number. -/
def Obligations.FormatCRecordStep : Prop :=
  ∀ (s : State) (b : Nat → Nat), s.Runs .dec .c → s.outLen.toNat < s.npix.toNat → s.inLen.toNat ≤ s.ibufSize →
    s.npix.toNat ≤ s.obufSize → (∀ k, b k = (s.ibufByte (s.inPos.toNat + k)).toNat) →
    ∃ t, engineStep s = .next t ∧
      if s.inLen.toNat < s.inPos.toNat + 1 then
        t = { s with status := { busy := false, done := true, err := .truncatedStream } }
      else
        ∃ n size,
          (if b 0 / 16 = 0 ∨ b 0 / 16 = 15 then n = 256 * (b 0 % 16) + b 1 ∧ size = 2 else n = b 0 % 16 ∧ size = 1) ∧
          if s.inLen.toNat < s.inPos.toNat + size then
            t = { s with status := { busy := false, done := true, err := .truncatedStream } }
          else if s.mode.strict = true ∧ n = 0 then
            t = { s with status := { busy := false, done := true, err := .malformedRecord } }
          else if s.npix.toNat < s.outLen.toNat + n then
            t = { s with status := { busy := false, done := true, err := .overrun } }
          else WritesRun s t (BitVec.ofNat 8 (16 * (b 0 / 16))) n size

/-- R21, R24, R40, R41: an engine step changes nothing but STATUS, the positions, the accumulator and OBUF; the positions
never move back, and OBUF changes only between the old and the new OUT_LEN. -/
def Obligations.EngineStepFrame : Prop :=
  ∀ s t : State, s.Inv → engineStep s = .next t →
    t = { s with
      status := t.status, outLen := t.outLen, inPos := t.inPos, accVal := t.accVal, accLen := t.accLen
      obuf := t.obuf } ∧
    s.outLen.toNat ≤ t.outLen.toNat ∧ s.inPos.toNat ≤ t.inPos.toNat ∧
    ∀ a, a < s.outLen.toNat ∨ t.outLen.toNat ≤ a → t.obufByte a = s.obufByte a

/-- R41, R109: the engine never reads OBUF: with any other contents of OBUF a step does the same, and the bytes it adds are
the same. -/
def Obligations.EngineNeverReadsItsOutput : Prop :=
  ∀ (s t : State) (m : Memory), s.Inv → engineStep s = .next t →
    ∃ u, engineStep { s with obuf := m } = .next u ∧ u = { t with obuf := u.obuf } ∧
      ∀ a, s.outLen.toNat ≤ a → a < t.outLen.toNat → u.obufByte a = t.obufByte a

/-- R210: the codes a job can end with: what ends in the start step is no error or InvalidParameterError; what ends in an
engine step of ENC.A or ENC.C no error or OutputOverflowError, of ENC.B also UnsupportedRunLengthError, of a decode job no
error, TruncatedStreamError, OverrunError, or MalformedRecordError, this last for formats A and C only with STRICT = 1. -/
def Obligations.JobsEndWithTheirErrorCodes : Prop :=
  (∀ s t : State, s.status.busy = false → ∀ i ∈ [Instr.encA, .encB, .encC, .decA, .decB, .decC], exec i s = .next t →
    t.status.busy = false → t.status.err = .noError ∨ t.status.err = .invalidParameter) ∧
  (∀ s t : State, s.Inv → s.status.busy = true → engineStep s = .next t → t.status.busy = false →
    t.status.done = true ∧
    (s.jobDir = .enc →
      t.status.err = .noError ∨ t.status.err = .outputOverflow ∨
        (s.jobFmt = .b ∧ t.status.err = .unsupportedRunLength)) ∧
    (s.jobDir = .dec →
      t.status.err = .noError ∨ t.status.err = .truncatedStream ∨ t.status.err = .overrun ∨
        (t.status.err = .malformedRecord ∧ (s.jobFmt = .b ∨ s.mode.strict = true))))

/-! ### Whole jobs -/

/-- R107: a running job ends after finitely many steps: an encode job after at most one step for each pixel left and a final
one, and with no error only after exactly that many; a decode job after at most one step for each stream byte left and one
more.
That the engine steps first after the schedule is the model's choice (log entry 6). -/
def Obligations.EveryJobEnds : Prop :=
  ∀ s : State, s.Inv → s.schedule = [] → s.program = [] → s.status.busy = true →
    (s.jobDir = .enc →
      (∃ k t, k ≤ s.npix.toNat - s.inPos.toNat + 1 ∧ steps k s = .next t ∧ t.status.busy = false) ∧
      ∀ k t, k ≤ s.npix.toNat - s.inPos.toNat → steps k s = .next t → t.status.busy = false →
        t.status.err ≠ .noError) ∧
    (s.jobDir = .dec →
      ∃ k t, k ≤ s.inLen.toNat - s.inPos.toNat + 1 ∧ steps k s = .next t ∧ t.status.busy = false)

/-- R117: the round trip. When an encode job of a format has ended with no error, a decode job of the same format and size,
over a stream whose bytes are that job's output, ends with no error, has read the whole stream, and its raster is the
dequantized quantized raster, in both STRICT modes.
Both jobs run with the engine stepping first after the schedule, the model's choice (log entry 6). -/
def Obligations.DecodingAnEncodedRasterQuantizesIt : Prop :=
  ∀ (f : Format) (s u d : State) (k : Nat),
    s.Inv → s.Runs .enc f → s.schedule = [] → s.program = [] → s.inPos = 0#32 → s.outLen = 0#32 → s.accLen = 0#32 →
    steps k s = .next u → u.status = { busy := false, done := true, err := .noError } →
    d.Inv → d.Runs .dec f → d.schedule = [] → d.inPos = 0#32 → d.outLen = 0#32 → d.npix = s.npix → d.inLen = u.outLen →
    (∀ a, a < u.outLen.toNat → d.ibufByte a = u.obufByte a) →
    ∃ j w, j ≤ d.inLen.toNat + 1 ∧ steps j d = .next w ∧
      w.status = { busy := false, done := true, err := .noError } ∧ w.inPos = d.inLen ∧ w.outLen = s.npix ∧
      ∀ a, a < s.npix.toNat → w.obufByte a =
        match f with
        | .a => if s.aThresh.toNat ≤ (s.ibufByte a).toNat then 255#8 else 0#8
        | .b => BitVec.ofNat 8 (2 * ((s.ibufByte a).toNat / 2))
        | .c => BitVec.ofNat 8 (16 * ((s.ibufByte a).toNat / 16))

/-- R108: the result of a job stays until the next accepted command other than NOP, a host write to OBUF, or reset: every
other step of an idle block keeps STATUS, OUT_LEN, IN_POS and every byte of OBUF. -/
def Obligations.ResultsStayUntilTheNextCommand : Prop :=
  ∀ s : State, s.status.busy = false → (nextAgent s).1 ≠ .reset →
    (∀ a v rest, s.program ≠ .bufWrite .obuf a v :: rest) →
    (∀ v rest, s.program = .regWrite 0#4 v :: rest → v = 0#32) →
    ∃ t, step s = .next t ∧ t.status = s.status ∧ t.outLen = s.outLen ∧ t.inPos = s.inPos ∧
      ∀ a, t.obufByte a = s.obufByte a

/-- R55, R243: a host step during a job leaves the job as it is: it changes only the host's own program and replies, unless
it is a write to a buffer, the hazard.
The program, the replies and the free-value counter are the model's own fields (log entries 3, 7 and 11). -/
def Obligations.HostStepsLeaveARunningJobAlone : Prop :=
  ∀ s : State, s.status.busy = true → bufWriteNext s.program = false →
    ∃ t, hostStep s = .next t ∧
      t = { s with program := t.program, replies := t.replies, freeReads := t.freeReads }

/-! ### The step -/

/-- R243, R49: the schedule decides which agent steps and loses its entry; after the schedule the engine steps while BUSY = 1
and the host else, which is the model's choice of a fair scheduler (log entry 6). -/
def Obligations.TheScheduleDecidesWhoSteps : Prop :=
  ∀ s : State,
    (∀ rest, s.schedule = .host :: rest → step s = hostStep { s with schedule := rest }) ∧
    (∀ rest, s.schedule = .engine :: rest → step s = engineStep { s with schedule := rest }) ∧
    (∀ rest, s.schedule = .reset :: rest → step s = .next ({ s with schedule := rest }).resetEvent) ∧
    (s.schedule = [] → s.status.busy = true → step s = engineStep s) ∧
    (s.schedule = [] → s.status.busy = false → step s = hostStep s)

/-- A step runs the decoded command: when the host is about to write to CMD a word that decodes to an instruction, the
step is that instruction's meaning, with the operation taken off the program (R91).
That the host steps after the schedule while BUSY = 0 is the model's choice (log entry 6).
That the host's program is a list in State is the model's choice (log entry 7). -/
def Obligations.AStepRunsTheDecodedCommand : Prop :=
  ∀ (s : State) (v : Word) (i : Instr) (rest : List HostOp), s.schedule = [] → s.status.busy = false →
    s.program = .regWrite 0#4 v :: rest → decode (.command v) = .ok i →
    step s = exec i { s with program := rest }

/-- A step runs the decoded record: when a decode job that is not filled has at IN_POS, below IN_LEN, the encoding of a
well-formed record of its format, whatever bytes follow, the step is that record's meaning (R99, R61).
That the engine, and not the host, steps after the schedule while BUSY = 1 is the model's choice (log entry 6). -/
def Obligations.AStepRunsTheDecodedRecord : Prop :=
  ∀ (s : State) (f : Format) (i : Instr), s.schedule = [] → s.Runs .dec f → s.outLen.toNat < s.npix.toNat →
    s.inLen.toNat ≤ s.ibufSize → i.wellFormed = true → encode i = .record f (recordBytes i) →
    s.inPos.toNat + i.recordLength ≤ s.inLen.toNat →
    (∀ k, k < i.recordLength → s.ibufByte (s.inPos.toNat + k) = (recordBytes i).getD k 0#8) →
    step s = exec i s

/-! ### Reads and writes of a buffer by address -/

/-- R46, R47, R48: a host read gives the stored byte, and 0x00 beyond the buffer, BUSY or not; an idle write beyond the buffer
changes nothing. R239 lets a read inside OBUF while BUSY = 1 return any value; that it is the next free value is the model's
choice (log entry 3). -/
def Obligations.BufferReadsFollowTheMap : Prop :=
  ∀ (s : State) (a : Nat),
    (a < s.ibufSize → hostRead .ibuf a s = s.ibufByte a) ∧ (s.ibufSize ≤ a → hostRead .ibuf a s = 0x00#8) ∧
    (a < s.obufSize → s.status.busy = false → hostRead .obuf a s = s.obufByte a) ∧
    (a < s.obufSize → s.status.busy = true → hostRead .obuf a s = Config.busyByte s.freeReads) ∧
    (s.obufSize ≤ a → hostRead .obuf a s = 0x00#8) ∧
    (s.status.busy = false → ∀ v, (s.ibufSize ≤ a → hostWrite .ibuf a v s = .next s) ∧
      (s.obufSize ≤ a → hostWrite .obuf a v s = .next s))
end

