-- ==== Sys2Proof/Laws/State.lean ====
section
/-! SUPPORT. The field lemmas of State: for every named update of the machine one lemma per field, true by rfl, so that no
proof unfolds an update. -/

namespace Sys2Proof.Machine

/-! ### finish -/

@[simp] theorem State.finish_ibufSize (s : State) : (s.finish).ibufSize = s.ibufSize := rfl
@[simp] theorem State.finish_obufSize (s : State) : (s.finish).obufSize = s.obufSize := rfl
@[simp] theorem State.finish_status (s : State) : (s.finish).status = Status.finished := rfl
@[simp] theorem State.finish_width (s : State) : (s.finish).width = s.width := rfl
@[simp] theorem State.finish_height (s : State) : (s.finish).height = s.height := rfl
@[simp] theorem State.finish_aThresh (s : State) : (s.finish).aThresh = s.aThresh := rfl
@[simp] theorem State.finish_mode (s : State) : (s.finish).mode = s.mode := rfl
@[simp] theorem State.finish_inLen (s : State) : (s.finish).inLen = s.inLen := rfl
@[simp] theorem State.finish_outCap (s : State) : (s.finish).outCap = s.outCap := rfl
@[simp] theorem State.finish_outLen (s : State) : (s.finish).outLen = s.outLen := rfl
@[simp] theorem State.finish_inPos (s : State) : (s.finish).inPos = s.inPos := rfl
@[simp] theorem State.finish_jobDir (s : State) : (s.finish).jobDir = s.jobDir := rfl
@[simp] theorem State.finish_jobFmt (s : State) : (s.finish).jobFmt = s.jobFmt := rfl
@[simp] theorem State.finish_npix (s : State) : (s.finish).npix = s.npix := rfl
@[simp] theorem State.finish_accVal (s : State) : (s.finish).accVal = s.accVal := rfl
@[simp] theorem State.finish_accLen (s : State) : (s.finish).accLen = s.accLen := rfl
@[simp] theorem State.finish_ibuf (s : State) : (s.finish).ibuf = s.ibuf := rfl
@[simp] theorem State.finish_obuf (s : State) : (s.finish).obuf = s.obuf := rfl
@[simp] theorem State.finish_program (s : State) : (s.finish).program = s.program := rfl
@[simp] theorem State.finish_schedule (s : State) : (s.finish).schedule = s.schedule := rfl
@[simp] theorem State.finish_replies (s : State) : (s.finish).replies = s.replies := rfl
@[simp] theorem State.finish_resets (s : State) : (s.finish).resets = s.resets := rfl
@[simp] theorem State.finish_freeReads (s : State) : (s.finish).freeReads = s.freeReads := rfl

/-! ### raise -/

@[simp] theorem State.raise_ibufSize (e : ErrCode) (s : State) : (s.raise e).ibufSize = s.ibufSize := rfl
@[simp] theorem State.raise_obufSize (e : ErrCode) (s : State) : (s.raise e).obufSize = s.obufSize := rfl
@[simp] theorem State.raise_status (e : ErrCode) (s : State) : (s.raise e).status = Status.raised e := rfl
@[simp] theorem State.raise_width (e : ErrCode) (s : State) : (s.raise e).width = s.width := rfl
@[simp] theorem State.raise_height (e : ErrCode) (s : State) : (s.raise e).height = s.height := rfl
@[simp] theorem State.raise_aThresh (e : ErrCode) (s : State) : (s.raise e).aThresh = s.aThresh := rfl
@[simp] theorem State.raise_mode (e : ErrCode) (s : State) : (s.raise e).mode = s.mode := rfl
@[simp] theorem State.raise_inLen (e : ErrCode) (s : State) : (s.raise e).inLen = s.inLen := rfl
@[simp] theorem State.raise_outCap (e : ErrCode) (s : State) : (s.raise e).outCap = s.outCap := rfl
@[simp] theorem State.raise_outLen (e : ErrCode) (s : State) : (s.raise e).outLen = s.outLen := rfl
@[simp] theorem State.raise_inPos (e : ErrCode) (s : State) : (s.raise e).inPos = s.inPos := rfl
@[simp] theorem State.raise_jobDir (e : ErrCode) (s : State) : (s.raise e).jobDir = s.jobDir := rfl
@[simp] theorem State.raise_jobFmt (e : ErrCode) (s : State) : (s.raise e).jobFmt = s.jobFmt := rfl
@[simp] theorem State.raise_npix (e : ErrCode) (s : State) : (s.raise e).npix = s.npix := rfl
@[simp] theorem State.raise_accVal (e : ErrCode) (s : State) : (s.raise e).accVal = s.accVal := rfl
@[simp] theorem State.raise_accLen (e : ErrCode) (s : State) : (s.raise e).accLen = s.accLen := rfl
@[simp] theorem State.raise_ibuf (e : ErrCode) (s : State) : (s.raise e).ibuf = s.ibuf := rfl
@[simp] theorem State.raise_obuf (e : ErrCode) (s : State) : (s.raise e).obuf = s.obuf := rfl
@[simp] theorem State.raise_program (e : ErrCode) (s : State) : (s.raise e).program = s.program := rfl
@[simp] theorem State.raise_schedule (e : ErrCode) (s : State) : (s.raise e).schedule = s.schedule := rfl
@[simp] theorem State.raise_replies (e : ErrCode) (s : State) : (s.raise e).replies = s.replies := rfl
@[simp] theorem State.raise_resets (e : ErrCode) (s : State) : (s.raise e).resets = s.resets := rfl
@[simp] theorem State.raise_freeReads (e : ErrCode) (s : State) : (s.raise e).freeReads = s.freeReads := rfl

/-! ### accept -/

@[simp] theorem State.accept_ibufSize (s : State) : (s.accept).ibufSize = s.ibufSize := rfl
@[simp] theorem State.accept_obufSize (s : State) : (s.accept).obufSize = s.obufSize := rfl
@[simp] theorem State.accept_status (s : State) : (s.accept).status = s.status.accepted := rfl
@[simp] theorem State.accept_width (s : State) : (s.accept).width = s.width := rfl
@[simp] theorem State.accept_height (s : State) : (s.accept).height = s.height := rfl
@[simp] theorem State.accept_aThresh (s : State) : (s.accept).aThresh = s.aThresh := rfl
@[simp] theorem State.accept_mode (s : State) : (s.accept).mode = s.mode := rfl
@[simp] theorem State.accept_inLen (s : State) : (s.accept).inLen = s.inLen := rfl
@[simp] theorem State.accept_outCap (s : State) : (s.accept).outCap = s.outCap := rfl
@[simp] theorem State.accept_outLen (s : State) : (s.accept).outLen = 0#32 := rfl
@[simp] theorem State.accept_inPos (s : State) : (s.accept).inPos = 0#32 := rfl
@[simp] theorem State.accept_jobDir (s : State) : (s.accept).jobDir = s.jobDir := rfl
@[simp] theorem State.accept_jobFmt (s : State) : (s.accept).jobFmt = s.jobFmt := rfl
@[simp] theorem State.accept_npix (s : State) : (s.accept).npix = s.npix := rfl
@[simp] theorem State.accept_accVal (s : State) : (s.accept).accVal = s.accVal := rfl
@[simp] theorem State.accept_accLen (s : State) : (s.accept).accLen = s.accLen := rfl
@[simp] theorem State.accept_ibuf (s : State) : (s.accept).ibuf = s.ibuf := rfl
@[simp] theorem State.accept_obuf (s : State) : (s.accept).obuf = s.obuf := rfl
@[simp] theorem State.accept_program (s : State) : (s.accept).program = s.program := rfl
@[simp] theorem State.accept_schedule (s : State) : (s.accept).schedule = s.schedule := rfl
@[simp] theorem State.accept_replies (s : State) : (s.accept).replies = s.replies := rfl
@[simp] theorem State.accept_resets (s : State) : (s.accept).resets = s.resets := rfl
@[simp] theorem State.accept_freeReads (s : State) : (s.accept).freeReads = s.freeReads := rfl

/-! ### latchJob -/

@[simp] theorem State.latchJob_ibufSize (d : Dir) (f : Format) (s : State) : (s.latchJob d f).ibufSize = s.ibufSize := rfl
@[simp] theorem State.latchJob_obufSize (d : Dir) (f : Format) (s : State) : (s.latchJob d f).obufSize = s.obufSize := rfl
@[simp] theorem State.latchJob_status (d : Dir) (f : Format) (s : State) : (s.latchJob d f).status = s.status := rfl
@[simp] theorem State.latchJob_width (d : Dir) (f : Format) (s : State) : (s.latchJob d f).width = s.width := rfl
@[simp] theorem State.latchJob_height (d : Dir) (f : Format) (s : State) : (s.latchJob d f).height = s.height := rfl
@[simp] theorem State.latchJob_aThresh (d : Dir) (f : Format) (s : State) : (s.latchJob d f).aThresh = s.aThresh := rfl
@[simp] theorem State.latchJob_mode (d : Dir) (f : Format) (s : State) : (s.latchJob d f).mode = s.mode := rfl
@[simp] theorem State.latchJob_inLen (d : Dir) (f : Format) (s : State) : (s.latchJob d f).inLen = s.inLen := rfl
@[simp] theorem State.latchJob_outCap (d : Dir) (f : Format) (s : State) : (s.latchJob d f).outCap = s.outCap := rfl
@[simp] theorem State.latchJob_outLen (d : Dir) (f : Format) (s : State) : (s.latchJob d f).outLen = s.outLen := rfl
@[simp] theorem State.latchJob_inPos (d : Dir) (f : Format) (s : State) : (s.latchJob d f).inPos = s.inPos := rfl
@[simp] theorem State.latchJob_jobDir (d : Dir) (f : Format) (s : State) : (s.latchJob d f).jobDir = d := rfl
@[simp] theorem State.latchJob_jobFmt (d : Dir) (f : Format) (s : State) : (s.latchJob d f).jobFmt = f := rfl
@[simp] theorem State.latchJob_npix (d : Dir) (f : Format) (s : State) : (s.latchJob d f).npix = s.pixelCount := rfl
@[simp] theorem State.latchJob_accVal (d : Dir) (f : Format) (s : State) : (s.latchJob d f).accVal = 0#8 := rfl
@[simp] theorem State.latchJob_accLen (d : Dir) (f : Format) (s : State) : (s.latchJob d f).accLen = 0#32 := rfl
@[simp] theorem State.latchJob_ibuf (d : Dir) (f : Format) (s : State) : (s.latchJob d f).ibuf = s.ibuf := rfl
@[simp] theorem State.latchJob_obuf (d : Dir) (f : Format) (s : State) : (s.latchJob d f).obuf = s.obuf := rfl
@[simp] theorem State.latchJob_program (d : Dir) (f : Format) (s : State) : (s.latchJob d f).program = s.program := rfl
@[simp] theorem State.latchJob_schedule (d : Dir) (f : Format) (s : State) : (s.latchJob d f).schedule = s.schedule := rfl
@[simp] theorem State.latchJob_replies (d : Dir) (f : Format) (s : State) : (s.latchJob d f).replies = s.replies := rfl
@[simp] theorem State.latchJob_resets (d : Dir) (f : Format) (s : State) : (s.latchJob d f).resets = s.resets := rfl
@[simp] theorem State.latchJob_freeReads (d : Dir) (f : Format) (s : State) : (s.latchJob d f).freeReads = s.freeReads := rfl

/-! ### run -/

@[simp] theorem State.run_ibufSize (s : State) : (s.run).ibufSize = s.ibufSize := rfl
@[simp] theorem State.run_obufSize (s : State) : (s.run).obufSize = s.obufSize := rfl
@[simp] theorem State.run_status (s : State) : (s.run).status = s.status.running := rfl
@[simp] theorem State.run_width (s : State) : (s.run).width = s.width := rfl
@[simp] theorem State.run_height (s : State) : (s.run).height = s.height := rfl
@[simp] theorem State.run_aThresh (s : State) : (s.run).aThresh = s.aThresh := rfl
@[simp] theorem State.run_mode (s : State) : (s.run).mode = s.mode := rfl
@[simp] theorem State.run_inLen (s : State) : (s.run).inLen = s.inLen := rfl
@[simp] theorem State.run_outCap (s : State) : (s.run).outCap = s.outCap := rfl
@[simp] theorem State.run_outLen (s : State) : (s.run).outLen = s.outLen := rfl
@[simp] theorem State.run_inPos (s : State) : (s.run).inPos = s.inPos := rfl
@[simp] theorem State.run_jobDir (s : State) : (s.run).jobDir = s.jobDir := rfl
@[simp] theorem State.run_jobFmt (s : State) : (s.run).jobFmt = s.jobFmt := rfl
@[simp] theorem State.run_npix (s : State) : (s.run).npix = s.npix := rfl
@[simp] theorem State.run_accVal (s : State) : (s.run).accVal = s.accVal := rfl
@[simp] theorem State.run_accLen (s : State) : (s.run).accLen = s.accLen := rfl
@[simp] theorem State.run_ibuf (s : State) : (s.run).ibuf = s.ibuf := rfl
@[simp] theorem State.run_obuf (s : State) : (s.run).obuf = s.obuf := rfl
@[simp] theorem State.run_program (s : State) : (s.run).program = s.program := rfl
@[simp] theorem State.run_schedule (s : State) : (s.run).schedule = s.schedule := rfl
@[simp] theorem State.run_replies (s : State) : (s.run).replies = s.replies := rfl
@[simp] theorem State.run_resets (s : State) : (s.run).resets = s.resets := rfl
@[simp] theorem State.run_freeReads (s : State) : (s.run).freeReads = s.freeReads := rfl

/-! ### appendByte -/

@[simp] theorem State.appendByte_ibufSize (b : Byte) (s : State) : (s.appendByte b).ibufSize = s.ibufSize := rfl
@[simp] theorem State.appendByte_obufSize (b : Byte) (s : State) : (s.appendByte b).obufSize = s.obufSize := rfl
@[simp] theorem State.appendByte_status (b : Byte) (s : State) : (s.appendByte b).status = s.status := rfl
@[simp] theorem State.appendByte_width (b : Byte) (s : State) : (s.appendByte b).width = s.width := rfl
@[simp] theorem State.appendByte_height (b : Byte) (s : State) : (s.appendByte b).height = s.height := rfl
@[simp] theorem State.appendByte_aThresh (b : Byte) (s : State) : (s.appendByte b).aThresh = s.aThresh := rfl
@[simp] theorem State.appendByte_mode (b : Byte) (s : State) : (s.appendByte b).mode = s.mode := rfl
@[simp] theorem State.appendByte_inLen (b : Byte) (s : State) : (s.appendByte b).inLen = s.inLen := rfl
@[simp] theorem State.appendByte_outCap (b : Byte) (s : State) : (s.appendByte b).outCap = s.outCap := rfl
@[simp] theorem State.appendByte_outLen (b : Byte) (s : State) : (s.appendByte b).outLen = s.outLen + 1#32 := rfl
@[simp] theorem State.appendByte_inPos (b : Byte) (s : State) : (s.appendByte b).inPos = s.inPos := rfl
@[simp] theorem State.appendByte_jobDir (b : Byte) (s : State) : (s.appendByte b).jobDir = s.jobDir := rfl
@[simp] theorem State.appendByte_jobFmt (b : Byte) (s : State) : (s.appendByte b).jobFmt = s.jobFmt := rfl
@[simp] theorem State.appendByte_npix (b : Byte) (s : State) : (s.appendByte b).npix = s.npix := rfl
@[simp] theorem State.appendByte_accVal (b : Byte) (s : State) : (s.appendByte b).accVal = s.accVal := rfl
@[simp] theorem State.appendByte_accLen (b : Byte) (s : State) : (s.appendByte b).accLen = s.accLen := rfl
@[simp] theorem State.appendByte_ibuf (b : Byte) (s : State) : (s.appendByte b).ibuf = s.ibuf := rfl
@[simp] theorem State.appendByte_obuf (b : Byte) (s : State) : (s.appendByte b).obuf = writeCell s.obuf s.outLen.toNat b := rfl
@[simp] theorem State.appendByte_program (b : Byte) (s : State) : (s.appendByte b).program = s.program := rfl
@[simp] theorem State.appendByte_schedule (b : Byte) (s : State) : (s.appendByte b).schedule = s.schedule := rfl
@[simp] theorem State.appendByte_replies (b : Byte) (s : State) : (s.appendByte b).replies = s.replies := rfl
@[simp] theorem State.appendByte_resets (b : Byte) (s : State) : (s.appendByte b).resets = s.resets := rfl
@[simp] theorem State.appendByte_freeReads (b : Byte) (s : State) : (s.appendByte b).freeReads = s.freeReads := rfl

/-! ### appendPixels -/

@[simp] theorem State.appendPixels_ibufSize (v : Byte) (n : Nat) (s : State) : (s.appendPixels v n).ibufSize = s.ibufSize := rfl
@[simp] theorem State.appendPixels_obufSize (v : Byte) (n : Nat) (s : State) : (s.appendPixels v n).obufSize = s.obufSize := rfl
@[simp] theorem State.appendPixels_status (v : Byte) (n : Nat) (s : State) : (s.appendPixels v n).status = s.status := rfl
@[simp] theorem State.appendPixels_width (v : Byte) (n : Nat) (s : State) : (s.appendPixels v n).width = s.width := rfl
@[simp] theorem State.appendPixels_height (v : Byte) (n : Nat) (s : State) : (s.appendPixels v n).height = s.height := rfl
@[simp] theorem State.appendPixels_aThresh (v : Byte) (n : Nat) (s : State) : (s.appendPixels v n).aThresh = s.aThresh := rfl
@[simp] theorem State.appendPixels_mode (v : Byte) (n : Nat) (s : State) : (s.appendPixels v n).mode = s.mode := rfl
@[simp] theorem State.appendPixels_inLen (v : Byte) (n : Nat) (s : State) : (s.appendPixels v n).inLen = s.inLen := rfl
@[simp] theorem State.appendPixels_outCap (v : Byte) (n : Nat) (s : State) : (s.appendPixels v n).outCap = s.outCap := rfl
@[simp] theorem State.appendPixels_outLen (v : Byte) (n : Nat) (s : State) : (s.appendPixels v n).outLen = BitVec.ofNat 32 (s.outLen.toNat + n) := rfl
@[simp] theorem State.appendPixels_inPos (v : Byte) (n : Nat) (s : State) : (s.appendPixels v n).inPos = s.inPos := rfl
@[simp] theorem State.appendPixels_jobDir (v : Byte) (n : Nat) (s : State) : (s.appendPixels v n).jobDir = s.jobDir := rfl
@[simp] theorem State.appendPixels_jobFmt (v : Byte) (n : Nat) (s : State) : (s.appendPixels v n).jobFmt = s.jobFmt := rfl
@[simp] theorem State.appendPixels_npix (v : Byte) (n : Nat) (s : State) : (s.appendPixels v n).npix = s.npix := rfl
@[simp] theorem State.appendPixels_accVal (v : Byte) (n : Nat) (s : State) : (s.appendPixels v n).accVal = s.accVal := rfl
@[simp] theorem State.appendPixels_accLen (v : Byte) (n : Nat) (s : State) : (s.appendPixels v n).accLen = s.accLen := rfl
@[simp] theorem State.appendPixels_ibuf (v : Byte) (n : Nat) (s : State) : (s.appendPixels v n).ibuf = s.ibuf := rfl
@[simp] theorem State.appendPixels_obuf (v : Byte) (n : Nat) (s : State) : (s.appendPixels v n).obuf = fillCells s.obuf s.outLen.toNat v n := rfl
@[simp] theorem State.appendPixels_program (v : Byte) (n : Nat) (s : State) : (s.appendPixels v n).program = s.program := rfl
@[simp] theorem State.appendPixels_schedule (v : Byte) (n : Nat) (s : State) : (s.appendPixels v n).schedule = s.schedule := rfl
@[simp] theorem State.appendPixels_replies (v : Byte) (n : Nat) (s : State) : (s.appendPixels v n).replies = s.replies := rfl
@[simp] theorem State.appendPixels_resets (v : Byte) (n : Nat) (s : State) : (s.appendPixels v n).resets = s.resets := rfl
@[simp] theorem State.appendPixels_freeReads (v : Byte) (n : Nat) (s : State) : (s.appendPixels v n).freeReads = s.freeReads := rfl

/-! ### advance -/

@[simp] theorem State.advance_ibufSize (n : Nat) (s : State) : (s.advance n).ibufSize = s.ibufSize := rfl
@[simp] theorem State.advance_obufSize (n : Nat) (s : State) : (s.advance n).obufSize = s.obufSize := rfl
@[simp] theorem State.advance_status (n : Nat) (s : State) : (s.advance n).status = s.status := rfl
@[simp] theorem State.advance_width (n : Nat) (s : State) : (s.advance n).width = s.width := rfl
@[simp] theorem State.advance_height (n : Nat) (s : State) : (s.advance n).height = s.height := rfl
@[simp] theorem State.advance_aThresh (n : Nat) (s : State) : (s.advance n).aThresh = s.aThresh := rfl
@[simp] theorem State.advance_mode (n : Nat) (s : State) : (s.advance n).mode = s.mode := rfl
@[simp] theorem State.advance_inLen (n : Nat) (s : State) : (s.advance n).inLen = s.inLen := rfl
@[simp] theorem State.advance_outCap (n : Nat) (s : State) : (s.advance n).outCap = s.outCap := rfl
@[simp] theorem State.advance_outLen (n : Nat) (s : State) : (s.advance n).outLen = s.outLen := rfl
@[simp] theorem State.advance_inPos (n : Nat) (s : State) : (s.advance n).inPos = BitVec.ofNat 32 (s.inPos.toNat + n) := rfl
@[simp] theorem State.advance_jobDir (n : Nat) (s : State) : (s.advance n).jobDir = s.jobDir := rfl
@[simp] theorem State.advance_jobFmt (n : Nat) (s : State) : (s.advance n).jobFmt = s.jobFmt := rfl
@[simp] theorem State.advance_npix (n : Nat) (s : State) : (s.advance n).npix = s.npix := rfl
@[simp] theorem State.advance_accVal (n : Nat) (s : State) : (s.advance n).accVal = s.accVal := rfl
@[simp] theorem State.advance_accLen (n : Nat) (s : State) : (s.advance n).accLen = s.accLen := rfl
@[simp] theorem State.advance_ibuf (n : Nat) (s : State) : (s.advance n).ibuf = s.ibuf := rfl
@[simp] theorem State.advance_obuf (n : Nat) (s : State) : (s.advance n).obuf = s.obuf := rfl
@[simp] theorem State.advance_program (n : Nat) (s : State) : (s.advance n).program = s.program := rfl
@[simp] theorem State.advance_schedule (n : Nat) (s : State) : (s.advance n).schedule = s.schedule := rfl
@[simp] theorem State.advance_replies (n : Nat) (s : State) : (s.advance n).replies = s.replies := rfl
@[simp] theorem State.advance_resets (n : Nat) (s : State) : (s.advance n).resets = s.resets := rfl
@[simp] theorem State.advance_freeReads (n : Nat) (s : State) : (s.advance n).freeReads = s.freeReads := rfl

/-! ### setAcc -/

@[simp] theorem State.setAcc_ibufSize (v : Byte) (n : Word) (s : State) : (s.setAcc v n).ibufSize = s.ibufSize := rfl
@[simp] theorem State.setAcc_obufSize (v : Byte) (n : Word) (s : State) : (s.setAcc v n).obufSize = s.obufSize := rfl
@[simp] theorem State.setAcc_status (v : Byte) (n : Word) (s : State) : (s.setAcc v n).status = s.status := rfl
@[simp] theorem State.setAcc_width (v : Byte) (n : Word) (s : State) : (s.setAcc v n).width = s.width := rfl
@[simp] theorem State.setAcc_height (v : Byte) (n : Word) (s : State) : (s.setAcc v n).height = s.height := rfl
@[simp] theorem State.setAcc_aThresh (v : Byte) (n : Word) (s : State) : (s.setAcc v n).aThresh = s.aThresh := rfl
@[simp] theorem State.setAcc_mode (v : Byte) (n : Word) (s : State) : (s.setAcc v n).mode = s.mode := rfl
@[simp] theorem State.setAcc_inLen (v : Byte) (n : Word) (s : State) : (s.setAcc v n).inLen = s.inLen := rfl
@[simp] theorem State.setAcc_outCap (v : Byte) (n : Word) (s : State) : (s.setAcc v n).outCap = s.outCap := rfl
@[simp] theorem State.setAcc_outLen (v : Byte) (n : Word) (s : State) : (s.setAcc v n).outLen = s.outLen := rfl
@[simp] theorem State.setAcc_inPos (v : Byte) (n : Word) (s : State) : (s.setAcc v n).inPos = s.inPos := rfl
@[simp] theorem State.setAcc_jobDir (v : Byte) (n : Word) (s : State) : (s.setAcc v n).jobDir = s.jobDir := rfl
@[simp] theorem State.setAcc_jobFmt (v : Byte) (n : Word) (s : State) : (s.setAcc v n).jobFmt = s.jobFmt := rfl
@[simp] theorem State.setAcc_npix (v : Byte) (n : Word) (s : State) : (s.setAcc v n).npix = s.npix := rfl
@[simp] theorem State.setAcc_accVal (v : Byte) (n : Word) (s : State) : (s.setAcc v n).accVal = v := rfl
@[simp] theorem State.setAcc_accLen (v : Byte) (n : Word) (s : State) : (s.setAcc v n).accLen = n := rfl
@[simp] theorem State.setAcc_ibuf (v : Byte) (n : Word) (s : State) : (s.setAcc v n).ibuf = s.ibuf := rfl
@[simp] theorem State.setAcc_obuf (v : Byte) (n : Word) (s : State) : (s.setAcc v n).obuf = s.obuf := rfl
@[simp] theorem State.setAcc_program (v : Byte) (n : Word) (s : State) : (s.setAcc v n).program = s.program := rfl
@[simp] theorem State.setAcc_schedule (v : Byte) (n : Word) (s : State) : (s.setAcc v n).schedule = s.schedule := rfl
@[simp] theorem State.setAcc_replies (v : Byte) (n : Word) (s : State) : (s.setAcc v n).replies = s.replies := rfl
@[simp] theorem State.setAcc_resets (v : Byte) (n : Word) (s : State) : (s.setAcc v n).resets = s.resets := rfl
@[simp] theorem State.setAcc_freeReads (v : Byte) (n : Word) (s : State) : (s.setAcc v n).freeReads = s.freeReads := rfl

/-! ### answer -/

@[simp] theorem State.answer_ibufSize (r : Reply) (o : Bool) (s : State) : (s.answer r o).ibufSize = s.ibufSize := rfl
@[simp] theorem State.answer_obufSize (r : Reply) (o : Bool) (s : State) : (s.answer r o).obufSize = s.obufSize := rfl
@[simp] theorem State.answer_status (r : Reply) (o : Bool) (s : State) : (s.answer r o).status = s.status := rfl
@[simp] theorem State.answer_width (r : Reply) (o : Bool) (s : State) : (s.answer r o).width = s.width := rfl
@[simp] theorem State.answer_height (r : Reply) (o : Bool) (s : State) : (s.answer r o).height = s.height := rfl
@[simp] theorem State.answer_aThresh (r : Reply) (o : Bool) (s : State) : (s.answer r o).aThresh = s.aThresh := rfl
@[simp] theorem State.answer_mode (r : Reply) (o : Bool) (s : State) : (s.answer r o).mode = s.mode := rfl
@[simp] theorem State.answer_inLen (r : Reply) (o : Bool) (s : State) : (s.answer r o).inLen = s.inLen := rfl
@[simp] theorem State.answer_outCap (r : Reply) (o : Bool) (s : State) : (s.answer r o).outCap = s.outCap := rfl
@[simp] theorem State.answer_outLen (r : Reply) (o : Bool) (s : State) : (s.answer r o).outLen = s.outLen := rfl
@[simp] theorem State.answer_inPos (r : Reply) (o : Bool) (s : State) : (s.answer r o).inPos = s.inPos := rfl
@[simp] theorem State.answer_jobDir (r : Reply) (o : Bool) (s : State) : (s.answer r o).jobDir = s.jobDir := rfl
@[simp] theorem State.answer_jobFmt (r : Reply) (o : Bool) (s : State) : (s.answer r o).jobFmt = s.jobFmt := rfl
@[simp] theorem State.answer_npix (r : Reply) (o : Bool) (s : State) : (s.answer r o).npix = s.npix := rfl
@[simp] theorem State.answer_accVal (r : Reply) (o : Bool) (s : State) : (s.answer r o).accVal = s.accVal := rfl
@[simp] theorem State.answer_accLen (r : Reply) (o : Bool) (s : State) : (s.answer r o).accLen = s.accLen := rfl
@[simp] theorem State.answer_ibuf (r : Reply) (o : Bool) (s : State) : (s.answer r o).ibuf = s.ibuf := rfl
@[simp] theorem State.answer_obuf (r : Reply) (o : Bool) (s : State) : (s.answer r o).obuf = s.obuf := rfl
@[simp] theorem State.answer_program (r : Reply) (o : Bool) (s : State) : (s.answer r o).program = s.program := rfl
@[simp] theorem State.answer_schedule (r : Reply) (o : Bool) (s : State) : (s.answer r o).schedule = s.schedule := rfl
@[simp] theorem State.answer_replies (r : Reply) (o : Bool) (s : State) : (s.answer r o).replies = r :: s.replies := rfl
@[simp] theorem State.answer_resets (r : Reply) (o : Bool) (s : State) : (s.answer r o).resets = s.resets := rfl
@[simp] theorem State.answer_freeReads (r : Reply) (o : Bool) (s : State) : (s.answer r o).freeReads = if o then s.freeReads + 1 else s.freeReads := rfl

/-! ### resetEvent -/

@[simp] theorem State.resetEvent_ibufSize (s : State) : (s.resetEvent).ibufSize = s.ibufSize := rfl
@[simp] theorem State.resetEvent_obufSize (s : State) : (s.resetEvent).obufSize = s.obufSize := rfl
@[simp] theorem State.resetEvent_status (s : State) : (s.resetEvent).status = State.reset.status := rfl
@[simp] theorem State.resetEvent_width (s : State) : (s.resetEvent).width = State.reset.width := rfl
@[simp] theorem State.resetEvent_height (s : State) : (s.resetEvent).height = State.reset.height := rfl
@[simp] theorem State.resetEvent_aThresh (s : State) : (s.resetEvent).aThresh = State.reset.aThresh := rfl
@[simp] theorem State.resetEvent_mode (s : State) : (s.resetEvent).mode = State.reset.mode := rfl
@[simp] theorem State.resetEvent_inLen (s : State) : (s.resetEvent).inLen = State.reset.inLen := rfl
@[simp] theorem State.resetEvent_outCap (s : State) : (s.resetEvent).outCap = BitVec.ofNat 32 s.obufSize := rfl
@[simp] theorem State.resetEvent_outLen (s : State) : (s.resetEvent).outLen = State.reset.outLen := rfl
@[simp] theorem State.resetEvent_inPos (s : State) : (s.resetEvent).inPos = State.reset.inPos := rfl
@[simp] theorem State.resetEvent_jobDir (s : State) : (s.resetEvent).jobDir = State.reset.jobDir := rfl
@[simp] theorem State.resetEvent_jobFmt (s : State) : (s.resetEvent).jobFmt = State.reset.jobFmt := rfl
@[simp] theorem State.resetEvent_npix (s : State) : (s.resetEvent).npix = State.reset.npix := rfl
@[simp] theorem State.resetEvent_accVal (s : State) : (s.resetEvent).accVal = State.reset.accVal := rfl
@[simp] theorem State.resetEvent_accLen (s : State) : (s.resetEvent).accLen = State.reset.accLen := rfl
@[simp] theorem State.resetEvent_ibuf (s : State) : (s.resetEvent).ibuf = State.reset.ibuf := rfl
@[simp] theorem State.resetEvent_obuf (s : State) : (s.resetEvent).obuf = State.reset.obuf := rfl
@[simp] theorem State.resetEvent_program (s : State) : (s.resetEvent).program = s.program := rfl
@[simp] theorem State.resetEvent_schedule (s : State) : (s.resetEvent).schedule = s.schedule := rfl
@[simp] theorem State.resetEvent_replies (s : State) : (s.resetEvent).replies = s.replies := rfl
@[simp] theorem State.resetEvent_resets (s : State) : (s.resetEvent).resets = s.resets + 1 := rfl
@[simp] theorem State.resetEvent_freeReads (s : State) : (s.resetEvent).freeReads = s.freeReads := rfl

/-! ### withCommand -/

@[simp] theorem State.withCommand_ibufSize (v : Word) (s : State) : (s.withCommand v).ibufSize = s.ibufSize := rfl
@[simp] theorem State.withCommand_obufSize (v : Word) (s : State) : (s.withCommand v).obufSize = s.obufSize := rfl
@[simp] theorem State.withCommand_status (v : Word) (s : State) : (s.withCommand v).status = (Status.mk false s.status.done s.status.err) := rfl
@[simp] theorem State.withCommand_width (v : Word) (s : State) : (s.withCommand v).width = s.width := rfl
@[simp] theorem State.withCommand_height (v : Word) (s : State) : (s.withCommand v).height = s.height := rfl
@[simp] theorem State.withCommand_aThresh (v : Word) (s : State) : (s.withCommand v).aThresh = s.aThresh := rfl
@[simp] theorem State.withCommand_mode (v : Word) (s : State) : (s.withCommand v).mode = s.mode := rfl
@[simp] theorem State.withCommand_inLen (v : Word) (s : State) : (s.withCommand v).inLen = s.inLen := rfl
@[simp] theorem State.withCommand_outCap (v : Word) (s : State) : (s.withCommand v).outCap = s.outCap := rfl
@[simp] theorem State.withCommand_outLen (v : Word) (s : State) : (s.withCommand v).outLen = s.outLen := rfl
@[simp] theorem State.withCommand_inPos (v : Word) (s : State) : (s.withCommand v).inPos = s.inPos := rfl
@[simp] theorem State.withCommand_jobDir (v : Word) (s : State) : (s.withCommand v).jobDir = s.jobDir := rfl
@[simp] theorem State.withCommand_jobFmt (v : Word) (s : State) : (s.withCommand v).jobFmt = s.jobFmt := rfl
@[simp] theorem State.withCommand_npix (v : Word) (s : State) : (s.withCommand v).npix = s.npix := rfl
@[simp] theorem State.withCommand_accVal (v : Word) (s : State) : (s.withCommand v).accVal = s.accVal := rfl
@[simp] theorem State.withCommand_accLen (v : Word) (s : State) : (s.withCommand v).accLen = s.accLen := rfl
@[simp] theorem State.withCommand_ibuf (v : Word) (s : State) : (s.withCommand v).ibuf = s.ibuf := rfl
@[simp] theorem State.withCommand_obuf (v : Word) (s : State) : (s.withCommand v).obuf = s.obuf := rfl
@[simp] theorem State.withCommand_program (v : Word) (s : State) : (s.withCommand v).program = .regWrite 0#4 v :: s.program := rfl
@[simp] theorem State.withCommand_schedule (v : Word) (s : State) : (s.withCommand v).schedule = [] := rfl
@[simp] theorem State.withCommand_replies (v : Word) (s : State) : (s.withCommand v).replies = s.replies := rfl
@[simp] theorem State.withCommand_resets (v : Word) (s : State) : (s.withCommand v).resets = s.resets := rfl
@[simp] theorem State.withCommand_freeReads (v : Word) (s : State) : (s.withCommand v).freeReads = s.freeReads := rfl

/-! ### The flags -/

@[simp] theorem Status.finished_busy : Status.finished.busy = false := rfl
@[simp] theorem Status.finished_done : Status.finished.done = true := rfl
@[simp] theorem Status.finished_err : Status.finished.err = .noError := rfl
@[simp] theorem Status.raised_busy (e : ErrCode) : (Status.raised e).busy = false := rfl
@[simp] theorem Status.raised_done (e : ErrCode) : (Status.raised e).done = true := rfl
@[simp] theorem Status.raised_err (e : ErrCode) : (Status.raised e).err = e := rfl
@[simp] theorem Status.accepted_busy (t : Status) : t.accepted.busy = t.busy := rfl
@[simp] theorem Status.accepted_done (t : Status) : t.accepted.done = false := rfl
@[simp] theorem Status.accepted_err (t : Status) : t.accepted.err = .noError := rfl
@[simp] theorem Status.running_busy (t : Status) : t.running.busy = true := rfl
@[simp] theorem Status.running_done (t : Status) : t.running.done = t.done := rfl
@[simp] theorem Status.running_err (t : Status) : t.running.err = t.err := rfl

end Sys2Proof.Machine
end

