-- ==== Sys2Proof/Laws/Memory.lean ====
section
/-! SUPPORT. What a buffer reads after a write, and that every write keeps the canonical form. -/

namespace Sys2Proof.Machine

/-! ### Reading after writing -/

theorem readCell_writeCell (m : Memory) (a : Nat) (b : Byte) (x : Nat) :
    readCell (writeCell m a b) x = if x = a then some b else readCell m x := by
  induction m with
  | nil => simp only [writeCell, readCell]
  | cons c m ih =>
    obtain ⟨k, v⟩ := c
    simp only [writeCell]
    by_cases h1 : a < k
    · simp only [h1, if_true, readCell]
    · by_cases h2 : a = k
      · subst h2
        simp only [lt_irrefl, if_false, if_true, readCell]
        split_ifs <;> rfl
      · simp only [h1, h2, if_false, readCell, ih]
        split_ifs with h3 h4 <;> first | rfl | omega

@[simp] theorem readCell_writeCell_self (m : Memory) (a : Nat) (b : Byte) :
    readCell (writeCell m a b) a = some b := by
  rw [readCell_writeCell, if_pos rfl]

theorem readCell_fillCells (n : Nat) (m : Memory) (a : Nat) (b : Byte) (x : Nat) :
    readCell (fillCells m a b n) x = if a ≤ x ∧ x < a + n then some b else readCell m x := by
  induction n generalizing m a with
  | zero =>
    rw [fillCells, if_neg (by omega)]
  | succ n ih =>
    rw [fillCells, ih, readCell_writeCell]
    split_ifs <;> first | rfl | omega

theorem readCell_writeCells (bs : List Byte) (m : Memory) (a x : Nat) :
    readCell (writeCells m a bs) x = if a ≤ x ∧ x < a + bs.length then bs[x - a]? else readCell m x := by
  induction bs generalizing m a with
  | nil => rw [writeCells, if_neg (by simp only [List.length_nil]; omega)]
  | cons b bs ih =>
    rw [writeCells, ih, readCell_writeCell]
    simp only [List.length_cons]
    by_cases h : x = a
    · subst h
      rw [if_neg (by omega), if_pos rfl, if_pos (by omega), Nat.sub_self]
      rfl
    · by_cases h2 : a + 1 ≤ x ∧ x < a + 1 + bs.length
      · rw [if_pos h2, if_pos (by omega), show x - a = (x - (a + 1)) + 1 by omega, List.getElem?_cons_succ]
      · rw [if_neg h2, if_neg h, if_neg (by omega)]

/-! ### The canonical form -/

theorem risingFrom_mono {lo lo' : Nat} {m : Memory} (h : lo' ≤ lo) (hm : risingFrom lo m = true) :
    risingFrom lo' m = true := by
  cases m with
  | nil => rfl
  | cons c m =>
    simp only [risingFrom, Bool.and_eq_true, decide_eq_true_eq] at hm ⊢
    exact ⟨le_trans h hm.1, hm.2⟩

theorem risingFrom_writeCell {m : Memory} {lo a : Nat} (b : Byte) (hlo : lo ≤ a) (hm : risingFrom lo m = true) :
    risingFrom lo (writeCell m a b) = true := by
  induction m generalizing lo with
  | nil => simp only [writeCell, risingFrom, Bool.and_true, decide_eq_true_eq]; exact hlo
  | cons c m ih =>
    obtain ⟨k, v⟩ := c
    simp only [risingFrom, Bool.and_eq_true, decide_eq_true_eq] at hm
    simp only [writeCell]
    by_cases h1 : a < k
    · simp only [h1, if_true, risingFrom, Bool.and_eq_true, decide_eq_true_eq]
      exact ⟨hlo, by omega, hm.2⟩
    · by_cases h2 : a = k
      · simp only [h2, lt_irrefl, if_false, if_true, risingFrom, Bool.and_eq_true, decide_eq_true_eq]
        exact hm
      · simp only [h1, h2, if_false, risingFrom, Bool.and_eq_true, decide_eq_true_eq]
        exact ⟨hm.1, ih (by omega) hm.2⟩

theorem all_writeCell {m : Memory} {size a : Nat} (b : Byte) (ha : a < size)
    (hm : (m.all fun c => decide (c.1 < size)) = true) :
    ((writeCell m a b).all fun c => decide (c.1 < size)) = true := by
  induction m with
  | nil => simpa only [writeCell, List.all_cons, List.all_nil, Bool.and_true, decide_eq_true_eq] using ha
  | cons c m ih =>
    obtain ⟨k, v⟩ := c
    simp only [List.all_cons, Bool.and_eq_true, decide_eq_true_eq] at hm
    simp only [writeCell]
    split_ifs
    · simp only [List.all_cons, Bool.and_eq_true, decide_eq_true_eq]
      exact ⟨ha, hm⟩
    · simp only [List.all_cons, Bool.and_eq_true, decide_eq_true_eq]
      exact hm
    · simp only [List.all_cons, Bool.and_eq_true, decide_eq_true_eq]
      exact ⟨hm.1, ih hm.2⟩

@[simp] theorem Memory.wf_nil (size : Nat) : Memory.wf size [] = true := rfl

/-- A write inside the buffer keeps the canonical form. -/
theorem Memory.wf_writeCell {m : Memory} {size a : Nat} (b : Byte) (ha : a < size) (hm : Memory.wf size m = true) :
    Memory.wf size (writeCell m a b) = true := by
  simp only [Memory.wf, Bool.and_eq_true] at hm ⊢
  exact ⟨risingFrom_writeCell b (Nat.zero_le a) hm.1, all_writeCell b ha hm.2⟩

/-- put_pixels inside the buffer keeps the canonical form. -/
theorem Memory.wf_fillCells {size : Nat} (b : Byte) (n : Nat) {m : Memory} {a : Nat} (ha : n = 0 ∨ a + n ≤ size)
    (hm : Memory.wf size m = true) : Memory.wf size (fillCells m a b n) = true := by
  induction n generalizing m a with
  | zero => exact hm
  | succ n ih => exact ih (by omega) (Memory.wf_writeCell b (by omega) hm)

/-- Several bytes inside the buffer keep the canonical form. -/
theorem Memory.wf_writeCells {size : Nat} (bs : List Byte) {m : Memory} {a : Nat}
    (ha : bs = [] ∨ a + bs.length ≤ size) (hm : Memory.wf size m = true) :
    Memory.wf size (writeCells m a bs) = true := by
  induction bs generalizing m a with
  | nil => exact hm
  | cons b bs ih =>
    have h : a + (bs.length + 1) ≤ size := by
      rcases ha with h | h
      · exact absurd h (List.cons_ne_nil b bs)
      · exact h
    exact ih (by by_cases hb : bs = []
                 · exact .inl hb
                 · exact .inr (by omega)) (Memory.wf_writeCell b (by omega) hm)

/-- The reset memory has the canonical form. -/
theorem State.reset_buffersOk : State.reset.BuffersOk := ⟨rfl, rfl⟩

/-- The reset event leaves buffers in the canonical form. -/
theorem State.resetEvent_buffersOk (s : State) : s.resetEvent.BuffersOk := ⟨rfl, rfl⟩

/-- A host store keeps both buffers in the canonical form. -/
theorem State.storeByte_buffersOk (b : Buf) (a : Nat) (v : Byte) {s : State} (h : s.BuffersOk) :
    (s.storeByte b a v).BuffersOk := by
  cases b <;> simp only [State.storeByte] <;> split_ifs with ha
  · exact ⟨Memory.wf_writeCell v ha h.1, h.2⟩
  · exact h
  · exact ⟨h.1, Memory.wf_writeCell v ha h.2⟩
  · exact h

/-! ### Bytes of a state -/

theorem State.obufByte_appendByte (b : Byte) (s : State) (x : Nat) :
    (s.appendByte b).obufByte x = if x = s.outLen.toNat then b else s.obufByte x := by
  simp only [State.obufByte, State.appendByte_obuf, State.appendByte_resets, readCell_writeCell]
  split_ifs <;> rfl

theorem State.obufByte_appendPixels (v : Byte) (n : Nat) (s : State) (x : Nat) :
    (s.appendPixels v n).obufByte x =
      if s.outLen.toNat ≤ x ∧ x < s.outLen.toNat + n then v else s.obufByte x := by
  simp only [State.obufByte, State.appendPixels_obuf, State.appendPixels_resets, readCell_fillCells]
  split_ifs <;> rfl

end Sys2Proof.Machine
end

