-- ==== Sys2Proof/Laws/Ops.lean ====
section
/-! SUPPORT. One lemma per shared operation that says once everything it can do: the start of a job, raise and finish, emit,
put_pixels, the run of a record, and the encoders' steps. -/

namespace Sys2Proof.Machine

/-! ### Parts of a step -/

@[simp] theorem Flow.andThen_ok (s : State) (k : State → Flow) : (Flow.ok s).andThen k = k s := rfl
@[simp] theorem Flow.andThen_ended (s : State) (k : State → Flow) : (Flow.ended s).andThen k = .ended s := rfl
@[simp] theorem Flow.andThen_fault (x : Fault) (k : State → Flow) : (Flow.fault x).andThen k = .fault x := rfl
@[simp] theorem Flow.outcome_ok (s : State) (k : State → State) : (Flow.ok s).outcome k = .next (k s) := rfl
@[simp] theorem Flow.outcome_ended (s : State) (k : State → State) : (Flow.ended s).outcome k = .next s := rfl
@[simp] theorem Flow.outcome_fault (x : Fault) (k : State → State) : (Flow.fault x).outcome k = .fault x := rfl

/-- A step that answers a next state either went through all its parts or ended the job in one. -/
theorem Flow.outcome_next {m : Flow} {k : State → State} {t : State} (h : m.outcome k = .next t) :
    (∃ u, m = .ok u ∧ t = k u) ∨ m = .ended t := by
  cases m with
  | ok u => exact .inl ⟨u, rfl, by simpa using h.symm⟩
  | ended u => exact .inr (by simpa using h)
  | fault x => simp at h

/-- No step is refused. -/
theorem Flow.outcome_ne_refused (m : Flow) (k : State → State) (r : Refusal) : m.outcome k ≠ .refused r := by
  cases m <;> simp [Flow.outcome]

/-! ### The start of a job -/

/-- The three ends of the start checks: an error, an empty job, or a running one that fits its buffers. -/
theorem State.startChecks_cases (s : State) :
    s.startChecks = s.raise .invalidParameter ∨
    (s.startChecks = s.finish ∧ (s.width = 0#16 ∨ s.height = 0#16) ∧ s.mode.zeroDimOk = true) ∨
    (s.startChecks = s.run ∧ s.outCap.toNat ≤ s.obufSize ∧ s.width ≠ 0#16 ∧ s.height ≠ 0#16 ∧
      (s.jobDir = .enc → s.npix.toNat ≤ s.ibufSize) ∧
      (s.jobDir = .dec → s.inLen.toNat ≤ s.ibufSize ∧ s.npix.toNat ≤ s.outCap.toNat)) := by
  by_cases h1 : s.obufSize < s.outCap.toNat
  · exact .inl (by rw [State.startChecks, if_pos h1])
  by_cases h2 : s.width = 0#16 ∨ s.height = 0#16
  · cases h3 : s.mode.zeroDimOk
    · exact .inl (by rw [State.startChecks, if_neg h1, if_pos h2, if_neg (by rw [h3]; decide)])
    · exact .inr (.inl ⟨by rw [State.startChecks, if_neg h1, if_pos h2, if_pos h3], h2, rfl⟩)
  have h2' := not_or.mp h2
  rw [State.startChecks, if_neg h1, if_neg h2]
  cases hd : s.jobDir with
  | enc =>
    by_cases h4 : s.ibufSize < s.npix.toNat
    · exact .inl (if_pos h4)
    · exact .inr (.inr ⟨if_neg h4, by omega, h2'.1, h2'.2, fun _ => by omega, fun h => absurd h (by decide)⟩)
  | dec =>
    by_cases h4 : s.ibufSize < s.inLen.toNat
    · exact .inl (if_pos h4)
    by_cases h5 : s.outCap.toNat < s.npix.toNat
    · exact .inl ((if_neg h4).trans (if_pos h5))
    · exact .inr (.inr ⟨(if_neg h4).trans (if_neg h5), by omega, h2'.1, h2'.2, fun h => absurd h (by decide),
        fun _ => ⟨by omega, by omega⟩⟩)

/-- The start checks write nothing but STATUS. -/
theorem State.startChecks_frame (s : State) : s.startChecks = { s with status := s.startChecks.status } := by
  rcases s.startChecks_cases with h | ⟨h, -⟩ | ⟨h, -⟩ <;> rw [h] <;> rfl

/-- A job's start writes nothing but STATUS, the positions, the latch and the accumulator. -/
theorem State.startJob_frame (d : Dir) (f : Format) (s : State) :
    s.startJob d f =
      { s with
        status := (s.startJob d f).status, outLen := 0#32, inPos := 0#32, jobDir := d, jobFmt := f
        npix := s.pixelCount, accVal := 0#8, accLen := 0#32 } := by
  have h := State.startChecks_frame (s.accept.latchJob d f)
  exact h

/-- A job command while BUSY = 1 is ignored. -/
theorem jobCommand_busy {s : State} (h : s.status.busy = true) (d : Dir) (f : Format) :
    jobCommand d f s = .next s := by
  rw [jobCommand, if_pos h]

/-- A job command while BUSY = 0 is accepted. -/
theorem jobCommand_idle {s : State} (h : s.status.busy = false) (d : Dir) (f : Format) :
    jobCommand d f s = .next (s.startJob d f) := by
  rw [jobCommand, if_neg (by rw [h]; decide)]

theorem illegalCommand_busy {s : State} (h : s.status.busy = true) : illegalCommand s = s := by
  rw [illegalCommand, if_pos h]

theorem illegalCommand_idle {s : State} (h : s.status.busy = false) :
    illegalCommand s = s.accept.raise .illegalCommand := by
  rw [illegalCommand, if_neg (by rw [h]; decide)]

/-! ### emit -/

/-- s with the bytes appended to OBUF at OUT_LEN: what emitting all of them comes to. -/
def State.appendBytes (bs : List Byte) (s : State) : State :=
  { s with obuf := writeCells s.obuf s.outLen.toNat bs, outLen := BitVec.ofNat 32 (s.outLen.toNat + bs.length) }

@[simp] theorem State.appendBytes_nil (s : State) : s.appendBytes [] = s := by
  simp [State.appendBytes, writeCells]

/-- appendBytes writes nothing but OBUF and OUT_LEN. -/
theorem State.appendBytes_frame (bs : List Byte) (s : State) :
    s.appendBytes bs = { s with obuf := (s.appendBytes bs).obuf, outLen := (s.appendBytes bs).outLen } := rfl

theorem State.appendBytes_outLen {bs : List Byte} {s : State} (h : s.outLen.toNat + bs.length < 2 ^ 32) :
    (s.appendBytes bs).outLen.toNat = s.outLen.toNat + bs.length := by
  simp only [State.appendBytes, BitVec.toNat_ofNat]
  exact Nat.mod_eq_of_lt h

theorem State.obufByte_appendBytes (bs : List Byte) (s : State) (x : Nat) :
    (s.appendBytes bs).obufByte x =
      if s.outLen.toNat ≤ x ∧ x < s.outLen.toNat + bs.length then bs.getD (x - s.outLen.toNat) 0#8
      else s.obufByte x := by
  simp only [State.obufByte, State.appendBytes, readCell_writeCells]
  split_ifs with h
  · have hx : x - s.outLen.toNat < bs.length := by omega
    simp [List.getD_eq_getElem?_getD, List.getElem?_eq_getElem hx]
  · rfl

theorem emit_eq_ok {b : Byte} {s : State} (hc : s.outLen.toNat < s.outCap.toNat) (ho : s.outLen.toNat < s.obufSize) :
    emit b s = .ok (s.appendByte b) := by
  rw [emit, if_neg (by omega), if_neg (by omega)]

theorem emit_eq_ended {b : Byte} {s : State} (h : s.outCap.toNat ≤ s.outLen.toNat) :
    emit b s = .ended (s.raise .outputOverflow) := by
  rw [emit, if_pos h]

theorem State.appendByte_outLen_toNat {b : Byte} {s : State} (h : s.outLen.toNat + 1 < 2 ^ 32) :
    (s.appendByte b).outLen.toNat = s.outLen.toNat + 1 := by
  simp only [State.appendByte_outLen, BitVec.toNat_add, BitVec.toNat_ofNat]
  omega

theorem State.appendBytes_cons {b : Byte} {bs : List Byte} {s : State} (h : s.outLen.toNat + 1 < 2 ^ 32) :
    (s.appendByte b).appendBytes bs = s.appendBytes (b :: bs) := by
  have hl := State.appendByte_outLen_toNat (b := b) h
  simp only [State.appendBytes, hl, writeCells, List.length_cons]
  simp only [State.appendByte]
  congr 1
  congr 1
  omega

/-- Bytes that fit are all appended. -/
theorem emitAll_eq_ok {bs : List Byte} {s : State} (hc : s.outLen.toNat + bs.length ≤ s.outCap.toNat)
    (ho : s.outCap.toNat ≤ s.obufSize) : emitAll bs s = .ok (s.appendBytes bs) := by
  induction bs generalizing s with
  | nil => rw [emitAll, State.appendBytes_nil]
  | cons b bs ih =>
    simp only [List.length_cons] at hc
    have hlt := s.outCap.isLt
    have hl := State.appendByte_outLen_toNat (b := b) (s := s) (by omega)
    rw [emitAll, emit_eq_ok (by omega) (by omega), Flow.andThen_ok, ih (s := s.appendByte b) (by rw [hl, State.appendByte_outCap]; omega) ho,
      State.appendBytes_cons (by omega)]

/-- Of bytes that do not fit, those up to OUT_CAP are appended and OutputOverflowError ends the job. -/
theorem emitAll_eq_ended {bs : List Byte} {s : State} (hs : s.outLen.toNat ≤ s.outCap.toNat)
    (hc : s.outCap.toNat < s.outLen.toNat + bs.length) (ho : s.outCap.toNat ≤ s.obufSize) :
    emitAll bs s =
      .ended ((s.appendBytes (bs.take (s.outCap.toNat - s.outLen.toNat))).raise .outputOverflow) := by
  induction bs generalizing s with
  | nil => simp only [List.length_nil] at hc; omega
  | cons b bs ih =>
    simp only [List.length_cons] at hc
    by_cases hf : s.outCap.toNat ≤ s.outLen.toNat
    · rw [emitAll, emit_eq_ended hf, Flow.andThen_ended, Nat.sub_eq_zero_of_le hf, List.take_zero,
        State.appendBytes_nil]
    · have hlt := s.outCap.isLt
      have hl := State.appendByte_outLen_toNat (b := b) (s := s) (by omega)
      rw [emitAll, emit_eq_ok (by omega) (by omega), Flow.andThen_ok,
        ih (s := s.appendByte b) (by rw [hl, State.appendByte_outCap]; omega) (by rw [hl, State.appendByte_outCap]; omega) ho, hl,
        State.appendByte_outCap, State.appendBytes_cons (by omega),
        show s.outCap.toNat - s.outLen.toNat = (s.outCap.toNat - (s.outLen.toNat + 1)) + 1 by omega, List.take_succ_cons]

/-- Everything emitting a list of bytes can do in a job that passed its start checks. -/
theorem emitAll_cases (bs : List Byte) {s : State} (hs : s.outLen.toNat ≤ s.outCap.toNat)
    (ho : s.outCap.toNat ≤ s.obufSize) :
    (s.outLen.toNat + bs.length ≤ s.outCap.toNat ∧ emitAll bs s = .ok (s.appendBytes bs)) ∨
    (s.outCap.toNat < s.outLen.toNat + bs.length ∧
      emitAll bs s =
        .ended ((s.appendBytes (bs.take (s.outCap.toNat - s.outLen.toNat))).raise .outputOverflow)) := by
  by_cases h : s.outLen.toNat + bs.length ≤ s.outCap.toNat
  · exact .inl ⟨h, emitAll_eq_ok h ho⟩
  · exact .inr ⟨by omega, emitAll_eq_ended hs (by omega) ho⟩

/-- Everything one emit can do. -/
theorem emit_cases (b : Byte) (s : State) :
    emit b s = .ended (s.raise .outputOverflow) ∨ emit b s = .fault .noSuchObufAddress ∨
      (s.outLen.toNat < s.outCap.toNat ∧ s.outLen.toNat < s.obufSize ∧ emit b s = .ok (s.appendByte b)) := by
  by_cases h1 : s.outCap.toNat ≤ s.outLen.toNat
  · exact .inl (emit_eq_ended h1)
  by_cases h2 : s.obufSize ≤ s.outLen.toNat
  · exact .inr (.inl (by rw [emit, if_neg h1, if_pos h2]))
  · exact .inr (.inr ⟨by omega, by omega, emit_eq_ok (by omega) (by omega)⟩)

/-- Emitting writes nothing but OBUF and OUT_LEN. -/
theorem emitAll_frame {bs : List Byte} {s t : State} (h : emitAll bs s = .ok t) :
    t = { s with obuf := t.obuf, outLen := t.outLen } := by
  induction bs generalizing s with
  | nil => rw [emitAll, Flow.ok.injEq] at h; subst h; rfl
  | cons b bs ih =>
    rw [emitAll] at h
    rcases emit_cases b s with h1 | h1 | ⟨-, -, h1⟩ <;> rw [h1] at h
    · cases h
    · cases h
    · exact ih (s := s.appendByte b) h

/-- An emission that ends the job writes nothing but OBUF, OUT_LEN and STATUS. -/
theorem emitAll_ended_frame {bs : List Byte} {s t : State} (h : emitAll bs s = .ended t) :
    t = { s with obuf := t.obuf, outLen := t.outLen, status := Status.raised .outputOverflow } := by
  induction bs generalizing s with
  | nil => cases h
  | cons b bs ih =>
    rw [emitAll] at h
    rcases emit_cases b s with h1 | h1 | ⟨-, -, h1⟩ <;> rw [h1] at h
    · rw [Flow.andThen_ended, Flow.ended.injEq] at h
      subst h
      rfl
    · cases h
    · exact ih (s := s.appendByte b) h

/-! ### Host reads of the buffers -/

/-- A HostRead is unspecified exactly inside OBUF while BUSY = 1. -/
theorem bufReadOpen_eq_true_iff (b : Buf) (a : Nat) (s : State) :
    bufReadOpen b a s = true ↔ b = .obuf ∧ s.status.busy = true ∧ a < s.obufSize := by
  cases b <;> simp [bufReadOpen]

/-- An unspecified HostRead is the next free byte. -/
theorem hostRead_open {b : Buf} {a : Nat} {s : State} (h : bufReadOpen b a s = true) :
    hostRead b a s = Config.busyByte s.freeReads := by
  rw [hostRead, if_pos h]

/-- Every other HostRead is the buffer's value. -/
theorem hostRead_closed {b : Buf} {a : Nat} {s : State} (h : bufReadOpen b a s = false) :
    hostRead b a s = bufValue b a s := by
  rw [hostRead, if_neg (by rw [h]; decide)]

/-! ### put_pixels and the run of a record -/

theorem putPixels_eq_ok {v : Byte} {n : Nat} {s : State} (h : n = 0 ∨ s.outLen.toNat + n ≤ s.obufSize) :
    putPixels v n s = .ok (s.appendPixels v n) := by
  rw [putPixels, if_neg (by omega)]

/-- A record that passes every check writes its pixels and IN_POS moves past it. -/
theorem runRecord_runs {len n : Nat} {canonical : Bool} {v : Byte} {s : State}
    (ht : s.inPos.toNat + len ≤ s.inLen.toNat) (hm : s.mode.strict = true → canonical = true)
    (ho : s.outLen.toNat + n ≤ s.npix.toNat) (hf : n = 0 ∨ s.outLen.toNat + n ≤ s.obufSize) :
    runRecord len n canonical v s = .next ((s.appendPixels v n).advance len) := by
  rw [runRecord, if_neg (by omega), if_neg (by rintro ⟨h1, h2⟩; simp [hm h1] at h2), if_neg (by omega),
    putPixels_eq_ok hf, Flow.outcome_ok]

/-- Everything the run of a record can do. -/
theorem runRecord_cases (len n : Nat) (canonical : Bool) (v : Byte) (s : State) :
    (s.inLen.toNat < s.inPos.toNat + len ∧ runRecord len n canonical v s = .next (s.raise .truncatedStream)) ∨
    (s.inPos.toNat + len ≤ s.inLen.toNat ∧ s.mode.strict = true ∧ canonical = false ∧
      runRecord len n canonical v s = .next (s.raise .malformedRecord)) ∨
    (s.inPos.toNat + len ≤ s.inLen.toNat ∧ (s.mode.strict = true → canonical = true) ∧
      s.npix.toNat < s.outLen.toNat + n ∧ runRecord len n canonical v s = .next (s.raise .overrun)) ∨
    (s.inPos.toNat + len ≤ s.inLen.toNat ∧ (s.mode.strict = true → canonical = true) ∧
      s.outLen.toNat + n ≤ s.npix.toNat ∧ n ≠ 0 ∧ s.obufSize < s.outLen.toNat + n ∧
      runRecord len n canonical v s = .fault .noSuchObufAddress) ∨
    (s.inPos.toNat + len ≤ s.inLen.toNat ∧ (s.mode.strict = true → canonical = true) ∧
      s.outLen.toNat + n ≤ s.npix.toNat ∧ (n = 0 ∨ s.outLen.toNat + n ≤ s.obufSize) ∧
      runRecord len n canonical v s = .next ((s.appendPixels v n).advance len)) := by
  by_cases h1 : s.inLen.toNat < s.inPos.toNat + len
  · exact .inl ⟨h1, by rw [runRecord, if_pos h1]⟩
  by_cases h2 : s.mode.strict = true ∧ canonical = false
  · exact .inr (.inl ⟨by omega, h2.1, h2.2, by rw [runRecord, if_neg h1, if_pos h2]⟩)
  have h2' : s.mode.strict = true → canonical = true := by
    intro h; cases hc : canonical
    · exact absurd ⟨h, hc⟩ h2
    · rfl
  by_cases h3 : s.npix.toNat < s.outLen.toNat + n
  · exact .inr (.inr (.inl ⟨by omega, h2', h3, by rw [runRecord, if_neg h1, if_neg h2, if_pos h3]⟩))
  by_cases h4 : n ≠ 0 ∧ s.obufSize < s.outLen.toNat + n
  · exact .inr (.inr (.inr (.inl ⟨by omega, h2', by omega, h4.1, h4.2, by
      rw [runRecord, if_neg h1, if_neg h2, if_neg h3, putPixels, if_pos h4, Flow.outcome_fault]⟩)))
  · exact .inr (.inr (.inr (.inr ⟨by omega, h2', by omega, by omega,
      runRecord_runs (by omega) h2' (by omega) (by omega)⟩)))

/-! ### The encoders' steps -/

/-- Nothing is emitted for an empty run, in any format. -/
@[simp] theorem flushBytesA_zero (v : Nat) : flushBytesA v 0 = [] := rfl
@[simp] theorem flushBytesB_zero (c : Nat) : flushBytesB c 0 = [] := rfl
@[simp] theorem flushBytesC_zero (c : Nat) : flushBytesC c 0 = [] := rfl

/-- The bytes a format's flush emits for the accumulator of a state. -/
def State.pendingBytes (s : State) : List Byte :=
  match s.jobFmt with
  | .a => flushBytesA s.stateBit s.accLen.toNat
  | .b => flushBytesB (s.accVal.extractLsb' 0 7).toNat s.accLen.toNat
  | .c => flushBytesC (s.accVal.extractLsb' 0 4).toNat s.accLen.toNat

/-- The quantized pixel of the job's format, as ACC_VAL holds it. -/
def State.quantized (s : State) (p : Byte) : Byte :=
  match s.jobFmt with
  | .a => stateByte (quantA s.aThresh p)
  | .b => quantB p
  | .c => quantC p

/-- The accumulator after the flush: Format C's flush clears ACC_LEN, the others keep it. -/
def State.flushed (s : State) : State :=
  match s.jobFmt with
  | .a => s
  | .b => s
  | .c => s.setAcc s.accVal 0#32

/-- A flush whose bytes fit. -/
theorem flushStep_eq_ok {s : State} (hc : s.outLen.toNat + s.pendingBytes.length ≤ s.outCap.toNat)
    (ho : s.outCap.toNat ≤ s.obufSize) :
    flushStep s.jobFmt s = .ok (s.appendBytes s.pendingBytes).flushed := by
  cases hf : s.jobFmt <;> simp only [State.pendingBytes, hf] at hc <;>
    simp only [flushStep, flushA, flushB, flushC, emitAll_eq_ok hc ho, State.flushed, State.pendingBytes, hf,
      State.appendBytes, Flow.andThen_ok]

/-- A flush whose bytes do not fit ends the job with OutputOverflowError after the bytes that fit. -/
theorem flushStep_eq_ended {s : State} (hs : s.outLen.toNat ≤ s.outCap.toNat)
    (hc : s.outCap.toNat < s.outLen.toNat + s.pendingBytes.length) (ho : s.outCap.toNat ≤ s.obufSize) :
    flushStep s.jobFmt s =
      .ended ((s.appendBytes (s.pendingBytes.take (s.outCap.toNat - s.outLen.toNat))).raise .outputOverflow) := by
  cases hf : s.jobFmt <;> simp only [State.pendingBytes, hf] at hc <;>
    simp only [flushStep, flushA, flushB, flushC, emitAll_eq_ended hs hc ho, State.pendingBytes, hf, Flow.andThen_ended]

end Sys2Proof.Machine
end

