-- ==== Sys2Proof/Laws/PerInstr.lean ====
section
/-! SUPPORT. The family of per-instruction lemmas: the encoder gives an instruction as many stream bytes as its record
length says (30_encoding.md R72). -/

namespace Sys2Proof.Laws

/-- The encoding of an instruction has its record length (30_encoding.md R72). -/
def EncodeLength.Statement (i : Instr) : Prop := (recordBytes i).length = i.recordLength

theorem EncodeLength.nop : EncodeLength.Statement .nop := rfl
theorem EncodeLength.encA : EncodeLength.Statement .encA := rfl
theorem EncodeLength.encB : EncodeLength.Statement .encB := rfl
theorem EncodeLength.encC : EncodeLength.Statement .encC := rfl
theorem EncodeLength.decA : EncodeLength.Statement .decA := rfl
theorem EncodeLength.decB : EncodeLength.Statement .decB := rfl
theorem EncodeLength.decC : EncodeLength.Statement .decC := rfl
theorem EncodeLength.aRun (on : Bool) (l : BitVec 7) : EncodeLength.Statement (.aRun on l) := rfl
theorem EncodeLength.bPix (c : BitVec 7) : EncodeLength.Statement (.bPix c) := rfl
theorem EncodeLength.bRun1 (c n : BitVec 7) : EncodeLength.Statement (.bRun1 c n) := rfl
theorem EncodeLength.bRun2 (c : BitVec 7) (n : BitVec 14) : EncodeLength.Statement (.bRun2 c n) := rfl
theorem EncodeLength.bRun3 (c : BitVec 7) (n : BitVec 21) : EncodeLength.Statement (.bRun3 c n) := rfl
theorem EncodeLength.bRun4 (c : BitVec 7) (n : BitVec 28) : EncodeLength.Statement (.bRun4 c n) := rfl
theorem EncodeLength.cRunK (n : BitVec 12) : EncodeLength.Statement (.cRunK n) := rfl
theorem EncodeLength.cRunW (n : BitVec 12) : EncodeLength.Statement (.cRunW n) := rfl
theorem EncodeLength.cRunM (c n : BitVec 4) : EncodeLength.Statement (.cRunM c n) := rfl

end Sys2Proof.Laws
end

