-- ==== Sys2Proof/Laws/Step.lean ====
section
/-! SUPPORT. What each kind of step can do, said once: the pixel and flush steps of the encoders, the record step, the
engine's and the host's step, and the step of the machine. -/

namespace Sys2Proof.Machine

/-! ### Pixel steps -/

/-- Everything a Format A pixel can do in a job whose output lies inside OBUF. -/
theorem pixelA_cases (p : Byte) {s : State} (hs : s.outLen.toNat ≤ s.outCap.toNat) (ho : s.outCap.toNat ≤ s.obufSize) :
    (quantA s.aThresh p = s.accVal.getLsbD 0 ∧ s.accLen.toNat + 1 ≠ capA ∧
      pixelA p s = .ok (s.setAcc s.accVal (s.accLen + 1#32))) ∨
    (quantA s.aThresh p = s.accVal.getLsbD 0 ∧ s.accLen.toNat + 1 = capA ∧ s.outLen.toNat < s.outCap.toNat ∧
      pixelA p s = .ok ((s.appendBytes (flushBytesA s.stateBit capA)).setAcc s.accVal 0#32)) ∨
    (quantA s.aThresh p = s.accVal.getLsbD 0 ∧ s.accLen.toNat + 1 = capA ∧ s.outLen.toNat = s.outCap.toNat ∧
      pixelA p s = .ended ((s.setAcc s.accVal (s.accLen + 1#32)).raise .outputOverflow)) ∨
    (quantA s.aThresh p ≠ s.accVal.getLsbD 0 ∧
      s.outLen.toNat + (flushBytesA s.stateBit s.accLen.toNat).length ≤ s.outCap.toNat ∧
      pixelA p s = .ok ((s.appendBytes (flushBytesA s.stateBit s.accLen.toNat)).setAcc
        (stateByte (quantA s.aThresh p)) 1#32)) ∨
    (quantA s.aThresh p ≠ s.accVal.getLsbD 0 ∧
      s.outCap.toNat < s.outLen.toNat + (flushBytesA s.stateBit s.accLen.toNat).length ∧
      pixelA p s = .ended ((s.appendBytes ((flushBytesA s.stateBit s.accLen.toNat).take
        (s.outCap.toNat - s.outLen.toNat))).raise .outputOverflow)) := by
  by_cases hq : quantA s.aThresh p = s.accVal.getLsbD 0
  · by_cases hn : s.accLen.toNat + 1 = capA
    · have hlen : (flushBytesA s.stateBit capA).length = 1 := rfl
      rcases emitAll_cases (flushBytesA s.stateBit capA) (s := s.setAcc s.accVal (s.accLen + 1#32)) hs ho with
        ⟨h1, h2⟩ | ⟨h1, h2⟩
      · rw [hlen] at h1
        exact .inr (.inl ⟨hq, hn, h1, by rw [pixelA, if_pos hq, if_pos hn, h2]; rfl⟩)
      · rw [hlen] at h1
        have h1' : s.outCap.toNat < s.outLen.toNat + 1 := h1
        refine .inr (.inr (.inl ⟨hq, hn, by omega, ?_⟩))
        rw [pixelA, if_pos hq, if_pos hn, h2, Flow.andThen_ended, State.setAcc_outCap, State.setAcc_outLen,
          Nat.sub_eq_zero_of_le (by omega), List.take_zero, State.appendBytes_nil]
    · exact .inl ⟨hq, hn, by rw [pixelA, if_pos hq, if_neg hn]⟩
  · rcases emitAll_cases (flushBytesA s.stateBit s.accLen.toNat) hs ho with ⟨h1, h2⟩ | ⟨h1, h2⟩
    · exact .inr (.inr (.inr (.inl ⟨hq, h1, by rw [pixelA, if_neg hq, flushA, h2]; rfl⟩)))
    · exact .inr (.inr (.inr (.inr ⟨hq, h1, by rw [pixelA, if_neg hq, flushA, h2]; rfl⟩)))

/-- Everything a Format B pixel can do in a job whose output lies inside OBUF. -/
theorem pixelB_cases (p : Byte) {s : State} (hs : s.outLen.toNat ≤ s.outCap.toNat) (ho : s.outCap.toNat ≤ s.obufSize) :
    (quantB p = s.accVal ∧ s.accLen.toNat = ceilingB ∧ pixelB p s = .ended (s.raise .unsupportedRunLength)) ∨
    (quantB p = s.accVal ∧ s.accLen.toNat ≠ ceilingB ∧ pixelB p s = .ok (s.setAcc s.accVal (s.accLen + 1#32))) ∨
    (quantB p ≠ s.accVal ∧
      s.outLen.toNat + (flushBytesB (s.accVal.extractLsb' 0 7).toNat s.accLen.toNat).length ≤ s.outCap.toNat ∧
      pixelB p s = .ok ((s.appendBytes (flushBytesB (s.accVal.extractLsb' 0 7).toNat s.accLen.toNat)).setAcc
        (quantB p) 1#32)) ∨
    (quantB p ≠ s.accVal ∧
      s.outCap.toNat < s.outLen.toNat + (flushBytesB (s.accVal.extractLsb' 0 7).toNat s.accLen.toNat).length ∧
      pixelB p s = .ended ((s.appendBytes ((flushBytesB (s.accVal.extractLsb' 0 7).toNat s.accLen.toNat).take
        (s.outCap.toNat - s.outLen.toNat))).raise .outputOverflow)) := by
  by_cases hq : quantB p = s.accVal
  · by_cases hn : s.accLen.toNat = ceilingB
    · exact .inl ⟨hq, hn, by rw [pixelB, if_pos hq, if_pos hn]⟩
    · exact .inr (.inl ⟨hq, hn, by rw [pixelB, if_pos hq, if_neg hn]⟩)
  · rcases emitAll_cases (flushBytesB (s.accVal.extractLsb' 0 7).toNat s.accLen.toNat) hs ho with ⟨h1, h2⟩ | ⟨h1, h2⟩
    · exact .inr (.inr (.inl ⟨hq, h1, by rw [pixelB, if_neg hq, flushB, h2]; rfl⟩))
    · exact .inr (.inr (.inr ⟨hq, h1, by rw [pixelB, if_neg hq, flushB, h2]; rfl⟩))

/-- Everything a Format C pixel can do in a job whose output lies inside OBUF. -/
theorem pixelC_cases (p : Byte) {s : State} (hs : s.outLen.toNat ≤ s.outCap.toNat) (ho : s.outCap.toNat ≤ s.obufSize) :
    (quantC p = s.accVal ∧ pixelC p s = .ok (s.setAcc s.accVal (s.accLen + 1#32))) ∨
    (quantC p ≠ s.accVal ∧
      s.outLen.toNat + (flushBytesC (s.accVal.extractLsb' 0 4).toNat s.accLen.toNat).length ≤ s.outCap.toNat ∧
      pixelC p s = .ok ((s.appendBytes (flushBytesC (s.accVal.extractLsb' 0 4).toNat s.accLen.toNat)).setAcc
        (quantC p) 1#32)) ∨
    (quantC p ≠ s.accVal ∧
      s.outCap.toNat < s.outLen.toNat + (flushBytesC (s.accVal.extractLsb' 0 4).toNat s.accLen.toNat).length ∧
      pixelC p s = .ended ((s.appendBytes ((flushBytesC (s.accVal.extractLsb' 0 4).toNat s.accLen.toNat).take
        (s.outCap.toNat - s.outLen.toNat))).raise .outputOverflow)) := by
  by_cases hq : quantC p = s.accVal
  · exact .inl ⟨hq, by rw [pixelC, if_pos hq]⟩
  · rcases emitAll_cases (flushBytesC (s.accVal.extractLsb' 0 4).toNat s.accLen.toNat) hs ho with ⟨h1, h2⟩ | ⟨h1, h2⟩
    · exact .inr (.inl ⟨hq, h1, by rw [pixelC, if_neg hq, flushC, h2]; rfl⟩)
    · exact .inr (.inr ⟨hq, h1, by rw [pixelC, if_neg hq, flushC, h2]; rfl⟩)

/-! ### Records -/

/-- exec of a record is the run of a record of its length: for every record of one of the three formats there are the run
length, the canonical check and the pixel that say so. -/
theorem exec_record (i : Instr) (h : 1 ≤ i.recordLength) :
    ∃ n canonical v, ∀ s, exec i s = runRecord i.recordLength n canonical v s := by
  cases i <;> simp only [Instr.recordLength] at h <;> first | omega | exact ⟨_, _, _, fun _ => rfl⟩

/-- exec of a command word is a command write: NOP, or a job command. -/
theorem exec_command (i : Instr) (h : i.recordLength = 0) :
    (∀ s, exec i s = .next s) ∨ ∃ d f, ∀ s, exec i s = jobCommand d f s := by
  cases i <;> simp only [Instr.recordLength] at h
  · exact .inl fun _ => rfl
  all_goals first | exact .inr ⟨_, _, fun _ => rfl⟩ | omega

/-- Every record the decoder reads from a stream is a record, at least one byte long. -/
theorem decodeRecord_length {f : Format} {bs rest : List Byte} {i : Instr} (h : decodeRecord f bs = .ok (i, rest)) :
    1 ≤ i.recordLength := by
  cases f
  · cases bs <;> simp only [decodeRecord, decodeA, reduceCtorEq, Except.ok.injEq, Prod.mk.injEq] at h
    rw [← h.1]; exact le_refl 1
  · simp only [decodeRecord] at h
    unfold decodeB at h
    repeat' split at h
    all_goals first
      | (simp only [reduceCtorEq] at h)
      | (simp only [Except.ok.injEq, Prod.mk.injEq] at h
         rw [← h.1]
         simp [Instr.recordLength])
  · simp only [decodeRecord] at h
    unfold decodeC at h
    repeat' split at h
    all_goals first
      | (simp only [reduceCtorEq] at h)
      | (simp only [Except.ok.injEq, Prod.mk.injEq] at h
         rw [← h.1]
         simp [Instr.recordLength])

/-- What decodeCommand reads is a command word. -/
theorem decodeCommand_length {v : Word} {i : Instr} (h : decodeCommand v = .ok i) : i.recordLength = 0 := by
  unfold decodeCommand at h
  repeat' split at h
  all_goals first
    | (simp only [reduceCtorEq] at h)
    | (simp only [Except.ok.injEq] at h; rw [← h]; rfl)

/-- The decoder rejects a stream's bytes only as too short or for a reserved prefix. -/
theorem decodeRecord_error {f : Format} {bs : List Byte} {e : DecodeError} (h : decodeRecord f bs = .error e) :
    e = .truncated ∨ e = .reservedPrefix := by
  cases f
  · cases bs <;> simp only [decodeRecord, decodeA, reduceCtorEq, Except.error.injEq] at h
    exact .inl h.symm
  · simp only [decodeRecord] at h
    unfold decodeB at h
    repeat' split at h
    all_goals first
      | (simp only [reduceCtorEq] at h)
      | (simp only [Except.error.injEq] at h; rw [← h]; simp)
  · simp only [decodeRecord] at h
    unfold decodeC at h
    repeat' split at h
    all_goals first
      | (simp only [reduceCtorEq] at h)
      | (simp only [Except.error.injEq] at h; rw [← h]; simp)

/-- Everything a record step can do. -/
theorem recordStep_cases (s : State) :
    (∃ i rest, decodeRecord s.jobFmt s.window = .ok (i, rest) ∧ 1 ≤ i.recordLength ∧ recordStep s = exec i s) ∨
    (decodeRecord s.jobFmt s.window = .error .truncated ∧
      ((s.inLen.toNat ≤ s.inPos.toNat + s.windowLength ∧ recordStep s = .next (s.raise .truncatedStream)) ∨
        (s.inPos.toNat + s.windowLength < s.inLen.toNat ∧ recordStep s = .fault .noSuchIbufAddress))) ∨
    (decodeRecord s.jobFmt s.window = .error .reservedPrefix ∧ recordStep s = .next (s.raise .malformedRecord)) := by
  cases h : decodeRecord s.jobFmt s.window with
  | ok r => exact .inl ⟨r.1, r.2, rfl, decodeRecord_length h, by rw [recordStep, h]⟩
  | error e =>
    rcases decodeRecord_error h with rfl | rfl
    · refine .inr (.inl ⟨rfl, ?_⟩)
      by_cases hl : s.inLen.toNat ≤ s.inPos.toNat + s.windowLength
      · exact .inl ⟨hl, by rw [recordStep, h]; exact if_pos hl⟩
      · exact .inr ⟨by omega, by rw [recordStep, h]; exact if_neg hl⟩
    · exact .inr (.inr ⟨rfl, by rw [recordStep, h]⟩)

/-! ### The engine -/

theorem engineStep_idle {s : State} (h : s.status.busy = false) : engineStep s = .next s := by
  rw [engineStep, if_neg (by rw [h]; decide)]

theorem engineStep_enc {s : State} (h : s.status.busy = true) (hd : s.jobDir = .enc) : engineStep s = encStep s := by
  rw [engineStep, if_pos h, hd]

theorem engineStep_dec {s : State} (h : s.status.busy = true) (hd : s.jobDir = .dec) : engineStep s = decStep s := by
  rw [engineStep, if_pos h, hd]

/-- The next pixel of an encode job. -/
theorem encStep_pixel {s : State} (h : s.inPos.toNat < s.npix.toNat) (hi : s.npix.toNat ≤ s.ibufSize) :
    encStep s = (pixelStep s.jobFmt (s.ibufByte s.inPos.toNat) s).outcome (State.advance 1) := by
  rw [encStep, if_pos h, if_neg (by omega)]

/-- The final step of an encode job. -/
theorem encStep_final {s : State} (h : s.npix.toNat ≤ s.inPos.toNat) :
    encStep s = (flushStep s.jobFmt s).outcome State.finish := by
  rw [encStep, if_neg (by omega)]

/-- A decode job whose raster is filled ends. -/
theorem decStep_filled {s : State} (h : s.npix.toNat ≤ s.outLen.toNat) : decStep s = .next s.finish := by
  rw [decStep, if_neg (by omega)]

/-- A decode job whose raster is not filled takes a record. -/
theorem decStep_record {s : State} (h : s.outLen.toNat < s.npix.toNat) : decStep s = recordStep s := by
  rw [decStep, if_pos h]

/-! ### The host -/

theorem regWrite_busy {s : State} (h : s.status.busy = true) (i : BitVec 4) (v : Word) :
    regWrite i v s = .next s := by
  by_cases hi : i = 0#4
  · rw [regWrite, if_pos hi, cmdWrite]
    cases hd : decodeCommand v with
    | ok j =>
      rcases exec_command j (decodeCommand_length hd) with he | ⟨d, f, he⟩
      · exact he s
      · exact (he s).trans (jobCommand_busy h d f)
    | error e => exact congrArg _ (illegalCommand_busy h)
  · rw [regWrite, if_neg hi, if_pos h]

/-- Everything a register write can do while BUSY = 0. -/
theorem regWrite_cases {s : State} (h : s.status.busy = false) (i : BitVec 4) (v : Word) :
    (i = 0#4 ∧ decodeCommand v = .ok .nop ∧ regWrite i v s = .next s) ∨
    (∃ d f, i = 0#4 ∧ regWrite i v s = .next (s.startJob d f)) ∨
    (i = 0#4 ∧ regWrite i v s = .next (s.accept.raise .illegalCommand)) ∨
    (i ≠ 0#4 ∧ regWrite i v s = .next (s.setConfig i v)) := by
  by_cases hi : i = 0#4
  · have hr : regWrite i v s = cmdWrite v s := by rw [regWrite, if_pos hi]
    rw [hr]
    unfold cmdWrite
    cases hd : decodeCommand v with
    | error e =>
      refine .inr (.inr (.inl ⟨hi, ?_⟩))
      exact congrArg Host.Outcome.next (illegalCommand_idle h)
    | ok j =>
      have hl := decodeCommand_length hd
      have hj : ∀ d f, (∀ s, exec j s = jobCommand d f s) → exec j s = .next (s.startJob d f) :=
        fun d f he => (he s).trans (jobCommand_idle h d f)
      cases j with
      | nop => exact .inl ⟨hi, rfl, rfl⟩
      | encA => exact .inr (.inl ⟨.enc, .a, hi, hj .enc .a fun _ => rfl⟩)
      | encB => exact .inr (.inl ⟨.enc, .b, hi, hj .enc .b fun _ => rfl⟩)
      | encC => exact .inr (.inl ⟨.enc, .c, hi, hj .enc .c fun _ => rfl⟩)
      | decA => exact .inr (.inl ⟨.dec, .a, hi, hj .dec .a fun _ => rfl⟩)
      | decB => exact .inr (.inl ⟨.dec, .b, hi, hj .dec .b fun _ => rfl⟩)
      | decC => exact .inr (.inl ⟨.dec, .c, hi, hj .dec .c fun _ => rfl⟩)
      | aRun => simp [Instr.recordLength] at hl
      | bPix => simp [Instr.recordLength] at hl
      | bRun1 => simp [Instr.recordLength] at hl
      | bRun2 => simp [Instr.recordLength] at hl
      | bRun3 => simp [Instr.recordLength] at hl
      | bRun4 => simp [Instr.recordLength] at hl
      | cRunK => simp [Instr.recordLength] at hl
      | cRunW => simp [Instr.recordLength] at hl
      | cRunM => simp [Instr.recordLength] at hl
  · exact .inr (.inr (.inr ⟨hi, by rw [regWrite, if_neg hi, if_neg (by rw [h]; decide)]⟩))

/-- A configuration write touches only the six configuration registers. -/
theorem State.setConfig_frame (i : BitVec 4) (v : Word) (s : State) :
    s.setConfig i v =
      { s with
        width := (s.setConfig i v).width, height := (s.setConfig i v).height, aThresh := (s.setConfig i v).aThresh
        mode := (s.setConfig i v).mode, inLen := (s.setConfig i v).inLen, outCap := (s.setConfig i v).outCap } := by
  unfold State.setConfig
  split_ifs <;> rfl

/-- A host store touches only the buffers. -/
theorem State.storeByte_frame (b : Buf) (a : Nat) (v : Byte) (s : State) :
    s.storeByte b a v = { s with ibuf := (s.storeByte b a v).ibuf, obuf := (s.storeByte b a v).obuf } := by
  cases b <;> simp only [State.storeByte] <;> split_ifs <;> rfl

/-! ### The step of the machine -/

theorem step_scheduled {s : State} {g : Agent} {rest : List Agent} (h : s.schedule = g :: rest) :
    step s = agentStep g { s with schedule := rest } := by
  simp only [step, machineStep, nextAgent, h]

/-- After the schedule the engine moves while BUSY = 1. -/
theorem step_busy {s : State} (h : s.schedule = []) (hb : s.status.busy = true) : step s = engineStep s := by
  simp only [step, machineStep, nextAgent, h, hb, if_true, agentStep]

/-- After the schedule the host moves while BUSY = 0. -/
theorem step_idle {s : State} (h : s.schedule = []) (hb : s.status.busy = false) : step s = hostStep s := by
  simp only [step, machineStep, nextAgent, h, hb, agentStep, Bool.false_eq_true, if_false]

/-- The step is the step of one of the agents, at the state less the schedule entry it used. -/
theorem step_cases (s : State) :
    ∃ g u, u.schedule = s.schedule.tail ∧ u = { s with schedule := u.schedule } ∧ nextAgent s = (g, u) ∧
      step s = agentStep g u := by
  cases h : s.schedule with
  | nil =>
    exact ⟨if s.status.busy then .engine else .host, s, by rw [h]; rfl, rfl, by simp only [nextAgent, h],
      by simp only [step, machineStep, nextAgent, h]⟩
  | cons g rest => exact ⟨g, { s with schedule := rest }, rfl, rfl, by simp only [nextAgent, h], step_scheduled h⟩

end Sys2Proof.Machine
end

