-- ==== Sys2Proof/Tests/Slice0.lean ====
section
/-! SUPPORT. Tests: the well-formedness check, the decoding of a word of every row, single steps with results taken from
the spec's examples, and for every obligation with hypotheses a state and operands that meet them. -/

namespace Sys2Proof.Machine

/-! ### Small states -/

/-- An idle block with buffers of 64 bytes, a raster of w by h pixels and these bytes in IBUF. -/
def idleState (w h : BitVec 16) (bytes : List Byte) : State :=
  { State.reset with
    ibufSize := 64, obufSize := 64, outCap := 64#32, width := w, height := h, ibuf := writeCells [] 0 bytes
    inLen := BitVec.ofNat 32 bytes.length }

/-- A job of that block that has just started. -/
def jobState (d : Dir) (f : Format) (w h : BitVec 16) (bytes : List Byte) : State :=
  { idleState w h bytes with
    status := { busy := true, done := false, err := .noError }, jobDir := d, jobFmt := f
    npix := BitVec.ofNat 32 (w.toNat * h.toNat) }

/-- A block with the largest buffers in a decode job of the largest raster, STRICT = 1, with n pixels left to write and l
bytes left to read. -/
def bigState (n l : Nat) : State :=
  { State.reset with
    ibufSize := 0xFFFFFFFF, obufSize := 0xFFFFFFFF, outCap := 0xFFFFFFFF#32, width := 0xFFFF#16, height := 0xFFFF#16
    mode := { strict := true, zeroDimOk := false }, npix := 0xFFFE0001#32
    outLen := BitVec.ofNat 32 (0xFFFE0001 - n), inLen := 100#32, inPos := BitVec.ofNat 32 (100 - l)
    status := { busy := true, done := false, err := .noError }, jobDir := .dec, jobFmt := .b }

/-- STATUS after an error. -/
def endedWith (e : ErrCode) : Status := { busy := false, done := true, err := e }

/-! ### Well-formedness -/

/-- C.RUNM of colour 0 is no instruction: the byte 0x05 begins a C.RUNK (30_encoding.md R68, R70). -/
theorem test_wf_refuses_black_runm : Instr.wellFormed (.cRunM 0#4 5#4) = false := by decide

/-- C.RUNM of colour 15 is no instruction: the byte 0xF5 begins a C.RUNW (R68, R70). -/
theorem test_wf_refuses_white_runm : Instr.wellFormed (.cRunM 15#4 5#4) = false := by decide

theorem test_wf_admits_middle_runm :
    Instr.wellFormed (.cRunM 1#4 5#4) = true ∧ Instr.wellFormed (.cRunM 14#4 0#4) = true := by decide

/-! ### Decoding: words written out from 30_encoding.md R62 to R70 -/

theorem test_decode_nop : decode (.command 0b00000000000000000000000000000000#32) = .ok .nop := by decide
theorem test_decode_enc_a : decode (.command 0b00000000000000000000000000000001#32) = .ok .encA := by decide
theorem test_decode_enc_b : decode (.command 0b00000000000000000000000000000010#32) = .ok .encB := by decide
theorem test_decode_enc_c : decode (.command 0b00000000000000000000000000000011#32) = .ok .encC := by decide
theorem test_decode_dec_a : decode (.command 0b00000000000000000000000000010001#32) = .ok .decA := by decide
theorem test_decode_dec_b : decode (.command 0b00000000000000000000000000010010#32) = .ok .decB := by decide
theorem test_decode_dec_c : decode (.command 0b00000000000000000000000000010011#32) = .ok .decC := by decide

/-- R73: a word that differs from ENC.A only in its top bit, and the word between the encoders and the decoders. -/
theorem test_decode_reserved_commands :
    decode (.command 0x80000001#32) = .error .reservedCommand ∧
    decode (.command 0x00000010#32) = .error .reservedCommand := by decide

/-- R125: 0x83 is on, 3 pixels; 0x7D is off, 125 pixels. -/
theorem test_decode_a_run :
    decode (.record .a [0b10000011#8]) = .ok (.aRun true 3#7) ∧
    decode (.record .a [0b01111101#8]) = .ok (.aRun false 125#7) := by decide

/-- R146. -/
theorem test_decode_b_pix : decode (.record .b [0b01111111#8]) = .ok (.bPix 127#7) := by decide

/-- R147: 0x88 0x03. -/
theorem test_decode_b_run1 : decode (.record .b [0b10001000#8, 0b00000011#8]) = .ok (.bRun1 8#7 3#7) := by decide

/-- R148: 0x85 0xBF 0xFF, and a length whose two bytes differ. -/
theorem test_decode_b_run2 :
    decode (.record .b [0b10000101#8, 0b10111111#8, 0b11111111#8]) = .ok (.bRun2 5#7 16383#14) ∧
    decode (.record .b [0b10000101#8, 0b10000001#8, 0b00000010#8]) = .ok (.bRun2 5#7 258#14) := by decide

/-- R149: 0x85 0xC0 0x40 0x00 is 16384; 0x85 0xC1 0x02 0x03 is 0x010203. -/
theorem test_decode_b_run3 :
    decode (.record .b [0b10000101#8, 0b11000000#8, 0b01000000#8, 0b00000000#8]) = .ok (.bRun3 5#7 16384#21) ∧
    decode (.record .b [0b10000101#8, 0b11000001#8, 0b00000010#8, 0b00000011#8]) = .ok (.bRun3 5#7 0x010203#21) := by
  decide

/-- R150: 0x85 0xE0 0x20 0x00 0x00 is 0x200000; 0x85 0xE1 0x02 0x03 0x04 is 0x01020304. -/
theorem test_decode_b_run4 :
    decode (.record .b [0b10000101#8, 0b11100000#8, 0b00100000#8, 0b00000000#8, 0b00000000#8]) =
      .ok (.bRun4 5#7 0x200000#28) ∧
    decode (.record .b [0b10000101#8, 0b11100001#8, 0b00000010#8, 0b00000011#8, 0b00000100#8]) =
      .ok (.bRun4 5#7 0x01020304#28) := by decide

/-- R166: 0x03 0x89 is 905 black pixels (W4). -/
theorem test_decode_c_runk : decode (.record .c [0b00000011#8, 0b10001001#8]) = .ok (.cRunK 905#12) := by decide

/-- R167: 0xF0 0x02. -/
theorem test_decode_c_runw : decode (.record .c [0b11110000#8, 0b00000010#8]) = .ok (.cRunW 2#12) := by decide

/-- R168: 0x7F is 15 pixels of colour 7. -/
theorem test_decode_c_runm : decode (.record .c [0b01111111#8]) = .ok (.cRunM 7#4 15#4) := by decide

/-- R67 and R203: a reserved length prefix and a short record are no instruction. -/
theorem test_decode_rejects :
    decode (.record .b [0x85#8, 0xF0#8, 0x00#8, 0x00#8, 0x00#8]) = .error .reservedPrefix ∧
    decode (.record .b [0x85#8, 0x80#8]) = .error .truncated ∧ decode (.record .c [0x03#8]) = .error .truncated ∧
    decode (.record .a [0x01#8, 0x01#8]) = .error .trailingBytes := by decide

/-- The table words of opcode_table.json, most significant byte first. -/
theorem test_decode_table_words :
    decodeTableWord 32 0x00000011 = some .decA ∧ decodeTableWord 8 0x83 = some (.aRun true 3#7) ∧
    decodeTableWord 16 0x8803 = some (.bRun1 8#7 3#7) ∧ decodeTableWord 24 0x85BFFF = some (.bRun2 5#7 16383#14) ∧
    decodeTableWord 32 0x85C04000 = some (.bRun3 5#7 16384#21) ∧
    decodeTableWord 40 0x85E0200000 = some (.bRun4 5#7 0x200000#28) ∧
    decodeTableWord 16 0xF002 = some (.cRunW 2#12) := by decide

/-- A record placed where step fetches runs: 0xF002 writes two pixels of 0xF0 and moves IN_POS by 2 (R167). -/
theorem test_step_runs_placed_record :
    step (State.reset.withFetchWord 16 0xF002) =
      .next { State.reset.withFetchWord 16 0xF002 with
        obuf := [(0, 0xF0#8), (1, 0xF0#8)], outLen := 2#32, inPos := 2#32 } := by rfl

/-- A command word placed where step fetches runs: ENC.A at reset raises InvalidParameterError (R234). -/
theorem test_step_runs_placed_command :
    step ((idleState 0#16 1#16 []).withFetchWord 32 1) =
      .next { idleState 0#16 1#16 [] with status := endedWith .invalidParameter } := by rfl

/-! ### Command words -/

/-- R92: NOP after a job that ended leaves STATUS as it is. -/
theorem test_nop_keeps_status :
    exec .nop { idleState 3#16 1#16 [] with status := endedWith .overrun, outLen := 2#32 } =
      .next { idleState 3#16 1#16 [] with status := endedWith .overrun, outLen := 2#32 } := by rfl

/-- R93: each encode command starts its own job, with NPIX = 3 × 2. -/
theorem test_enc_a_starts :
    exec .encA { idleState 3#16 2#16 [] with accLen := 9#32 } = .next (jobState .enc .a 3#16 2#16 []) := by rfl
theorem test_enc_b_starts : exec .encB (idleState 3#16 2#16 []) = .next (jobState .enc .b 3#16 2#16 []) := by rfl
theorem test_enc_c_starts : exec .encC (idleState 3#16 2#16 []) = .next (jobState .enc .c 3#16 2#16 []) := by rfl

/-- R94: a raster of 65 pixels does not fit an IBUF of 64 bytes. -/
theorem test_enc_a_raster_too_large :
    exec .encA (idleState 5#16 13#16 []) =
      .next { idleState 5#16 13#16 [] with status := endedWith .invalidParameter, npix := 65#32 } := by rfl

/-- R95: a zero dimension with ZERO_DIM_OK = 1 ends ENC.B with no error. -/
theorem test_enc_b_zero_dimension :
    exec .encB { idleState 0#16 2#16 [] with mode := { strict := false, zeroDimOk := true } } =
      .next { idleState 0#16 2#16 [] with
        mode := { strict := false, zeroDimOk := true }, status := endedWith .noError, jobFmt := .b } := by rfl

/-- R94: OUT_CAP above OBUF_SIZE ends ENC.C. -/
theorem test_enc_c_capacity_too_large :
    exec .encC { idleState 1#16 1#16 [] with outCap := 65#32 } =
      .next { idleState 1#16 1#16 [] with
        outCap := 65#32, status := endedWith .invalidParameter, jobFmt := .c, npix := 1#32 } := by rfl

theorem test_dec_a_starts :
    exec .decA (idleState 3#16 1#16 [0x01#8, 0x82#8]) = .next (jobState .dec .a 3#16 1#16 [0x01#8, 0x82#8]) := by rfl
theorem test_dec_b_starts :
    exec .decB (idleState 3#16 1#16 [0x88#8, 0x03#8]) = .next (jobState .dec .b 3#16 1#16 [0x88#8, 0x03#8]) := by rfl
theorem test_dec_c_starts :
    exec .decC (idleState 2#16 1#16 [0x00#8, 0x01#8]) = .next (jobState .dec .c 2#16 1#16 [0x00#8, 0x01#8]) := by rfl

/-- R94: IN_LEN above IBUF_SIZE. -/
theorem test_dec_a_stream_too_long :
    exec .decA { idleState 3#16 1#16 [] with inLen := 65#32 } =
      .next { idleState 3#16 1#16 [] with
        inLen := 65#32, status := endedWith .invalidParameter, jobDir := .dec, npix := 3#32 } := by rfl

/-- R94: NPIX above OUT_CAP. -/
theorem test_dec_b_raster_too_large :
    exec .decB { idleState 3#16 1#16 [] with outCap := 2#32 } =
      .next { idleState 3#16 1#16 [] with
        outCap := 2#32, status := endedWith .invalidParameter, jobDir := .dec, jobFmt := .b, npix := 3#32 } := by rfl

/-- R90: a command while BUSY = 1 changes nothing. -/
theorem test_dec_c_ignored_while_busy :
    exec .decC (jobState .enc .a 3#16 1#16 []) = .next (jobState .enc .a 3#16 1#16 []) := by rfl

/-! ### Records -/

/-- R125: 0x83 writes FF FF FF. -/
theorem test_a_run_writes :
    exec (.aRun true 3#7) (jobState .dec .a 4#16 1#16 [0x83#8]) =
      .next { jobState .dec .a 4#16 1#16 [0x83#8] with
        obuf := [(0, 0xFF#8), (1, 0xFF#8), (2, 0xFF#8)], outLen := 3#32, inPos := 1#32 } := by rfl

/-- R207: a length of 126 with STRICT = 1. -/
theorem test_a_run_malformed :
    exec (.aRun true 126#7) { jobState .dec .a 4#16 1#16 [0xFE#8] with mode := { strict := true, zeroDimOk := false } } =
      .next { jobState .dec .a 4#16 1#16 [0xFE#8] with
        mode := { strict := true, zeroDimOk := false }, status := endedWith .malformedRecord } := by rfl

/-- R146: 0x7F writes 0xFE. -/
theorem test_b_pix_writes :
    exec (.bPix 127#7) (jobState .dec .b 1#16 1#16 [0x7F#8]) =
      .next { jobState .dec .b 1#16 1#16 [0x7F#8] with obuf := [(0, 0xFE#8)], outLen := 1#32, inPos := 1#32 } := by rfl

/-- R147: 0x88 0x03 writes 10 10 10. -/
theorem test_b_run1_writes :
    exec (.bRun1 8#7 3#7) (jobState .dec .b 3#16 1#16 [0x88#8, 0x03#8]) =
      .next { jobState .dec .b 3#16 1#16 [0x88#8, 0x03#8] with
        obuf := [(0, 0x10#8), (1, 0x10#8), (2, 0x10#8)], outLen := 3#32, inPos := 2#32 } := by rfl

/-- R204: a run of 4 in a raster of 3 pixels. -/
theorem test_b_run1_overruns :
    exec (.bRun1 8#7 4#7) (jobState .dec .b 3#16 1#16 [0x88#8, 0x04#8]) =
      .next { jobState .dec .b 3#16 1#16 [0x88#8, 0x04#8] with status := endedWith .overrun } := by rfl

/-- R148, R152: with STRICT = 0 a length below the tier's minimum is accepted. -/
theorem test_b_run2_short_length :
    exec (.bRun2 5#7 2#14) (jobState .dec .b 3#16 1#16 [0x85#8, 0x80#8, 0x02#8]) =
      .next { jobState .dec .b 3#16 1#16 [0x85#8, 0x80#8, 0x02#8] with
        obuf := [(0, 0x0A#8), (1, 0x0A#8)], outLen := 2#32, inPos := 3#32 } := by rfl

/-- R149, R207: the same length in B.RUN3 with STRICT = 1. -/
theorem test_b_run3_malformed :
    exec (.bRun3 5#7 0x3FFF#21) (bigState 0x3FFF 4) =
      .next { bigState 0x3FFF 4 with status := endedWith .malformedRecord } := by rfl

/-- R149: with STRICT = 0, one pixel. -/
theorem test_b_run3_writes :
    exec (.bRun3 5#7 1#21) (jobState .dec .b 3#16 1#16 [0x85#8, 0xC0#8, 0x00#8, 0x01#8]) =
      .next { jobState .dec .b 3#16 1#16 [0x85#8, 0xC0#8, 0x00#8, 0x01#8] with
        obuf := [(0, 0x0A#8)], outLen := 1#32, inPos := 4#32 } := by rfl

/-- R150, R203: fewer than 5 bytes left. -/
theorem test_b_run4_truncated :
    exec (.bRun4 5#7 0x200000#28) (bigState 0x200000 4) =
      .next { bigState 0x200000 4 with status := endedWith .truncatedStream } := by rfl

/-- R150: with STRICT = 0, a length of 0 writes nothing and takes its 5 bytes. -/
theorem test_b_run4_empty :
    exec (.bRun4 5#7 0#28) (jobState .dec .b 3#16 1#16 [0x85#8, 0xE0#8, 0x00#8, 0x00#8, 0x00#8]) =
      .next { jobState .dec .b 3#16 1#16 [0x85#8, 0xE0#8, 0x00#8, 0x00#8, 0x00#8] with inPos := 5#32 } := by rfl

/-- R166: one black pixel. -/
theorem test_c_runk_writes :
    exec (.cRunK 1#12) (jobState .dec .c 2#16 1#16 [0x00#8, 0x01#8]) =
      .next { jobState .dec .c 2#16 1#16 [0x00#8, 0x01#8] with
        obuf := [(0, 0x00#8)], outLen := 1#32, inPos := 2#32 } := by rfl

/-- R167: 0xF0 0x02 writes F0 F0. -/
theorem test_c_runw_writes :
    exec (.cRunW 2#12) (jobState .dec .c 2#16 1#16 [0xF0#8, 0x02#8]) =
      .next { jobState .dec .c 2#16 1#16 [0xF0#8, 0x02#8] with
        obuf := [(0, 0xF0#8), (1, 0xF0#8)], outLen := 2#32, inPos := 2#32 } := by rfl

/-- R168: 0x72 writes 70 70. -/
theorem test_c_runm_writes :
    exec (.cRunM 7#4 2#4) (jobState .dec .c 2#16 1#16 [0x72#8]) =
      .next { jobState .dec .c 2#16 1#16 [0x72#8] with
        obuf := [(0, 0x70#8), (1, 0x70#8)], outLen := 2#32, inPos := 1#32 } := by rfl

/-- R170: C.RUNM of length 0 with STRICT = 1. -/
theorem test_c_runm_malformed :
    exec (.cRunM 7#4 0#4) { jobState .dec .c 2#16 1#16 [0x70#8] with mode := { strict := true, zeroDimOk := false } } =
      .next { jobState .dec .c 2#16 1#16 [0x70#8] with
        mode := { strict := true, zeroDimOk := false }, status := endedWith .malformedRecord } := by rfl

/-! ### Flushes and the engine, with the results of 95_test_vectors.md -/

/-- W1, W2: runs of 125 pixels. -/
theorem test_flush_a : flushBytesA 1 125 = [0xFD#8] ∧ flushBytesA 0 125 = [0x7D#8] ∧ flushBytesA 1 1 = [0x81#8] := by
  decide

/-- W3, W13: the length tiers at their boundaries. -/
theorem test_flush_b :
    flushBytesB 5 1 = [0x05#8] ∧ flushBytesB 5 2 = [0x85#8, 0x02#8] ∧ flushBytesB 5 127 = [0x85#8, 0x7F#8] ∧
    flushBytesB 5 128 = [0x85#8, 0x80#8, 0x80#8] ∧ flushBytesB 5 16383 = [0x85#8, 0xBF#8, 0xFF#8] ∧
    flushBytesB 5 16384 = [0x85#8, 0xC0#8, 0x40#8, 0x00#8] ∧
    flushBytesB 5 0x1FFFFF = [0x85#8, 0xDF#8, 0xFF#8, 0xFF#8] ∧
    flushBytesB 5 0x200000 = [0x85#8, 0xE0#8, 0x20#8, 0x00#8, 0x00#8] ∧
    flushBytesB 5 0x0FFFFFFF = [0x85#8, 0xEF#8, 0xFF#8, 0xFF#8, 0xFF#8] := by decide

/-- W6, W8: one 2-byte record, and 16 pixels of colour 7 in two 1-byte records. -/
theorem test_flush_c :
    flushBytesC 15 300 = [0xF1#8, 0x2C#8] ∧ flushBytesC 0 1 = [0x00#8, 0x01#8] ∧ flushBytesC 8 1 = [0x81#8] ∧
    flushBytesC 7 16 = [0x7F#8, 0x71#8] := by decide

/-- R77: `RUN` of 126 Format A pixels, of 128 Format B pixels and of 16 Format C pixels. -/
theorem test_run_expansions :
    runRecordsA true 126 = [.aRun true 125#7, .aRun true 1#7] ∧ runRecordsB 5#7 128 = some [.bRun2 5#7 128#14] ∧
    runRecordsC 7#4 16 = [.cRunM 7#4 15#4, .cRunM 7#4 1#4] := by decide

/-- W11: the first pixel starts a run of 1 and emits nothing. -/
theorem test_engine_first_pixel :
    engineStep (jobState .enc .a 1#16 1#16 [0xFF#8]) =
      .next { jobState .enc .a 1#16 1#16 [0xFF#8] with accVal := 1#8, accLen := 1#32, inPos := 1#32 } := by rfl

/-! ### Witnesses: for each obligation with hypotheses, values that meet them -/

/-- An encode job of format A that has taken the first of its two pixels. -/
def midEncode : State :=
  { jobState .enc .a 2#16 1#16 [0xFF#8, 0xFF#8] with accVal := 1#8, accLen := 1#32, inPos := 1#32 }

theorem jobs_satisfy_the_invariant :
    midEncode.Inv ∧ (jobState .dec .a 3#16 1#16 [0x83#8]).Inv ∧ (idleState 3#16 1#16 []).Inv := by
  refine ⟨⟨?_, ?_, ?_, ?_, ?_⟩, ⟨?_, ?_, ?_, ?_, ?_⟩, ⟨?_, ?_, ?_, ?_, ?_⟩⟩ <;> decide

theorem witness_EveryStepKeepsTheInvariant :
    midEncode.Inv ∧ step midEncode = .next { midEncode with accLen := 2#32, inPos := 2#32 } :=
  ⟨jobs_satisfy_the_invariant.1, by rfl⟩

/-- A state for each of the two clauses: the engine goes on, and the host writes a buffer of the busy block. -/
theorem witness_TheMachineStopsOnlyOnHazards :
    midEncode.Inv ∧ ¬midEncode.HazardNext ∧
    ({ midEncode with program := [.bufWrite .ibuf 0 1#8], schedule := [.host] } : State).Inv ∧
    ({ midEncode with program := [.bufWrite .ibuf 0 1#8], schedule := [.host] } : State).HazardNext :=
  ⟨jobs_satisfy_the_invariant.1, by decide, jobs_satisfy_the_invariant.1, by decide⟩

theorem witness_ResetEventRestoresTheResetState :
    ({ midEncode with schedule := [.reset, .host] } : State).SizesOk ∧
    ({ midEncode with schedule := [.reset, .host] } : State).schedule = .reset :: [.host] := ⟨by decide, rfl⟩

theorem witness_RegisterReadsFollowTheMap :
    (idleState 3#16 1#16 []).status.busy = false ∧ midEncode.status.busy = true ∧ 11 ≤ (11#4).toNat ∧
    11 ≤ (15#4).toNat := by decide

theorem witness_HostReadsChangeNothingOfTheBlock :
    ({ midEncode with program := [.regRead 15#4] } : State).program = .regRead 15#4 :: [] ∧
    ({ midEncode with program := [.bufRead .obuf 64] } : State).program = .bufRead .obuf 64 :: [] ∧
    ({ midEncode with program := [.poll] } : State).program = .poll :: [] := ⟨rfl, rfl, rfl⟩

theorem witness_RegisterWritesAreIgnoredWhileBusy : midEncode.status.busy = true := by decide

theorem witness_ConfigurationWritesStoreTheirField : (idleState 3#16 1#16 []).status.busy = false := by decide

/-- The boundary slots of both ranges. -/
theorem witness_ReservedAndReadOnlyRegistersIgnoreWrites :
    (1#4 = 1#4 ∨ 8 ≤ (1#4).toNat) ∧ (8#4 = 1#4 ∨ 8 ≤ (8#4).toNat) ∧ (15#4 = 1#4 ∨ 8 ≤ (15#4).toNat) ∧
    11 ≤ (11#4).toNat ∧ 11 ≤ (15#4).toNat := by decide

/-- The last address of a buffer of 64 bytes, and the first beyond it. -/
theorem witness_HostWriteThenHostRead :
    (idleState 3#16 1#16 []).status.busy = false ∧ 63 < (idleState 3#16 1#16 []).ibufSize ∧
    (idleState 3#16 1#16 []).obufSize ≤ 64 ∧ (Buf.obuf, 63) ≠ (Buf.ibuf, 63) := by decide

theorem witness_BufferWritesWhileBusyAreHazards : midEncode.status.busy = true := by decide

/-- A raster of 64 pixels fills IBUF. -/
theorem witness_EncodeCommandsStartAJob :
    (idleState 8#16 8#16 []).status.busy = false ∧
    (idleState 8#16 8#16 []).outCap.toNat ≤ (idleState 8#16 8#16 []).obufSize ∧
    (idleState 8#16 8#16 []).width ≠ 0#16 ∧ (idleState 8#16 8#16 []).height ≠ 0#16 ∧
    (idleState 8#16 8#16 []).width.toNat * (idleState 8#16 8#16 []).height.toNat ≤ (idleState 8#16 8#16 []).ibufSize ∧
    (Instr.encC, Format.c) ∈ [(Instr.encA, Format.a), (.encB, .b), (.encC, .c)] := by decide

/-- A stream of 64 bytes fills IBUF, a raster of 64 pixels fills OUT_CAP. -/
theorem witness_DecodeCommandsStartAJob :
    ({ idleState 8#16 8#16 [] with inLen := 64#32 } : State).status.busy = false ∧
    ({ idleState 8#16 8#16 [] with inLen := 64#32 } : State).outCap.toNat ≤ (idleState 8#16 8#16 []).obufSize ∧
    (idleState 8#16 8#16 []).width ≠ 0#16 ∧ (idleState 8#16 8#16 []).height ≠ 0#16 ∧
    ({ idleState 8#16 8#16 [] with inLen := 64#32 } : State).inLen.toNat ≤ (idleState 8#16 8#16 []).ibufSize ∧
    (idleState 8#16 8#16 []).width.toNat * (idleState 8#16 8#16 []).height.toNat ≤
      (idleState 8#16 8#16 []).outCap.toNat ∧
    (Instr.decC, Format.c) ∈ [(Instr.decA, Format.a), (.decB, .b), (.decC, .c)] := by decide

theorem witness_StartChecksRunInOrder :
    (idleState 8#16 8#16 []).status.busy = false ∧
    (Instr.decB, Dir.dec, Format.b) ∈ [(Instr.encA, Dir.enc, Format.a), (.encB, .enc, .b), (.encC, .enc, .c),
      (.decA, .dec, .a), (.decB, .dec, .b), (.decC, .dec, .c)] := by decide

theorem witness_ZeroDimensionJobEndsAtOnce :
    ({ idleState 0#16 1#16 [] with mode := { strict := false, zeroDimOk := true } } : State).status.busy = false ∧
    (idleState 0#16 1#16 []).outCap.toNat ≤ (idleState 0#16 1#16 []).obufSize ∧
    ((idleState 0#16 1#16 []).width = 0#16 ∨ (idleState 0#16 1#16 []).height = 0#16) ∧
    ({ idleState 0#16 1#16 [] with mode := { strict := false, zeroDimOk := true } } : State).mode.zeroDimOk = true ∧
    Instr.decC ∈ [Instr.encA, .encB, .encC, .decA, .decB, .decC] := by decide

/-- The words beside the commands. -/
theorem witness_ReservedCommandWordsAreIllegal :
    (idleState 3#16 1#16 []).status.busy = false ∧
    0x04#32 ∉ [0x00#32, 0x01#32, 0x02#32, 0x03#32, 0x11#32, 0x12#32, 0x13#32] ∧
    0x10#32 ∉ [0x00#32, 0x01#32, 0x02#32, 0x03#32, 0x11#32, 0x12#32, 0x13#32] ∧
    0x14#32 ∉ [0x00#32, 0x01#32, 0x02#32, 0x03#32, 0x11#32, 0x12#32, 0x13#32] := by decide

/-- A fresh block, and the same block after a job that failed. -/
theorem witness_JobStartForgetsEarlierJobs :
    (idleState 3#16 1#16 []).status.busy = false ∧
    ({ idleState 3#16 1#16 [] with
      status := endedWith .overrun, outLen := 2#32, inPos := 1#32, jobDir := .dec, jobFmt := .c, npix := 9#32
      accVal := 7#8, accLen := 5#32, obuf := [(0, 1#8)] } : State).status.busy = false ∧
    Instr.encA ∈ [Instr.encA, .encB, .encC, .decA, .decB, .decC] := by decide

theorem witness_DecodingAnEncodingGivesTheInstruction : Instr.wellFormed (.cRunM 14#4 0#4) = true := by decide

theorem witness_EncodingADecodingGivesTheCode :
    decode (.record .c [0xEF#8]) = .ok (.cRunM 14#4 15#4) := by decide

/-- A run of 125 pixels that fills the raster, with STRICT = 1 and its byte the last of the stream. -/
theorem witness_FormatARecordWritesItsRun :
    (bigState 125 1).inPos.toNat + 1 ≤ (bigState 125 1).inLen.toNat ∧
    ((bigState 125 1).mode.strict = true → 1 ≤ (125#7).toNat ∧ (125#7).toNat ≤ 125) ∧
    (bigState 125 1).outLen.toNat + (125#7).toNat ≤ (bigState 125 1).npix.toNat ∧
    (bigState 125 1).npix.toNat ≤ (bigState 125 1).obufSize := by decide

/-- Each record at its tier's shortest canonical length, which fills the raster, with the stream's last bytes. -/
theorem witness_FormatBRecordsWriteTheirRun :
    (bigState 1 1).npix.toNat ≤ (bigState 1 1).obufSize ∧
    ((bigState 1 1).inPos.toNat + 1 ≤ (bigState 1 1).inLen.toNat ∧
      (bigState 1 1).outLen.toNat + 1 ≤ (bigState 1 1).npix.toNat) ∧
    ((bigState 2 2).inPos.toNat + 2 ≤ (bigState 2 2).inLen.toNat ∧ 2 ≤ (2#7).toNat ∧
      (bigState 2 2).outLen.toNat + (2#7).toNat ≤ (bigState 2 2).npix.toNat) ∧
    ((bigState 0x80 3).inPos.toNat + 3 ≤ (bigState 0x80 3).inLen.toNat ∧ 0x80 ≤ (0x80#14).toNat ∧
      (bigState 0x80 3).outLen.toNat + (0x80#14).toNat ≤ (bigState 0x80 3).npix.toNat) ∧
    ((bigState 0x4000 4).inPos.toNat + 4 ≤ (bigState 0x4000 4).inLen.toNat ∧ 0x4000 ≤ (0x4000#21).toNat ∧
      (bigState 0x4000 4).outLen.toNat + (0x4000#21).toNat ≤ (bigState 0x4000 4).npix.toNat) ∧
    (bigState 0x200000 5).inPos.toNat + 5 ≤ (bigState 0x200000 5).inLen.toNat ∧ 0x200000 ≤ (0x200000#28).toNat ∧
      (bigState 0x200000 5).outLen.toNat + (0x200000#28).toNat ≤ (bigState 0x200000 5).npix.toNat := by decide

theorem witness_FormatCRecordsWriteTheirRun :
    (bigState 4095 2).npix.toNat ≤ (bigState 4095 2).obufSize ∧
    ((bigState 4095 2).inPos.toNat + 2 ≤ (bigState 4095 2).inLen.toNat ∧ (4095#12).toNat ≠ 0 ∧
      (bigState 4095 2).outLen.toNat + (4095#12).toNat ≤ (bigState 4095 2).npix.toNat) ∧
    (bigState 15 1).inPos.toNat + 1 ≤ (bigState 15 1).inLen.toNat ∧ (15#4).toNat ≠ 0 ∧
      (bigState 15 1).outLen.toNat + (15#4).toNat ≤ (bigState 15 1).npix.toNat := by decide

/-- One byte short; a tier's longest length that is not canonical; one pixel over. -/
theorem witness_RecordErrorsComeInOrder :
    1 ≤ (Instr.bRun2 5#7 0x80#14).recordLength ∧
    (bigState 0x80 2).inLen.toNat < (bigState 0x80 2).inPos.toNat + (Instr.bRun2 5#7 0x80#14).recordLength ∧
    ((bigState 0x80 3).inPos.toNat + (Instr.bRun2 5#7 0x7F#14).recordLength ≤ (bigState 0x80 3).inLen.toNat ∧
      (bigState 0x80 3).mode.strict = true ∧ (Instr.bRun2 5#7 0x7F#14).canonical = false) ∧
    (bigState 0x80 3).inPos.toNat + (Instr.bRun2 5#7 0x81#14).recordLength ≤ (bigState 0x80 3).inLen.toNat ∧
      (Instr.bRun2 5#7 0x81#14).canonical = true ∧
      (bigState 0x80 3).npix.toNat < (bigState 0x80 3).outLen.toNat + (Instr.bRun2 5#7 0x81#14).runLength := by decide

theorem witness_EngineStepsExactlyWhileBusy :
    (idleState 3#16 1#16 []).status.busy = false ∧ (midEncode.status.busy = true ∧ midEncode.jobDir = .enc) ∧
    (bigState 1 1).status.busy = true ∧ (bigState 1 1).jobDir = .dec := by decide

theorem witness_FirstPixelStartsARunOfOne :
    ({ midEncode with accLen := 0#32 } : State).accLen = 0#32 ∧ midEncode.accVal.toNat ≤ 1 := by decide

/-- The last pixel of a raster that fills IBUF, with 124 pixels pending. -/
theorem witness_FormatAPixelStep :
    ({ jobState .enc .a 8#16 8#16 [] with inPos := 63#32, accLen := 124#32 } : State).Runs .enc .a ∧
    (63#32).toNat < (jobState .enc .a 8#16 8#16 []).npix.toNat ∧
    (jobState .enc .a 8#16 8#16 []).npix.toNat ≤ (jobState .enc .a 8#16 8#16 []).ibufSize ∧
    (jobState .enc .a 8#16 8#16 []).outLen.toNat ≤ (jobState .enc .a 8#16 8#16 []).outCap.toNat ∧
    (jobState .enc .a 8#16 8#16 []).outCap.toNat ≤ (jobState .enc .a 8#16 8#16 []).obufSize ∧
    (124#32).toNat ≤ 124 := by decide

/-- The last pixel of a raster that fills IBUF, with OUT_LEN at OUT_CAP. -/
theorem witness_FormatBPixelStep :
    ({ jobState .enc .b 8#16 8#16 [] with inPos := 63#32, outLen := 64#32 } : State).Runs .enc .b ∧
    (63#32).toNat < (jobState .enc .b 8#16 8#16 []).npix.toNat ∧
    (jobState .enc .b 8#16 8#16 []).npix.toNat ≤ (jobState .enc .b 8#16 8#16 []).ibufSize ∧
    (64#32).toNat ≤ (jobState .enc .b 8#16 8#16 []).outCap.toNat ∧
    (jobState .enc .b 8#16 8#16 []).outCap.toNat ≤ (jobState .enc .b 8#16 8#16 []).obufSize := by decide

theorem witness_FormatCPixelStep :
    ({ jobState .enc .c 8#16 8#16 [] with inPos := 63#32, outLen := 64#32 } : State).Runs .enc .c ∧
    (63#32).toNat < (jobState .enc .c 8#16 8#16 []).npix.toNat ∧
    (jobState .enc .c 8#16 8#16 []).npix.toNat ≤ (jobState .enc .c 8#16 8#16 []).ibufSize ∧
    (64#32).toNat ≤ (jobState .enc .c 8#16 8#16 []).outCap.toNat ∧
    (jobState .enc .c 8#16 8#16 []).outCap.toNat ≤ (jobState .enc .c 8#16 8#16 []).obufSize := by decide

/-- The raster of two pixels is exhausted, with two pixels pending. -/
theorem witness_FinalEncodeStepFlushesAndFinishes :
    ({ midEncode with accLen := 2#32, inPos := 2#32 } : State).Runs .enc .a ∧
    midEncode.npix.toNat ≤ (2#32).toNat ∧ midEncode.outLen.toNat ≤ midEncode.outCap.toNat ∧
    midEncode.outCap.toNat ≤ midEncode.obufSize ∧ [0x82#8] = flushBytesA (midEncode.accVal.toNat % 2) (2#32).toNat := by
  decide

/-- The boundaries of the state bit, the run, the colour and the tiers; test_flush_a and test_flush_b give the bytes. -/
theorem witness_FlushBytesByLength :
    (1 ≤ 1 ∧ 1 ≤ 1 ∧ 125 ≤ 125) ∧ 127 < 128 ∧ (2 ≤ 2 ∧ 0x7F ≤ 0x7F) ∧ (0x80 ≤ 0x80 ∧ 0x3FFF ≤ 0x3FFF) ∧
    (0x4000 ≤ 0x4000 ∧ 0x1FFFFF ≤ 0x1FFFFF) ∧ 0x200000 ≤ 0x200000 ∧ 0x0FFFFFFF ≤ 0x0FFFFFFF := by decide

theorem witness_FlushesEmitTheRunExpansion :
    (1 ≤ 125 ∧ 125 ≤ 125) ∧ runRecordsB 127#7 0x0FFFFFFF = some [.bRun4 127#7 0x0FFFFFFF#28] := by decide

theorem witness_RunExpansionsCoverTheRun :
    Instr.aRun true 1#7 ∈ runRecordsA true 126 ∧ runRecordsB 127#7 1 = some [.bPix 127#7] ∧
    Instr.cRunM 14#4 1#4 ∈ runRecordsC 14#4 16 := by decide

theorem witness_QuantizersFollowTheirFormulas : 256 ≤ (256#9).toNat ∧ 256 ≤ (511#9).toNat := by decide

theorem witness_FilledRasterEndsTheDecodeJob :
    (bigState 0 3).status.busy = true ∧ (bigState 0 3).jobDir = .dec ∧
    (bigState 0 3).npix.toNat ≤ (bigState 0 3).outLen.toNat := by decide

theorem witness_FormatARecordStep :
    (jobState .dec .a 3#16 1#16 [0x83#8]).Runs .dec .a ∧
    (jobState .dec .a 3#16 1#16 [0x83#8]).outLen.toNat < (jobState .dec .a 3#16 1#16 [0x83#8]).npix.toNat ∧
    (jobState .dec .a 3#16 1#16 [0x83#8]).inLen.toNat ≤ (jobState .dec .a 3#16 1#16 [0x83#8]).ibufSize ∧
    (jobState .dec .a 3#16 1#16 [0x83#8]).npix.toNat ≤ (jobState .dec .a 3#16 1#16 [0x83#8]).obufSize := by decide

theorem witness_FormatBRecordStep :
    ((bigState 1 1).Runs .dec .b ∧ (bigState 1 1).outLen.toNat < (bigState 1 1).npix.toNat ∧
      (bigState 1 1).inLen.toNat ≤ (bigState 1 1).ibufSize ∧ (bigState 1 1).npix.toNat ≤ (bigState 1 1).obufSize) ∧
    ∀ k, (fun k => ((bigState 1 1).ibufByte ((bigState 1 1).inPos.toNat + k)).toNat) k =
      ((bigState 1 1).ibufByte ((bigState 1 1).inPos.toNat + k)).toNat := ⟨by decide, fun _ => rfl⟩

theorem witness_FormatCRecordStep :
    ((jobState .dec .c 2#16 1#16 [0x00#8, 0x01#8]).Runs .dec .c ∧
      (jobState .dec .c 2#16 1#16 [0x00#8, 0x01#8]).outLen.toNat <
        (jobState .dec .c 2#16 1#16 [0x00#8, 0x01#8]).npix.toNat ∧
      (jobState .dec .c 2#16 1#16 [0x00#8, 0x01#8]).inLen.toNat ≤
        (jobState .dec .c 2#16 1#16 [0x00#8, 0x01#8]).ibufSize ∧
      (jobState .dec .c 2#16 1#16 [0x00#8, 0x01#8]).npix.toNat ≤
        (jobState .dec .c 2#16 1#16 [0x00#8, 0x01#8]).obufSize) ∧
    ∀ k, (fun k => ((jobState .dec .c 2#16 1#16 [0x00#8, 0x01#8]).ibufByte (0 + k)).toNat) k =
      ((jobState .dec .c 2#16 1#16 [0x00#8, 0x01#8]).ibufByte
        ((jobState .dec .c 2#16 1#16 [0x00#8, 0x01#8]).inPos.toNat + k)).toNat := ⟨by decide, fun _ => rfl⟩

theorem witness_EngineStepFrame :
    midEncode.Inv ∧ engineStep midEncode = .next { midEncode with accLen := 2#32, inPos := 2#32 } :=
  ⟨jobs_satisfy_the_invariant.1, by rfl⟩

theorem witness_EngineNeverReadsItsOutput :
    (jobState .dec .a 3#16 1#16 [0x83#8]).Inv ∧
    engineStep (jobState .dec .a 3#16 1#16 [0x83#8]) =
      .next { jobState .dec .a 3#16 1#16 [0x83#8] with
        obuf := [(0, 0xFF#8), (1, 0xFF#8), (2, 0xFF#8)], outLen := 3#32, inPos := 1#32 } :=
  ⟨jobs_satisfy_the_invariant.2.1, by rfl⟩

/-- A job that ends in its start step, and one that ends in an engine step. -/
theorem witness_JobsEndWithTheirErrorCodes :
    ((idleState 0#16 1#16 []).status.busy = false ∧ Instr.encA ∈ [Instr.encA, .encB, .encC, .decA, .decB, .decC] ∧
      exec .encA (idleState 0#16 1#16 []) =
        .next { idleState 0#16 1#16 [] with status := endedWith .invalidParameter }) ∧
    ((jobState .dec .a 2#16 1#16 [0x83#8]).Inv ∧ (jobState .dec .a 2#16 1#16 [0x83#8]).status.busy = true ∧
      engineStep (jobState .dec .a 2#16 1#16 [0x83#8]) =
        .next { jobState .dec .a 2#16 1#16 [0x83#8] with status := endedWith .overrun }) := by
  refine ⟨⟨by decide, by decide, by rfl⟩, ⟨?_, ?_, ?_, ?_, ?_⟩, by decide, by rfl⟩ <;> decide

theorem witness_EveryJobEnds :
    (midEncode.Inv ∧ midEncode.schedule = [] ∧ midEncode.program = [] ∧ midEncode.status.busy = true ∧
      midEncode.jobDir = .enc) ∧
    (jobState .dec .a 3#16 1#16 [0x83#8]).Inv ∧ (jobState .dec .a 3#16 1#16 [0x83#8]).schedule = [] ∧
      (jobState .dec .a 3#16 1#16 [0x83#8]).program = [] ∧
      (jobState .dec .a 3#16 1#16 [0x83#8]).status.busy = true ∧ (jobState .dec .a 3#16 1#16 [0x83#8]).jobDir = .dec :=
  ⟨⟨jobs_satisfy_the_invariant.1, rfl, rfl, rfl, rfl⟩, jobs_satisfy_the_invariant.2.1, rfl, rfl, rfl, rfl⟩

/-- A raster of one pixel, FF: the encode jobs of the three formats take two steps and the decode jobs read their output
(W10, W3, W14). -/
theorem witness_DecodingAnEncodedRasterQuantizesIt :
    ((jobState .enc .a 1#16 1#16 [0xFF#8]).Inv ∧ (jobState .dec .a 1#16 1#16 [0x81#8]).Inv ∧
      steps 2 (jobState .enc .a 1#16 1#16 [0xFF#8]) =
        .next { jobState .enc .a 1#16 1#16 [0xFF#8] with
          status := endedWith .noError, accVal := 1#8, accLen := 1#32, inPos := 1#32, outLen := 1#32
          obuf := [(0, 0x81#8)] }) ∧
    ((jobState .enc .b 1#16 1#16 [0xFF#8]).Inv ∧ (jobState .dec .b 1#16 1#16 [0x7F#8]).Inv ∧
      steps 2 (jobState .enc .b 1#16 1#16 [0xFF#8]) =
        .next { jobState .enc .b 1#16 1#16 [0xFF#8] with
          status := endedWith .noError, accVal := 0x7F#8, accLen := 1#32, inPos := 1#32, outLen := 1#32
          obuf := [(0, 0x7F#8)] }) ∧
    (jobState .enc .c 1#16 1#16 [0xFF#8]).Inv ∧ (jobState .dec .c 1#16 1#16 [0xF0#8, 0x01#8]).Inv ∧
      steps 2 (jobState .enc .c 1#16 1#16 [0xFF#8]) =
        .next { jobState .enc .c 1#16 1#16 [0xFF#8] with
          status := endedWith .noError, accVal := 0x0F#8, accLen := 0#32, inPos := 1#32, outLen := 2#32
          obuf := [(0, 0xF0#8), (1, 0x01#8)] } := by
  refine ⟨⟨⟨?_, ?_, ?_, ?_, ?_⟩, ⟨?_, ?_, ?_, ?_, ?_⟩, by rfl⟩, ⟨⟨?_, ?_, ?_, ?_, ?_⟩, ⟨?_, ?_, ?_, ?_, ?_⟩, by rfl⟩,
    ⟨?_, ?_, ?_, ?_, ?_⟩, ⟨?_, ?_, ?_, ?_, ?_⟩, by rfl⟩ <;> decide

/-- The remaining hypotheses of the round trip, for the Format A pair: the decode job's stream is the encode job's output. -/
theorem witness_DecodingAnEncodedRasterQuantizesIt_stream :
    (jobState .enc .a 1#16 1#16 [0xFF#8]).Runs .enc .a ∧ (jobState .dec .a 1#16 1#16 [0x81#8]).Runs .dec .a ∧
    (jobState .dec .a 1#16 1#16 [0x81#8]).npix = (jobState .enc .a 1#16 1#16 [0xFF#8]).npix ∧
    (jobState .dec .a 1#16 1#16 [0x81#8]).inLen = 1#32 ∧
    ∀ a, a < 1 → (jobState .dec .a 1#16 1#16 [0x81#8]).ibufByte a =
      ({ jobState .enc .a 1#16 1#16 [0xFF#8] with obuf := [(0, 0x81#8)] } : State).obufByte a :=
  ⟨by decide, by decide, by decide, by decide, fun a h => by rw [Nat.lt_one_iff.mp h]; rfl⟩

/-- An idle block whose host is about to write NOP to CMD. -/
theorem witness_ResultsStayUntilTheNextCommand :
    ({ idleState 3#16 1#16 [] with program := [.regWrite 0#4 0#32] } : State).status.busy = false ∧
    (nextAgent { idleState 3#16 1#16 [] with program := [.regWrite 0#4 0#32] }).1 ≠ .reset ∧
    (∀ a v rest, ({ idleState 3#16 1#16 [] with program := [.regWrite 0#4 0#32] } : State).program ≠
      .bufWrite .obuf a v :: rest) ∧
    ∀ v rest, ({ idleState 3#16 1#16 [] with program := [.regWrite 0#4 0#32] } : State).program =
      .regWrite 0#4 v :: rest → v = 0#32 := by
  refine ⟨by decide, by decide, fun a v rest h => ?_, fun v rest h => ?_⟩
  · cases h
  · cases h; rfl

theorem witness_HostStepsLeaveARunningJobAlone :
    ({ midEncode with program := [.regWrite 0#4 1#32] } : State).status.busy = true ∧
    bufWriteNext ({ midEncode with program := [.regWrite 0#4 1#32] } : State).program = false := by decide

theorem witness_TheScheduleDecidesWhoSteps :
    ({ midEncode with schedule := [.host] } : State).schedule = .host :: [] ∧
    ({ midEncode with schedule := [.engine] } : State).schedule = .engine :: [] ∧
    ({ midEncode with schedule := [.reset] } : State).schedule = .reset :: [] ∧
    (midEncode.schedule = [] ∧ midEncode.status.busy = true) ∧
    (idleState 3#16 1#16 []).schedule = [] ∧ (idleState 3#16 1#16 []).status.busy = false := by decide

theorem witness_AStepRunsTheDecodedCommand :
    ({ idleState 3#16 1#16 [] with program := [.regWrite 0#4 0x13#32] } : State).schedule = [] ∧
    ({ idleState 3#16 1#16 [] with program := [.regWrite 0#4 0x13#32] } : State).status.busy = false ∧
    ({ idleState 3#16 1#16 [] with program := [.regWrite 0#4 0x13#32] } : State).program =
      .regWrite 0#4 0x13#32 :: [] ∧
    decode (.command 0x13#32) = .ok .decC := by decide

/-- The record takes the last two bytes of the stream. -/
theorem witness_AStepRunsTheDecodedRecord :
    ((jobState .dec .c 2#16 1#16 [0xF0#8, 0x02#8]).schedule = [] ∧
      (jobState .dec .c 2#16 1#16 [0xF0#8, 0x02#8]).Runs .dec .c ∧
      (jobState .dec .c 2#16 1#16 [0xF0#8, 0x02#8]).outLen.toNat <
        (jobState .dec .c 2#16 1#16 [0xF0#8, 0x02#8]).npix.toNat ∧
      (jobState .dec .c 2#16 1#16 [0xF0#8, 0x02#8]).inLen.toNat ≤
        (jobState .dec .c 2#16 1#16 [0xF0#8, 0x02#8]).ibufSize) ∧
    (Instr.wellFormed (.cRunW 2#12) = true ∧ encode (.cRunW 2#12) = .record .c (recordBytes (.cRunW 2#12)) ∧
      (jobState .dec .c 2#16 1#16 [0xF0#8, 0x02#8]).inPos.toNat + (Instr.cRunW 2#12).recordLength ≤
        (jobState .dec .c 2#16 1#16 [0xF0#8, 0x02#8]).inLen.toNat) ∧
    ∀ k, k < (Instr.cRunW 2#12).recordLength →
      (jobState .dec .c 2#16 1#16 [0xF0#8, 0x02#8]).ibufByte (0 + k) = (recordBytes (.cRunW 2#12)).getD k 0#8 :=
  ⟨by decide, by decide, by decide⟩

/-- The last address of a buffer of 64 bytes and the first beyond it, idle and busy. -/
theorem witness_BufferReadsFollowTheMap :
    63 < (idleState 3#16 1#16 []).ibufSize ∧ (idleState 3#16 1#16 []).ibufSize ≤ 64 ∧
    63 < (idleState 3#16 1#16 []).obufSize ∧ (idleState 3#16 1#16 []).obufSize ≤ 64 ∧
    (idleState 3#16 1#16 []).status.busy = false ∧
    63 < midEncode.obufSize ∧ midEncode.obufSize ≤ 64 ∧ midEncode.status.busy = true := by decide

/-- R48: a read at OBUF_SIZE is 0x00 also while BUSY = 1, and takes no free value. -/
theorem test_read_beyond_obuf_while_busy :
    hostStep { midEncode with program := [.bufRead .obuf 64] } = .next { midEncode with replies := [.byte 0x00#8] } := by
  rfl

end Sys2Proof.Machine
end

section
/-! SUPPORT. The invariant of the machine (O2, O3) and the scheduler (O49). State.Inv speaks of the block only, so host
operations that answer keep it for free; a job's start establishes it from the start checks; an encoder's step is
one move in all three formats: it emits bytes that fit and sets the accumulator. -/

namespace Sys2Proof.Machine

/-! ### Ended jobs and the host's fields -/

/-- After `raise` the job does not run, so only the sizes, the buffers and the accumulator have to be in order. -/
theorem State.raise_inv (e : ErrCode) {s : State} (hz : s.SizesOk) (hb : s.BuffersOk) (ha : s.AccOk) :
    (s.raise e).Inv :=
  ⟨hz, hb, ⟨fun ⟨hbusy, _⟩ => Bool.false_ne_true hbusy, fun h => absurd h.symm Bool.false_ne_true⟩, ha,
    fun h => absurd h Bool.false_ne_true⟩

theorem State.finish_inv {s : State} (hz : s.SizesOk) (hb : s.BuffersOk) (ha : s.AccOk) : s.finish.Inv :=
  State.raise_inv .noError hz hb ha

/-- The invariant says nothing of the host's program and replies, the schedule and the free-value counter. -/
theorem State.inv_hostFields {s : State} (h : s.Inv) (p : List HostOp) (g : List Agent) (r : List Reply) (n : Nat) :
    ({ s with program := p, schedule := g, replies := r, freeReads := n } : State).Inv := h

/-! ### Reset -/

theorem State.reset_inv : State.reset.Inv := by
  have hi : Config.ibufSizePred.val < 4294967295 := Config.ibufSizePred.isLt
  have ho : Config.obufSizePred.val < 4294967295 := Config.obufSizePred.isLt
  have hz : State.reset.SizesOk := by
    simp only [State.SizesOk, State.reset, Config.ibufSize, Config.obufSize]
    omega
  exact ⟨hz, State.reset_buffersOk, by decide, by decide, fun h => absurd h Bool.false_ne_true⟩

/-- A reset event keeps the instance's sizes and gives the rest its value of `State.reset`. -/
theorem State.resetEvent_inv {s : State} (hz : s.SizesOk) : s.resetEvent.Inv := by
  obtain ⟨-, -, hstatus, hacc, -⟩ := State.reset_inv
  exact ⟨hz, s.resetEvent_buffersOk, hstatus, hacc, fun h => absurd h Bool.false_ne_true⟩

/-! ### Commands -/

/-- A job's accumulator and counters, all 0 at its start, are in range; that the job fits its buffers is what the start
checks ask (R94). -/
theorem State.startJob_inv (d : Dir) (f : Format) {s : State} (h : s.Inv) : (s.startJob d f).Inv := by
  obtain ⟨hz, hb, -, -, -⟩ := h
  have ha : (s.accept.latchJob d f).AccOk := by
    simp [State.AccOk, capA, ceilingB]
  rcases (s.accept.latchJob d f).startChecks_cases with hs | ⟨hs, -⟩ | ⟨hs, hcap, hw, hh, henc, hdec⟩ <;>
    rw [State.startJob, hs]
  · exact State.raise_inv _ hz hb ha
  · exact State.finish_inv hz hb ha
  · refine ⟨hz, hb, ⟨by simp, by simp⟩, ha, fun _ => ⟨rfl, hw, hh, hcap, fun hd => ?_, fun hd => ?_⟩⟩
    · exact ⟨henc hd, Nat.zero_le _, Nat.zero_le _, Nat.zero_le _, fun _ => (by decide : 0 < capA)⟩
    · obtain ⟨hin, hpix⟩ := hdec hd
      exact ⟨hin, hpix, Nat.zero_le _, Nat.zero_le _⟩

/-- A configuration write is harmless to an idle block: it touches no size, no buffer and no accumulator. -/
theorem State.setConfig_inv (i : BitVec 4) (v : Word) {s : State} (h : s.Inv) (hi : s.status.busy = false) :
    (s.setConfig i v).Inv := by
  obtain ⟨hz, hb, hs, ha, -⟩ := h
  rw [State.setConfig_frame]
  exact ⟨hz, hb, hs, ha, fun hbusy => absurd (hi.symm.trans hbusy) Bool.false_ne_true⟩

theorem State.storeByte_inv (b : Buf) (a : Nat) (v : Byte) {s : State} (h : s.Inv) (hi : s.status.busy = false) :
    (s.storeByte b a v).Inv := by
  obtain ⟨hz, hb, hs, ha, -⟩ := h
  have hb' := State.storeByte_buffersOk b a v hb
  rw [State.storeByte_frame] at hb' ⊢
  exact ⟨hz, hb', hs, ha, fun hbusy => absurd (hi.symm.trans hbusy) Bool.false_ne_true⟩

/-! ### The host's step -/

theorem regWrite_inv {i : BitVec 4} {v : Word} {s t : State} (h : s.Inv) (hst : regWrite i v s = .next t) : t.Inv := by
  cases hbusy : s.status.busy with
  | true =>
    rw [regWrite_busy hbusy] at hst
    cases hst
    exact h
  | false =>
    rcases regWrite_cases hbusy i v with ⟨-, -, hw⟩ | ⟨d, f, -, hw⟩ | ⟨-, hw⟩ | ⟨-, hw⟩ <;>
      rw [hw] at hst <;> cases hst
    · exact h
    · exact State.startJob_inv d f h
    · obtain ⟨hz, hb, -, ha, -⟩ := h
      exact State.raise_inv _ hz hb ha
    · exact State.setConfig_inv i v h hbusy

/-- A host write answers a next state only while BUSY = 0 (R237, R238). -/
theorem hostWrite_inv {b : Buf} {a : Nat} {v : Byte} {s t : State} (h : s.Inv) (hst : hostWrite b a v s = .next t) :
    t.Inv := by
  cases hbusy : s.status.busy with
  | true => simp [hostWrite, hbusy] at hst
  | false =>
    rw [hostWrite, if_neg (by rw [hbusy]; decide)] at hst
    cases hst
    exact State.storeByte_inv b a v h hbusy

theorem runHostOp_inv {op : HostOp} {s t : State} (h : s.Inv) (hst : runHostOp op s = .next t) : t.Inv := by
  cases op with
  | regRead i => cases hst; exact h
  | regWrite i v => exact regWrite_inv h hst
  | bufRead b a => cases hst; exact h
  | bufWrite b a v => exact hostWrite_inv h hst
  | poll =>
    simp only [runHostOp] at hst
    split at hst <;> cases hst <;> exact h

theorem hostStep_inv {s t : State} (h : s.Inv) (hst : hostStep s = .next t) : t.Inv := by
  unfold hostStep at hst
  split at hst
  · cases hst
    exact h
  · exact runHostOp_inv (State.inv_hostFields h _ _ _ _) hst

/-! ### What an encoder's step does -/

theorem stateByte_toNat_le (on : Bool) : (stateByte on).toNat ≤ 1 := by
  cases on <;> decide

theorem quantB_toNat_lt (p : Byte) : (quantB p).toNat < 128 := by
  have hp := p.isLt
  simp only [quantB, BitVec.toNat_ushiftRight, Nat.shiftRight_eq_div_pow]
  omega

theorem quantC_toNat_lt (p : Byte) : (quantC p).toNat < 16 := by
  have hp := p.isLt
  simp only [quantC, BitVec.toNat_ushiftRight, Nat.shiftRight_eq_div_pow]
  omega

/-- u is s after emitting bytes up to OUT_CAP at most and giving the accumulator values in its format's range, which
lengthen its run by one pixel at most: what a pixel or a flush does to the state in any format, to its end or up to the error
that ends the job. -/
def State.EncodesTo (s u : State) : Prop :=
  ∃ bs v n, u = (s.appendBytes bs).setAcc v n ∧ s.outLen.toNat + bs.length ≤ s.outCap.toNat ∧
    (s.setAcc v n).AccOk ∧ n.toNat ≤ s.accLen.toNat + 1

/-- The bytes that fit below OUT_CAP are emitted and the accumulator is kept: the state of an overflow. -/
theorem State.encodesTo_overflow (bs : List Byte) {s : State} (ha : s.AccOk) (hs : s.outLen.toNat ≤ s.outCap.toNat) :
    s.EncodesTo (s.appendBytes (bs.take (s.outCap.toNat - s.outLen.toNat))) :=
  ⟨_, s.accVal, s.accLen, rfl, by rw [List.length_take]; omega, ha, Nat.le_succ _⟩

/-- Nothing is emitted. -/
theorem State.encodesTo_setAcc {v : Byte} {n : Word} {s : State} (hs : s.outLen.toNat ≤ s.outCap.toNat)
    (ha : (s.setAcc v n).AccOk) (hn : n.toNat ≤ s.accLen.toNat + 1) : s.EncodesTo (s.setAcc v n) :=
  ⟨[], v, n, by rw [State.appendBytes_nil], hs, ha, hn⟩

theorem State.appendBytes_buffersOk {bs : List Byte} {s : State} (hb : s.BuffersOk)
    (hfit : s.outLen.toNat + bs.length ≤ s.obufSize) : (s.appendBytes bs).BuffersOk :=
  ⟨hb.1, Memory.wf_writeCells bs (.inr hfit) hb.2⟩

/-- Where a pixel or a flush of an encode job from s leads: on, where ENC.A's run stays below its cap, or to the end of the
job by an error; never to a fault. -/
def Flow.EncodesFrom (s : State) : Flow → Prop
  | .ok u => s.EncodesTo u ∧ (s.jobFmt = .a → u.accLen.toNat < capA)
  | .ended t => ∃ u e, t = u.raise e ∧ s.EncodesTo u
  | .fault _ => False

/-! The accumulator's range, format by format. -/

theorem State.accOk_iff_of_a {s : State} (hf : s.jobFmt = .a) :
    s.AccOk ↔ s.accVal.toNat ≤ 1 ∧ s.accLen.toNat ≤ capA := by
  simp [State.AccOk, hf]

theorem State.accOk_iff_of_b {s : State} (hf : s.jobFmt = .b) :
    s.AccOk ↔ s.accVal.toNat < 128 ∧ s.accLen.toNat ≤ ceilingB := by
  simp [State.AccOk, hf]

theorem State.accOk_iff_of_c {s : State} (hf : s.jobFmt = .c) : s.AccOk ↔ s.accVal.toNat < 16 := by
  simp [State.AccOk, hf]

theorem State.flushed_of_c {s : State} (hf : s.jobFmt = .c) : s.flushed = s.setAcc s.accVal 0#32 := by
  rw [State.flushed, hf]

theorem State.flushed_of_ne_c {s : State} (hf : s.jobFmt ≠ .c) : s.flushed = s := by
  unfold State.flushed
  split
  · rfl
  · rfl
  · next h => exact absurd h hf

section
variable {s : State} (hs : s.outLen.toNat ≤ s.outCap.toNat) (ho : s.outCap.toNat ≤ s.obufSize) (ha : s.AccOk)
include hs ho ha

theorem pixelA_encodesFrom (p : Byte) (hf : s.jobFmt = .a) (hcap : s.accLen.toNat < capA) :
    (pixelA p s).EncodesFrom s := by
  have hrange {v n} := State.accOk_iff_of_a (s := s.setAcc v n) hf
  have ⟨hval, _⟩ := (State.accOk_iff_of_a hf).mp ha
  have hinc : (s.accLen + 1#32).toNat = s.accLen.toNat + 1 := by
    simp only [capA] at hcap
    bv_omega
  have hgrown : (s.setAcc s.accVal (s.accLen + 1#32)).AccOk := hrange.mpr ⟨hval, hinc.trans_le hcap⟩
  rcases pixelA_cases p hs ho with ⟨-, hne, hp⟩ | ⟨-, -, hfit, hp⟩ | ⟨-, -, -, hp⟩ | ⟨-, hfit, hp⟩ | ⟨-, -, hp⟩ <;>
    rw [hp]
  · exact ⟨State.encodesTo_setAcc hs hgrown hinc.le, fun _ => by rw [State.setAcc_accLen]; omega⟩
  · exact ⟨⟨_, _, _, rfl, hfit, hrange.mpr ⟨hval, Nat.zero_le _⟩, Nat.zero_le _⟩, fun _ => (by decide : 0 < capA)⟩
  · exact ⟨_, _, rfl, State.encodesTo_setAcc hs hgrown hinc.le⟩
  · exact ⟨⟨_, _, _, rfl, hfit, hrange.mpr ⟨stateByte_toNat_le _, (by decide : 1 ≤ capA)⟩, Nat.le_add_left _ _⟩,
      fun _ => (by decide : 1 < capA)⟩
  · exact ⟨_, _, rfl, State.encodesTo_overflow _ ha hs⟩

theorem pixelB_encodesFrom (p : Byte) (hf : s.jobFmt = .b) : (pixelB p s).EncodesFrom s := by
  have hrange {v n} := State.accOk_iff_of_b (s := s.setAcc v n) hf
  have ⟨hval, hlen⟩ := (State.accOk_iff_of_b hf).mp ha
  have hinc : (s.accLen + 1#32).toNat = s.accLen.toNat + 1 := by
    simp only [ceilingB] at hlen
    bv_omega
  rcases pixelB_cases p hs ho with ⟨-, -, hp⟩ | ⟨-, hne, hp⟩ | ⟨-, hfit, hp⟩ | ⟨-, -, hp⟩ <;> rw [hp]
  · exact ⟨_, _, rfl, State.encodesTo_setAcc hs ha (Nat.le_succ _)⟩
  · exact ⟨State.encodesTo_setAcc hs (hrange.mpr ⟨hval, hinc.trans_le (by omega)⟩) hinc.le,
      fun h => nomatch hf.symm.trans h⟩
  · exact ⟨⟨_, _, _, rfl, hfit, hrange.mpr ⟨quantB_toNat_lt p, (by decide : 1 ≤ ceilingB)⟩, Nat.le_add_left _ _⟩,
      fun h => nomatch hf.symm.trans h⟩
  · exact ⟨_, _, rfl, State.encodesTo_overflow _ ha hs⟩

theorem pixelC_encodesFrom (p : Byte) (hf : s.jobFmt = .c) (hlen : s.accLen.toNat + 1 < 2 ^ 32) :
    (pixelC p s).EncodesFrom s := by
  have hrange {v n} := State.accOk_iff_of_c (s := s.setAcc v n) hf
  have hval := (State.accOk_iff_of_c hf).mp ha
  have hinc : (s.accLen + 1#32).toNat = s.accLen.toNat + 1 := by
    bv_omega
  rcases pixelC_cases p hs ho with ⟨-, hp⟩ | ⟨-, hfit, hp⟩ | ⟨-, -, hp⟩ <;> rw [hp]
  · exact ⟨State.encodesTo_setAcc hs (hrange.mpr hval) hinc.le, fun h => nomatch hf.symm.trans h⟩
  · exact ⟨⟨_, _, _, rfl, hfit, hrange.mpr (quantC_toNat_lt p), Nat.le_add_left _ _⟩,
      fun h => nomatch hf.symm.trans h⟩
  · exact ⟨_, _, rfl, State.encodesTo_overflow _ ha hs⟩

/-- The run that a pixel lengthens is shorter than a raster, which fits 32 bits, and in ENC.A shorter than its cap. -/
theorem pixelStep_encodesFrom (p : Byte) (hlen : s.accLen.toNat + 1 < 2 ^ 32)
    (hcap : s.jobFmt = .a → s.accLen.toNat < capA) : (pixelStep s.jobFmt p s).EncodesFrom s := by
  cases hf : s.jobFmt with
  | a => exact pixelA_encodesFrom hs ho ha p hf (hcap hf)
  | b => exact pixelB_encodesFrom hs ho ha p hf
  | c => exact pixelC_encodesFrom hs ho ha p hf hlen

theorem flushStep_encodesFrom (hcap : s.jobFmt = .a → s.accLen.toNat < capA) :
    (flushStep s.jobFmt s).EncodesFrom s := by
  by_cases hfit : s.outLen.toNat + s.pendingBytes.length ≤ s.outCap.toNat
  · rw [flushStep_eq_ok hfit ho]
    by_cases hf : s.jobFmt = .c
    · rw [State.flushed_of_c (s := s.appendBytes _) hf]
      have hval := (State.accOk_iff_of_c hf).mp ha
      have hempty : (s.setAcc s.accVal 0#32).AccOk :=
        (State.accOk_iff_of_c (s := s.setAcc s.accVal 0#32) hf).mpr hval
      exact ⟨⟨_, _, _, rfl, hfit, hempty, Nat.zero_le _⟩, fun h => nomatch hf.symm.trans h⟩
    · rw [State.flushed_of_ne_c (s := s.appendBytes _) hf]
      exact ⟨⟨_, s.accVal, s.accLen, rfl, hfit, ha, Nat.le_succ _⟩, hcap⟩
  · rw [flushStep_eq_ended hs (by omega) ho]
    exact ⟨_, _, rfl, State.encodesTo_overflow _ ha hs⟩

end

/-! ### The engine's step keeps the invariant -/

/-- Emitted bytes stay below OUT_CAP, hence inside OBUF. -/
theorem State.EncodesTo.sizes_buffers_acc {s u : State} (hu : s.EncodesTo u) (hz : s.SizesOk) (hb : s.BuffersOk)
    (ho : s.outCap.toNat ≤ s.obufSize) : u.SizesOk ∧ u.BuffersOk ∧ u.AccOk := by
  obtain ⟨bs, v, n, rfl, hfit, ha, -⟩ := hu
  exact ⟨hz, State.appendBytes_buffersOk hb (hfit.trans ho), ha⟩

/-- The pixel is counted in IN_POS, so the run still lies in the part of the raster that was read. -/
theorem State.EncodesTo.advance_inv {s u : State} (hu : s.EncodesTo u) (h : s.Inv) (hbusy : s.status.busy = true)
    (hd : s.jobDir = .enc) (hp : s.inPos.toNat < s.npix.toNat) (hcap : s.jobFmt = .a → u.accLen.toNat < capA) :
    (u.advance 1).Inv := by
  obtain ⟨hz, hb, hst, -, hjob⟩ := h
  obtain ⟨hpix, hw, hh, ho, henc, -⟩ := hjob hbusy
  obtain ⟨hin, -, -, hacc, -⟩ := henc hd
  obtain ⟨hzu, hbu, hau⟩ := hu.sizes_buffers_acc hz hb ho
  obtain ⟨bs, v, n, rfl, hfit, -, hn⟩ := hu
  have hinPos : (BitVec.ofNat 32 (s.inPos.toNat + 1)).toNat = s.inPos.toNat + 1 := by bv_omega
  have houtLen : (s.appendBytes bs).outLen.toNat = s.outLen.toNat + bs.length :=
    State.appendBytes_outLen (hfit.trans_lt s.outCap.isLt)
  have hrun : n.toNat ≤ s.inPos.toNat + 1 := hn.trans (Nat.succ_le_succ hacc)
  refine ⟨hzu, hbu, hst, hau, fun _ => ⟨hpix, hw, hh, ho, fun _ => ⟨hin, ?_, ?_, ?_, hcap⟩, fun hdec => ?_⟩⟩
  · exact hinPos.trans_le hp
  · exact houtLen.trans_le hfit
  · exact hrun.trans hinPos.ge
  · exact nomatch hd.symm.trans hdec

/-- A part of an encoder's step keeps the invariant once what follows it does. -/
theorem Flow.EncodesFrom.outcome_inv {s t : State} {m : Flow} {k : State → State} (hm : m.EncodesFrom s)
    (hz : s.SizesOk) (hb : s.BuffersOk) (ho : s.outCap.toNat ≤ s.obufSize)
    (hk : ∀ u, s.EncodesTo u → (s.jobFmt = .a → u.accLen.toNat < capA) → (k u).Inv) (ht : m.outcome k = .next t) :
    t.Inv := by
  rcases Flow.outcome_next ht with ⟨u, rfl, rfl⟩ | rfl
  · obtain ⟨hu, hcap⟩ := hm
    exact hk u hu hcap
  · obtain ⟨u, e, rfl, hu⟩ := hm
    obtain ⟨hzu, hbu, hau⟩ := hu.sizes_buffers_acc hz hb ho
    exact State.raise_inv e hzu hbu hau

theorem encStep_inv {s t : State} (h : s.Inv) (hbusy : s.status.busy = true) (hd : s.jobDir = .enc)
    (hst : encStep s = .next t) : t.Inv := by
  have ⟨hz, hb, _, ha, hjob⟩ := h
  obtain ⟨-, -, -, ho, henc, -⟩ := hjob hbusy
  obtain ⟨hin, -, hout, hacc, hcap⟩ := henc hd
  by_cases hp : s.inPos.toNat < s.npix.toNat
  · rw [encStep_pixel hp hin] at hst
    have hm := pixelStep_encodesFrom hout ho ha (s.ibufByte s.inPos.toNat) (by omega) hcap
    exact hm.outcome_inv hz hb ho (fun u hu hcap' => hu.advance_inv h hbusy hd hp hcap') hst
  · rw [encStep_final (by omega)] at hst
    refine (flushStep_encodesFrom hout ho ha hcap).outcome_inv hz hb ho (fun u hu _ => ?_) hst
    obtain ⟨hzu, hbu, hau⟩ := hu.sizes_buffers_acc hz hb ho
    exact State.finish_inv hzu hbu hau

/-- A record raises an error, or writes pixels that end at NPIX at most, hence inside OBUF, and moves IN_POS to IN_LEN at
most. -/
theorem runRecord_inv {len n : Nat} {canonical : Bool} {v : Byte} {s t : State} (h : s.Inv)
    (hbusy : s.status.busy = true) (hd : s.jobDir = .dec) (hst : runRecord len n canonical v s = .next t) : t.Inv := by
  obtain ⟨hz, hb, hstatus, ha, hjob⟩ := h
  rcases runRecord_cases len n canonical v s with
    ⟨-, hr⟩ | ⟨-, -, -, hr⟩ | ⟨-, -, -, hr⟩ | ⟨-, -, -, -, -, hr⟩ | ⟨hlen, -, hn, hfit, hr⟩ <;>
    rw [hr] at hst <;> cases hst
  · exact State.raise_inv _ hz hb ha
  · exact State.raise_inv _ hz hb ha
  · exact State.raise_inv _ hz hb ha
  · obtain ⟨hpix, hw, hh, ho, -, hdec⟩ := hjob hbusy
    obtain ⟨hin, hcap, -, -⟩ := hdec hd
    obtain ⟨hibuf, hobuf⟩ := hb
    replace hobuf := Memory.wf_fillCells v n hfit hobuf
    have houtLen : (BitVec.ofNat 32 (s.outLen.toNat + n)).toNat = s.outLen.toNat + n :=
      Nat.mod_eq_of_lt (hn.trans_lt s.npix.isLt)
    have hinPos : (BitVec.ofNat 32 (s.inPos.toNat + len)).toNat = s.inPos.toNat + len :=
      Nat.mod_eq_of_lt (hlen.trans_lt s.inLen.isLt)
    refine ⟨hz, ⟨hibuf, hobuf⟩, hstatus, ha, fun _ => ⟨hpix, hw, hh, ho, fun henc => ?_, fun _ => ?_⟩⟩
    · exact nomatch hd.symm.trans henc
    · exact ⟨hin, hcap, houtLen.trans_le hn, hinPos.trans_le hlen⟩

theorem recordStep_inv {s t : State} (h : s.Inv) (hbusy : s.status.busy = true) (hd : s.jobDir = .dec)
    (hst : recordStep s = .next t) : t.Inv := by
  have ⟨hz, hb, _, ha, _⟩ := h
  rcases recordStep_cases s with ⟨i, rest, -, hlen, hr⟩ | ⟨-, ⟨-, hr⟩ | ⟨-, hr⟩⟩ | ⟨-, hr⟩ <;> rw [hr] at hst
  · obtain ⟨n, canonical, v, hexec⟩ := exec_record i hlen
    rw [hexec] at hst
    exact runRecord_inv h hbusy hd hst
  · cases hst
    exact State.raise_inv _ hz hb ha
  · cases hst
  · cases hst
    exact State.raise_inv _ hz hb ha

theorem decStep_inv {s t : State} (h : s.Inv) (hbusy : s.status.busy = true) (hd : s.jobDir = .dec)
    (hst : decStep s = .next t) : t.Inv := by
  by_cases hp : s.outLen.toNat < s.npix.toNat
  · rw [decStep_record hp] at hst
    exact recordStep_inv h hbusy hd hst
  · rw [decStep_filled (by omega)] at hst
    cases hst
    obtain ⟨hz, hb, -, ha, -⟩ := h
    exact State.finish_inv hz hb ha

theorem engineStep_inv {s t : State} (h : s.Inv) (hst : engineStep s = .next t) : t.Inv := by
  cases hbusy : s.status.busy with
  | false =>
    rw [engineStep_idle hbusy] at hst
    cases hst
    exact h
  | true =>
    cases hd : s.jobDir with
    | enc => exact encStep_inv h hbusy hd (engineStep_enc hbusy hd ▸ hst)
    | dec => exact decStep_inv h hbusy hd (engineStep_dec hbusy hd ▸ hst)

/-! ### The step -/

theorem agentStep_inv {g : Agent} {s t : State} (h : s.Inv) (hst : agentStep g s = .next t) : t.Inv := by
  cases g with
  | host => exact hostStep_inv h hst
  | engine => exact engineStep_inv h hst
  | reset =>
    cases hst
    obtain ⟨hz, -⟩ := h
    exact State.resetEvent_inv hz

theorem step_inv {s t : State} (h : s.Inv) (hst : step s = .next t) : t.Inv := by
  obtain ⟨g, u, -, hu, -, hg⟩ := step_cases s
  rw [hg] at hst
  have hinv : u.Inv := by
    rw [hu]
    exact State.inv_hostFields h s.program u.schedule s.replies s.freeReads
  exact agentStep_inv hinv hst

/-! ### The obligations -/

/-- Settles O3: the step is a step of the host, of the engine or a reset, and each keeps the invariant. -/
theorem everyStepKeepsTheInvariant : Obligations.EveryStepKeepsTheInvariant := fun _ _ => step_inv

/-- Settles O2: the sizes come from bounded constants, and every other clause is one of a fixed idle block. -/
theorem resetStateSatisfiesTheInvariant : Obligations.ResetStateSatisfiesTheInvariant := State.reset_inv

/-- Settles O49: the two cases of the schedule, an entry at its head or none. -/
theorem theScheduleDecidesWhoSteps : Obligations.TheScheduleDecidesWhoSteps := fun _ =>
  ⟨fun _ h => step_scheduled h, fun _ h => step_scheduled h, fun _ h => step_scheduled h, step_busy, step_idle⟩

end Sys2Proof.Machine
end

section
/-! SUPPORT. The register file (O6, O7, O10, O11): the layout of STATUS and MODE as numbers, one lemma per slot for what a
read returns and what a configuration write stores, and the masks of the reserved bits (R23). -/

namespace Sys2Proof.Machine

/-! ### The layout of STATUS and MODE -/

/-- Appended fields as a number: the upper one counts in units of the lower one's range. -/
theorem toNat_append_eq_add {m n : Nat} (x : BitVec m) (y : BitVec n) :
    (x ++ y).toNat = x.toNat * 2 ^ n + y.toNat := by
  rw [BitVec.toNat_append, ← Nat.shiftLeft_add_eq_or_of_lt y.isLt, Nat.shiftLeft_eq]

/-- R13, as a number. -/
theorem Status.word_toNat (t : Status) :
    t.word.toNat = t.busy.toNat + 2 * t.done.toNat + 16 * t.err.code.toNat := by
  change (0#25 ++ t.err.code ++ 0#2 ++ BitVec.ofBool t.done ++ BitVec.ofBool t.busy).toNat = _
  simp only [toNat_append_eq_add, BitVec.toNat_ofBool, BitVec.toNat_ofNat]
  omega

/-- R17, as a number. -/
theorem Mode.word_toNat (m : Mode) : m.word.toNat = m.strict.toNat + 2 * m.zeroDimOk.toNat := by
  change (0#30 ++ BitVec.ofBool m.zeroDimOk ++ BitVec.ofBool m.strict).toNat = _
  simp only [toNat_append_eq_add, BitVec.toNat_ofBool, BitVec.toNat_ofNat]
  omega

/-- A field of STATUS is what its place in the number says. -/
theorem Status.extractLsb'_word {t : Status} {start len : Nat} {x : BitVec len}
    (h : (t.busy.toNat + 2 * t.done.toNat + 16 * t.err.code.toNat) / 2 ^ start % 2 ^ len = x.toNat) :
    t.word.extractLsb' start len = x := by
  apply BitVec.eq_of_toNat_eq
  rw [BitVec.extractLsb'_toNat, Nat.shiftRight_eq_div_pow, Status.word_toNat, h]

/-- A flag of STATUS is what its place in the number says. -/
theorem Status.getLsbD_word {t : Status} {k : Nat} {b : Bool}
    (h : (t.busy.toNat + 2 * t.done.toNat + 16 * t.err.code.toNat) / 2 ^ k % 2 = b.toNat) : t.word.getLsbD k = b := by
  rw [← BitVec.testBit_toNat, Nat.testBit_eq_decide_div_mod_eq, Status.word_toNat, h]
  cases b <;> rfl

theorem Status.word_layout (t : Status) :
    t.word.getLsbD 0 = t.busy ∧ t.word.getLsbD 1 = t.done ∧ t.word.extractLsb' 2 2 = 0#2 ∧
      t.word.extractLsb' 4 3 = t.err.code ∧ t.word.extractLsb' 7 25 = 0#25 := by
  have hb := t.busy.toNat_lt
  have hd := t.done.toNat_lt
  have hc := t.err.code.isLt
  refine ⟨Status.getLsbD_word ?_, Status.getLsbD_word ?_, Status.extractLsb'_word ?_, Status.extractLsb'_word ?_,
    Status.extractLsb'_word ?_⟩
  · omega
  · omega
  · rw [BitVec.toNat_zero]
    omega
  · omega
  · rw [BitVec.toNat_zero]
    omega

/-- R201. -/
theorem Status.word_raised (e : ErrCode) :
    (Status.raised e).word = 0x00000002#32 ||| (e.code.setWidth 32 <<< 4) := by
  cases e <;> rfl

/-- R98. -/
theorem Status.word_finished : Status.finished.word = 0x00000002#32 := rfl

/-- What MODE keeps of a word, as a number (R17). -/
theorem Mode.ofWord_toNat (v : Word) :
    (Mode.ofWord v).strict.toNat + 2 * (Mode.ofWord v).zeroDimOk.toNat = v.toNat % 4 := by
  simp only [Mode.ofWord, BitVec.getLsbD, Nat.toNat_testBit]
  omega

/-! ### Reads -/

/-- Only OUT_LEN and IN_POS, and only while BUSY = 1, read anything but their value (R239). -/
theorem regRead_closed {i : BitVec 4} {s : State} (h : s.status.busy = false ∨ i ≠ 8#4 ∧ i ≠ 9#4) :
    regRead i s = regValue i s := by
  have hclosed : regReadOpen i s = false := by
    rcases h with h | ⟨h8, h9⟩
    · simp [regReadOpen, h]
    · simp [regReadOpen, h8, h9]
  rw [regRead, if_neg (by rw [hclosed]; decide)]

section
variable (s : State)

@[simp] theorem regRead_cmd : regRead 0#4 s = 0#32 := regRead_closed (.inr (by decide))
@[simp] theorem regRead_status : regRead 1#4 s = s.status.word := regRead_closed (.inr (by decide))
@[simp] theorem regRead_width : regRead 2#4 s = s.width.setWidth 32 := regRead_closed (.inr (by decide))
@[simp] theorem regRead_height : regRead 3#4 s = s.height.setWidth 32 := regRead_closed (.inr (by decide))
@[simp] theorem regRead_aThresh : regRead 4#4 s = s.aThresh.setWidth 32 := regRead_closed (.inr (by decide))
@[simp] theorem regRead_mode : regRead 5#4 s = s.mode.word := regRead_closed (.inr (by decide))
@[simp] theorem regRead_inLen : regRead 6#4 s = s.inLen := regRead_closed (.inr (by decide))
@[simp] theorem regRead_outCap : regRead 7#4 s = s.outCap := regRead_closed (.inr (by decide))
@[simp] theorem regRead_id : regRead 10#4 s = 0x524C4543#32 := regRead_closed (.inr (by decide))

end

theorem regRead_outLen_idle {s : State} (h : s.status.busy = false) : regRead 8#4 s = s.outLen := regRead_closed (.inl h)
theorem regRead_inPos_idle {s : State} (h : s.status.busy = false) : regRead 9#4 s = s.inPos := regRead_closed (.inl h)

/-- Log entry 3. -/
theorem regRead_open {i : BitVec 4} {s : State} (h : s.status.busy = true) (hi : i = 8#4 ∨ i = 9#4) :
    regRead i s = Config.busyWord s.freeReads := by
  rw [regRead, if_pos (by simpa [regReadOpen, h] using hi)]

theorem regRead_reserved {i : BitVec 4} (h : 11 ≤ i.toNat) (s : State) : regRead i s = 0#32 := by
  have hne : ∀ k : BitVec 4, k.toNat ≤ 10 → i ≠ k := fun k hk hik => by rw [hik] at h; omega
  rw [regRead_closed (.inr ⟨hne _ (by decide), hne _ (by decide)⟩)]
  simp [regValue, hne]

/-! ### Configuration writes -/

/-- A write to any slot but CMD. -/
theorem regWrite_config {i : BitVec 4} (hi : i ≠ 0#4) (v : Word) (s : State) :
    regWrite i v s = if s.status.busy then .next s else .next (s.setConfig i v) := by
  rw [regWrite, if_neg hi]

theorem regWrite_config_idle {i : BitVec 4} {v : Word} {s t : State} (h : s.status.busy = false) (hi : i ≠ 0#4)
    (ht : s.setConfig i v = t) : regWrite i v s = .next t := by
  rw [regWrite_config hi, if_neg (by rw [h]; decide), ht]

/-- Writes that store the same do the same. -/
theorem regWrite_congr {i : BitVec 4} (hi : i ≠ 0#4) {v w : Word} {s : State} (h : s.setConfig i v = s.setConfig i w) :
    regWrite i v s = regWrite i w s := by
  rw [regWrite_config hi, regWrite_config hi, h]

section
variable (v : Word) (s : State)

theorem State.setConfig_width_slot : s.setConfig 2#4 v = { s with width := v.extractLsb' 0 16 } := rfl
theorem State.setConfig_height_slot : s.setConfig 3#4 v = { s with height := v.extractLsb' 0 16 } := rfl
theorem State.setConfig_aThresh_slot : s.setConfig 4#4 v = { s with aThresh := v.extractLsb' 0 9 } := rfl
theorem State.setConfig_mode_slot : s.setConfig 5#4 v = { s with mode := Mode.ofWord v } := rfl
theorem State.setConfig_inLen_slot : s.setConfig 6#4 v = { s with inLen := v } := rfl
theorem State.setConfig_outCap_slot : s.setConfig 7#4 v = { s with outCap := v } := rfl

end

/-- Slots 2 to 7 are the configuration registers. -/
theorem State.setConfig_other {i : BitVec 4} (h : i.toNat ≤ 1 ∨ 8 ≤ i.toNat) (v : Word) (s : State) :
    s.setConfig i v = s := by
  have hne : ∀ k : BitVec 4, 2 ≤ k.toNat ∧ k.toNat ≤ 7 → i ≠ k := fun k hk hik => by rw [hik] at h; omega
  simp [State.setConfig, hne]

/-- A field of n bits keeps the word modulo 2^n. -/
theorem extractLsb'_zero_toNat (n : Nat) (v : Word) : (v.extractLsb' 0 n).toNat = v.toNat % 2 ^ n := by
  rw [BitVec.extractLsb'_toNat, Nat.shiftRight_zero]

/-! ### Reserved bits -/

/-- The bits above a field's width read 0. -/
theorem setWidth_and_highMask {n w : Nat} (x : BitVec n) : x.setWidth w &&& BitVec.allOnes w <<< n = 0#w := by
  ext i hi
  simp only [BitVec.getElem_and, BitVec.getElem_setWidth, BitVec.getElem_shiftLeft, BitVec.getElem_zero]
  by_cases h : i < n
  · simp [h]
  · simp [BitVec.getLsbD_of_ge x i (by omega)]

theorem Status.word_and_reserved (t : Status) : t.word &&& 0xFFFFFF8C#32 = 0#32 := by
  change (0#25 ++ t.err.code ++ 0#2 ++ BitVec.ofBool t.done ++ BitVec.ofBool t.busy) &&&
    (BitVec.allOnes 25 ++ 0#3 ++ BitVec.allOnes 2 ++ 0#1 ++ 0#1) = 0#25 ++ 0#3 ++ 0#2 ++ 0#1 ++ 0#1
  simp only [BitVec.and_append, BitVec.zero_and, BitVec.and_zero]

theorem Mode.word_and_reserved (m : Mode) : m.word &&& 0xFFFFFFFC#32 = 0#32 := by
  change (0#30 ++ BitVec.ofBool m.zeroDimOk ++ BitVec.ofBool m.strict) &&& (BitVec.allOnes 30 ++ 0#1 ++ 0#1) =
    0#30 ++ 0#1 ++ 0#1
  simp only [BitVec.and_append, BitVec.zero_and, BitVec.and_zero]

/-- A field ignores the bits of a written word outside a mask that covers it. -/
theorem extractLsb'_and_mask {n : Nat} {mask : Word} (h : mask.extractLsb' 0 n = BitVec.allOnes n) (v : Word) :
    (v &&& mask).extractLsb' 0 n = v.extractLsb' 0 n := by
  rw [BitVec.extractLsb'_and, h, BitVec.and_allOnes]

theorem Mode.ofWord_and_mask (v : Word) : Mode.ofWord (v &&& 0x00000003#32) = Mode.ofWord v := by
  simp [Mode.ofWord]

/-! ### The obligations -/

/-- Settles O6: the layout is read off STATUS as a number, and `raise` and `finish` leave a STATUS without BUSY. -/
theorem statusReadsFlagsAndErrorCode : Obligations.StatusReadsFlagsAndErrorCode :=
  ⟨Status.word_layout, fun e s => (regRead_status (s.raise e)).trans (Status.word_raised e), fun s =>
    (regRead_status s.finish).trans Status.word_finished,
    rfl, rfl, rfl, rfl, rfl, rfl, rfl, rfl⟩

/-- Settles O7: slot by slot. -/
theorem registerReadsFollowTheMap : Obligations.RegisterReadsFollowTheMap := fun s =>
  have hfield {n : Nat} (hn : n ≤ 32) (x : BitVec n) : (x.setWidth 32).toNat = x.toNat :=
    BitVec.toNat_setWidth_of_le hn
  ⟨regRead_cmd s, regRead_status s, by rw [regRead_width, hfield (by decide)], by rw [regRead_height, hfield (by decide)],
    by rw [regRead_aThresh, hfield (by decide)], by rw [regRead_mode, Mode.word_toNat], regRead_inLen s, regRead_outCap s,
    fun h => ⟨regRead_outLen_idle h, regRead_inPos_idle h⟩,
    fun h => ⟨regRead_open h (.inl rfl), regRead_open h (.inr rfl)⟩,
    regRead_id s, fun _ h => regRead_reserved h s⟩

/-- Settles O10: an idle write is `setConfig`, which stores the low bits of one field. -/
theorem configurationWritesStoreTheirField : Obligations.ConfigurationWritesStoreTheirField := fun s v h =>
  ⟨⟨_, regWrite_config_idle h (by decide) (State.setConfig_width_slot v s), extractLsb'_zero_toNat 16 v⟩,
    ⟨_, regWrite_config_idle h (by decide) (State.setConfig_height_slot v s), extractLsb'_zero_toNat 16 v⟩,
    ⟨_, regWrite_config_idle h (by decide) (State.setConfig_aThresh_slot v s), extractLsb'_zero_toNat 9 v⟩,
    ⟨_, regWrite_config_idle h (by decide) (State.setConfig_mode_slot v s), Mode.ofWord_toNat v⟩,
    regWrite_config_idle h (by decide) (State.setConfig_inLen_slot v s),
    regWrite_config_idle h (by decide) (State.setConfig_outCap_slot v s)⟩

/-- Settles O11: slots 1 and 8 to 15 are no configuration register, and the masks of the reserved bits are those outside
each field. -/
theorem reservedAndReadOnlyRegistersIgnoreWrites : Obligations.ReservedAndReadOnlyRegistersIgnoreWrites := by
  intro s v
  refine ⟨fun i hi => ?_, fun i hi => regRead_reserved hi s, ?_, ?_, ?_, ?_, ?_, ?_, ?_, ?_, ?_⟩
  · have hslot : i.toNat = 1 ∨ 8 ≤ i.toNat := hi.imp (congrArg BitVec.toNat) id
    have hcmd : i ≠ 0#4 := fun h => by
      simp [h] at hslot
    rw [regWrite_config hcmd, State.setConfig_other (by omega), ite_self]
  · rw [regRead_status, Status.word_and_reserved]
  · rw [regRead_width]
    exact setWidth_and_highMask s.width
  · rw [regRead_height]
    exact setWidth_and_highMask s.height
  · rw [regRead_aThresh]
    exact setWidth_and_highMask s.aThresh
  · rw [regRead_mode, Mode.word_and_reserved]
  · apply regWrite_congr (by decide)
    rw [State.setConfig_width_slot, State.setConfig_width_slot, extractLsb'_and_mask rfl]
  · apply regWrite_congr (by decide)
    rw [State.setConfig_height_slot, State.setConfig_height_slot, extractLsb'_and_mask rfl]
  · apply regWrite_congr (by decide)
    rw [State.setConfig_aThresh_slot, State.setConfig_aThresh_slot, extractLsb'_and_mask rfl]
  · apply regWrite_congr (by decide)
    rw [State.setConfig_mode_slot, State.setConfig_mode_slot, Mode.ofWord_and_mask]

end Sys2Proof.Machine
end

section
/-! SUPPORT. What an engine step writes (O42, O29): everything a step of an encode or a decode job can do, in two lemmas; the
frame of R21, R40 to R43 from them; and the first pixel of an empty accumulator (R114). -/

namespace Sys2Proof.Machine

/-! ### Everything an engine step can do -/

/-- A part of an encoder's step that answers a next state emitted bytes and set the accumulator, and then went on or raised
an error. -/
theorem Flow.EncodesFrom.outcome_next {s t : State} {m : Flow} {k : State → State} (hm : m.EncodesFrom s)
    (ht : m.outcome k = .next t) : ∃ u, s.EncodesTo u ∧ (t = k u ∨ ∃ e, t = u.raise e) := by
  rcases Flow.outcome_next ht with ⟨u, rfl, rfl⟩ | rfl
  · obtain ⟨hu, -⟩ := hm
    exact ⟨u, hu, .inl rfl⟩
  · obtain ⟨u, e, rfl, hu⟩ := hm
    exact ⟨u, hu, .inr ⟨e, rfl⟩⟩

/-- An encode step emits bytes up to OUT_CAP and sets the accumulator; then the pixel is counted, or the job ends. -/
theorem encStep_next {s t : State} (h : s.Inv) (hbusy : s.status.busy = true) (hd : s.jobDir = .enc)
    (hst : encStep s = .next t) :
    ∃ u, s.EncodesTo u ∧ ((s.inPos.toNat < s.npix.toNat ∧ t = u.advance 1) ∨ t = u.finish ∨ ∃ e, t = u.raise e) := by
  obtain ⟨-, -, -, ha, hjob⟩ := h
  obtain ⟨-, -, -, ho, henc, -⟩ := hjob hbusy
  obtain ⟨hin, -, hout, hacc, hcap⟩ := henc hd
  by_cases hp : s.inPos.toNat < s.npix.toNat
  · rw [encStep_pixel hp hin] at hst
    have hm := pixelStep_encodesFrom hout ho ha (s.ibufByte s.inPos.toNat) (by omega) hcap
    obtain ⟨u, hu, ht⟩ := hm.outcome_next hst
    exact ⟨u, hu, ht.imp (fun ht => ⟨hp, ht⟩) .inr⟩
  · rw [encStep_final (by omega)] at hst
    obtain ⟨u, hu, ht⟩ := (flushStep_encodesFrom hout ho ha hcap).outcome_next hst
    exact ⟨u, hu, .inr ht⟩

/-- A record that answers a next state raises an error, or writes pixels up to NPIX at most and moves IN_POS up to IN_LEN at
most. -/
theorem runRecord_next {len n : Nat} {canonical : Bool} {v : Byte} {s t : State}
    (hst : runRecord len n canonical v s = .next t) :
    (∃ e, t = s.raise e) ∨ s.inPos.toNat + len ≤ s.inLen.toNat ∧ s.outLen.toNat + n ≤ s.npix.toNat ∧
      t = (s.appendPixels v n).advance len := by
  rcases runRecord_cases len n canonical v s with
    ⟨-, hr⟩ | ⟨-, -, -, hr⟩ | ⟨-, -, -, hr⟩ | ⟨-, -, -, -, -, hr⟩ | ⟨hlen, -, hn, -, hr⟩ <;>
    rw [hr] at hst <;> cases hst
  · exact .inl ⟨_, rfl⟩
  · exact .inl ⟨_, rfl⟩
  · exact .inl ⟨_, rfl⟩
  · exact .inr ⟨hlen, hn, rfl⟩

/-- A decode step ends the job, or writes a record's pixels. -/
theorem decStep_next {s t : State} (hst : decStep s = .next t) :
    t = s.finish ∨ (∃ e, t = s.raise e) ∨
      ∃ v n len, s.inPos.toNat + len ≤ s.inLen.toNat ∧ s.outLen.toNat + n ≤ s.npix.toNat ∧
        t = (s.appendPixels v n).advance len := by
  by_cases hp : s.outLen.toNat < s.npix.toNat
  · rw [decStep_record hp] at hst
    rcases recordStep_cases s with ⟨i, rest, -, hlen, hr⟩ | ⟨-, ⟨-, hr⟩ | ⟨-, hr⟩⟩ | ⟨-, hr⟩ <;> rw [hr] at hst
    · obtain ⟨n, canonical, v, hexec⟩ := exec_record i hlen
      rw [hexec] at hst
      exact .inr ((runRecord_next hst).imp id fun hrun => ⟨v, n, i.recordLength, hrun⟩)
    · cases hst
      exact .inr (.inl ⟨_, rfl⟩)
    · cases hst
    · cases hst
      exact .inr (.inl ⟨_, rfl⟩)
  · rw [decStep_filled (by omega)] at hst
    cases hst
    exact .inl rfl

/-! ### The frame of an engine step -/

/-- What R21, R40 to R43 let an engine step write: STATUS, the accumulator, the positions forwards, and OBUF between the old
and the new OUT_LEN. -/
def State.EngineFrame (s t : State) : Prop :=
  t = { s with
    status := t.status, outLen := t.outLen, inPos := t.inPos, accVal := t.accVal, accLen := t.accLen
    obuf := t.obuf } ∧
  s.outLen.toNat ≤ t.outLen.toNat ∧ s.inPos.toNat ≤ t.inPos.toNat ∧
  ∀ a, a < s.outLen.toNat ∨ t.outLen.toNat ≤ a → t.obufByte a = s.obufByte a

theorem State.EngineFrame.refl (s : State) : s.EngineFrame s := ⟨rfl, le_rfl, le_rfl, fun _ _ => rfl⟩

section
variable {s t : State} (h : s.EngineFrame t)
include h

/-- An error writes STATUS only (R205). -/
theorem State.EngineFrame.raise (e : ErrCode) : s.EngineFrame (t.raise e) := by
  obtain ⟨hframe, hout, hin, hbytes⟩ := h
  exact ⟨congrArg (State.raise e) hframe, hout, hin, hbytes⟩

/-- finish() writes STATUS only (R98). -/
theorem State.EngineFrame.finish : s.EngineFrame t.finish := h.raise .noError

theorem State.EngineFrame.advance {n : Nat} (hn : t.inPos.toNat + n < 2 ^ 32) : s.EngineFrame (t.advance n) := by
  obtain ⟨hframe, hout, hin, hbytes⟩ := h
  have hpos : (t.advance n).inPos.toNat = t.inPos.toNat + n := Nat.mod_eq_of_lt hn
  exact ⟨congrArg (State.advance n) hframe, hout, by omega, hbytes⟩

end

/-- Bytes emitted up to OUT_CAP go from the old OUT_LEN to the new one (R42). -/
theorem State.EncodesTo.engineFrame {s u : State} (hu : s.EncodesTo u) : s.EngineFrame u := by
  obtain ⟨bs, v, n, rfl, hfit, -, -⟩ := hu
  have hout : ((s.appendBytes bs).setAcc v n).outLen.toNat = s.outLen.toNat + bs.length :=
    State.appendBytes_outLen (hfit.trans_lt s.outCap.isLt)
  refine ⟨rfl, by omega, le_rfl, fun a ha => ?_⟩
  calc ((s.appendBytes bs).setAcc v n).obufByte a
      _ = (s.appendBytes bs).obufByte a := rfl
      _ = s.obufByte a := by rw [State.obufByte_appendBytes, if_neg (by omega)]

/-- Pixels up to NPIX go from the old OUT_LEN to the new one (R43). -/
theorem State.appendPixels_engineFrame (v : Byte) {n : Nat} {s : State} (hfit : s.outLen.toNat + n ≤ s.npix.toNat) :
    s.EngineFrame (s.appendPixels v n) := by
  have hout : (s.appendPixels v n).outLen.toNat = s.outLen.toNat + n := Nat.mod_eq_of_lt (hfit.trans_lt s.npix.isLt)
  refine ⟨rfl, by omega, le_rfl, fun a ha => ?_⟩
  rw [State.obufByte_appendPixels, if_neg (by omega)]

theorem encStep_engineFrame {s t : State} (h : s.Inv) (hbusy : s.status.busy = true) (hd : s.jobDir = .enc)
    (hst : encStep s = .next t) : s.EngineFrame t := by
  obtain ⟨u, hu, ht⟩ := encStep_next h hbusy hd hst
  have hframe := hu.engineFrame
  rcases ht with ⟨hp, rfl⟩ | rfl | ⟨e, rfl⟩
  · obtain ⟨bs, v, n, rfl, -⟩ := hu
    exact hframe.advance (show s.inPos.toNat + 1 < 2 ^ 32 by omega)
  · exact hframe.finish
  · exact hframe.raise e

theorem decStep_engineFrame {s t : State} (hst : decStep s = .next t) : s.EngineFrame t := by
  rcases decStep_next hst with rfl | ⟨e, rfl⟩ | ⟨v, n, len, hlen, hn, rfl⟩
  · exact (State.EngineFrame.refl s).finish
  · exact (State.EngineFrame.refl s).raise e
  · exact (State.appendPixels_engineFrame v hn).advance (hlen.trans_lt s.inLen.isLt)

theorem engineStep_engineFrame {s t : State} (h : s.Inv) (hst : engineStep s = .next t) : s.EngineFrame t := by
  cases hbusy : s.status.busy with
  | false =>
    rw [engineStep_idle hbusy] at hst
    cases hst
    exact State.EngineFrame.refl s
  | true =>
    cases hd : s.jobDir with
    | enc => exact encStep_engineFrame h hbusy hd (engineStep_enc hbusy hd ▸ hst)
    | dec => exact decStep_engineFrame (engineStep_dec hbusy hd ▸ hst)

/-! ### The first pixel -/

/-- Format A's ACC_VAL is its state bit (R28). -/
theorem stateByte_getLsbD_zero {b : Byte} (h : b.toNat ≤ 1) : stateByte (b.getLsbD 0) = b := by
  have hb : b = 0#8 ∨ b = 1#8 := by bv_omega
  rcases hb with rfl | rfl <;> rfl

/-- The quantized pixel of Format A as ACC_VAL holds it (R111). -/
theorem stateByte_quantA (thresh : BitVec 9) (p : Byte) :
    stateByte (quantA thresh p) = if thresh.toNat ≤ p.toNat then 1#8 else 0#8 := by
  rw [quantA]
  split_ifs with h <;> simp only [h] <;> rfl

section
variable {s : State} (h : s.accLen = 0#32)
include h

/-- A match lengthens the run of 0 and a mismatch flushes nothing: both leave a run of 1. -/
theorem pixelA_of_empty (hval : s.accVal.toNat ≤ 1) (p : Byte) :
    pixelA p s = .ok (s.setAcc (stateByte (quantA s.aThresh p)) 1#32) := by
  by_cases hq : quantA s.aThresh p = s.accVal.getLsbD 0
  · rw [pixelA, if_pos hq, if_neg (by rw [h]; decide), hq, stateByte_getLsbD_zero hval, h]
    rfl
  · have hflush : flushA s = .ok s := by rw [flushA, h]; rfl
    rw [pixelA, if_neg hq, hflush, Flow.andThen_ok]

theorem pixelB_of_empty (p : Byte) : pixelB p s = .ok (s.setAcc (quantB p) 1#32) := by
  by_cases hq : quantB p = s.accVal
  · rw [pixelB, if_pos hq, if_neg (by rw [h]; decide), hq, h]
    rfl
  · have hflush : flushB s = .ok s := by rw [flushB, h]; rfl
    rw [pixelB, if_neg hq, hflush, Flow.andThen_ok]

theorem pixelC_of_empty (p : Byte) : pixelC p s = .ok (s.setAcc (quantC p) 1#32) := by
  by_cases hq : quantC p = s.accVal
  · rw [pixelC, if_pos hq, hq, h]
    rfl
  · have hflush : flushC s = .ok (s.setAcc s.accVal 0#32) := by rw [flushC, h]; rfl
    rw [pixelC, if_neg hq, hflush]
    rfl

end

/-! ### The obligations -/

/-- Settles O42: each kind of step is emitted bytes or a record's pixels, within OUT_CAP or NPIX, and then an advance or the
job's end. -/
theorem engineStepFrame : Obligations.EngineStepFrame := fun _ _ => engineStep_engineFrame

/-- Settles O29: the empty accumulator has nothing to flush, and in every format the pixel's value is then its value. -/
theorem firstPixelStartsARunOfOne : Obligations.FirstPixelStartsARunOfOne := by
  intro s p h
  refine ⟨fun hval => ?_, pixelB_of_empty h p, pixelC_of_empty h p⟩
  rw [← stateByte_quantA]
  exact pixelA_of_empty h hval p

end Sys2Proof.Machine
end

section
/-! SUPPORT. The host's side of the memory (O8, O12, O48, O52): both buffers by one size and one byte at an address, what a
store and a read do in these terms, and the host's step as the step of its next operation. -/

namespace Sys2Proof.Machine

/-! ### Both buffers by address -/

/-- IBUF_SIZE or OBUF_SIZE (R2). -/
def State.bufSize (b : Buf) (s : State) : Nat :=
  match b with
  | .ibuf => s.ibufSize
  | .obuf => s.obufSize

/-- The byte of a buffer at an address (R40, R41). -/
def State.bufByte (b : Buf) (a : Nat) (s : State) : Byte :=
  match b with
  | .ibuf => s.ibufByte a
  | .obuf => s.obufByte a

theorem bufValue_eq (b : Buf) (a : Nat) (s : State) :
    bufValue b a s = if a < s.bufSize b then s.bufByte b a else 0x00#8 := by
  cases b <;> rfl

theorem bufValue_inside {b : Buf} {a : Nat} {s : State} (h : a < s.bufSize b) : bufValue b a s = s.bufByte b a := by
  rw [bufValue_eq, if_pos h]

theorem bufValue_beyond {b : Buf} {a : Nat} {s : State} (h : s.bufSize b ≤ a) : bufValue b a s = 0x00#8 := by
  rw [bufValue_eq, if_neg (by omega)]

/-! ### Stores -/

/-- Beyond the buffer a store changes nothing (R48). -/
theorem State.storeByte_beyond {b : Buf} {a : Nat} {s : State} (h : s.bufSize b ≤ a) (v : Byte) :
    s.storeByte b a v = s := by
  cases b <;> exact if_neg (Nat.not_lt.mpr h)

@[simp] theorem State.storeByte_bufSize (b b' : Buf) (a : Nat) (v : Byte) (s : State) :
    (s.storeByte b a v).bufSize b' = s.bufSize b' := by
  rw [State.storeByte_frame]
  cases b' <;> rfl

@[simp] theorem State.storeByte_status (b : Buf) (a : Nat) (v : Byte) (s : State) :
    (s.storeByte b a v).status = s.status := by
  rw [State.storeByte_frame]

theorem State.storeByte_ibuf {a : Nat} {s : State} (h : a < s.ibufSize) (v : Byte) :
    s.storeByte .ibuf a v = { s with ibuf := writeCell s.ibuf a v } :=
  if_pos h

theorem State.storeByte_obuf {a : Nat} {s : State} (h : a < s.obufSize) (v : Byte) :
    s.storeByte .obuf a v = { s with obuf := writeCell s.obuf a v } :=
  if_pos h

/-- Inside the buffer a store changes its one byte, and none of the other buffer (R46, R47, R241). -/
theorem State.bufByte_storeByte {b : Buf} {a : Nat} {s : State} (h : a < s.bufSize b) (v : Byte) (b' : Buf) (a' : Nat) :
    (s.storeByte b a v).bufByte b' a' = if (b', a') = (b, a) then v else s.bufByte b' a' := by
  cases b with
  | ibuf =>
    rw [State.storeByte_ibuf h]
    cases b' with
    | ibuf =>
      simp only [State.bufByte, State.ibufByte, readCell_writeCell, Prod.mk.injEq, true_and]
      split_ifs <;> rfl
    | obuf => rfl
  | obuf =>
    rw [State.storeByte_obuf h]
    cases b' with
    | ibuf => rfl
    | obuf =>
      simp only [State.bufByte, State.obufByte, readCell_writeCell, Prod.mk.injEq, true_and]
      split_ifs <;> rfl

/-- A store leaves what every other address of the buffers is worth, inside and beyond them. -/
theorem bufValue_storeByte_of_ne {b b' : Buf} {a a' : Nat} (hne : (b', a') ≠ (b, a)) (v : Byte) (s : State) :
    bufValue b' a' (s.storeByte b a v) = bufValue b' a' s := by
  rcases Nat.lt_or_ge a (s.bufSize b) with h | h
  · rw [bufValue_eq, bufValue_eq, State.storeByte_bufSize, State.bufByte_storeByte h, if_neg hne]
  · rw [State.storeByte_beyond h]

theorem hostWrite_idle {s : State} (h : s.status.busy = false) (b : Buf) (a : Nat) (v : Byte) :
    hostWrite b a v s = .next (s.storeByte b a v) := by
  rw [hostWrite, if_neg (by rw [h]; decide)]

theorem hostWrite_busy {s : State} (h : s.status.busy = true) (b : Buf) (a : Nat) (v : Byte) :
    hostWrite b a v s = .fault (bufHazard b) := by
  rw [hostWrite, if_pos h]

/-- R48 for a write. -/
theorem hostWrite_beyond {b : Buf} {a : Nat} {s : State} (h : s.status.busy = false) (ha : s.bufSize b ≤ a) (v : Byte) :
    hostWrite b a v s = .next s := by
  rw [hostWrite_idle h, State.storeByte_beyond ha]

/-! ### Reads -/

theorem bufReadOpen_ibuf (a : Nat) (s : State) : bufReadOpen .ibuf a s = false := rfl

theorem bufReadOpen_idle {s : State} (h : s.status.busy = false) (b : Buf) (a : Nat) : bufReadOpen b a s = false := by
  rw [← Bool.not_eq_true, bufReadOpen_eq_true_iff, h]
  exact fun ⟨_, hbusy, _⟩ => Bool.false_ne_true hbusy

theorem bufReadOpen_beyond {b : Buf} {a : Nat} {s : State} (h : s.bufSize b ≤ a) : bufReadOpen b a s = false := by
  rw [← Bool.not_eq_true, bufReadOpen_eq_true_iff]
  rintro ⟨rfl, -, ha⟩
  exact absurd h (Nat.not_le.mpr ha)

theorem hostRead_idle {s : State} (h : s.status.busy = false) (b : Buf) (a : Nat) : hostRead b a s = bufValue b a s :=
  hostRead_closed (bufReadOpen_idle h b a)

/-- R48 for a read: BUSY does not matter. -/
theorem hostRead_beyond {b : Buf} {a : Nat} {s : State} (h : s.bufSize b ≤ a) : hostRead b a s = 0x00#8 :=
  (hostRead_closed (bufReadOpen_beyond h)).trans (bufValue_beyond h)

/-! ### The host's step -/

/-- The host's program has ended (R244). -/
theorem hostStep_nil {s : State} (h : s.program = []) : hostStep s = .next s := by
  rw [hostStep, h]

theorem hostStep_cons {s : State} {op : HostOp} {rest : List HostOp} (h : s.program = op :: rest) :
    hostStep s = runHostOp op { s with program := rest } := by
  rw [hostStep, h]

theorem exists_of_bufWriteNext {p : List HostOp} (h : bufWriteNext p = true) :
    ∃ b a v rest, p = .bufWrite b a v :: rest := by
  cases p with
  | nil => exact absurd h Bool.false_ne_true
  | cons op rest =>
    cases op with
    | bufWrite b a v => exact ⟨b, a, v, rest, rfl⟩
    | regRead | regWrite | bufRead | poll => exact absurd h Bool.false_ne_true

/-- A poll answers STATUS, and is put back at the program's head while BUSY = 1 (R75). -/
theorem runHostOp_poll (s : State) :
    runHostOp .poll s = .next { s with
      program := if s.status.busy then .poll :: s.program else s.program
      replies := .word s.status.word :: s.replies } := by
  by_cases h : s.status.busy = true
  · rw [runHostOp, if_pos h, if_pos h, regRead_status]
    rfl
  · rw [runHostOp, if_neg h, if_neg h, regRead_status]
    rfl

/-- During a job an operation other than a buffer write touches the host's fields only: register writes are ignored (R90,
R236), and reads and polls only answer (R49, R239). -/
theorem runHostOp_busy {op : HostOp} {s : State} (h : s.status.busy = true) (hop : ∀ b a v, op ≠ .bufWrite b a v) :
    ∃ t, runHostOp op s = .next t ∧ t = { s with program := t.program, replies := t.replies, freeReads := t.freeReads } := by
  cases op with
  | regRead i => exact ⟨_, rfl, rfl⟩
  | regWrite i v => exact ⟨s, regWrite_busy h i v, rfl⟩
  | bufRead b a => exact ⟨_, rfl, rfl⟩
  | bufWrite b a v => exact absurd rfl (hop b a v)
  | poll => exact ⟨_, if_pos h, rfl⟩

theorem hostStep_busy {s : State} (h : s.status.busy = true) (hw : bufWriteNext s.program = false) :
    ∃ t, hostStep s = .next t ∧ t = { s with program := t.program, replies := t.replies, freeReads := t.freeReads } := by
  cases hp : s.program with
  | nil => exact ⟨s, hostStep_nil hp, rfl⟩
  | cons op rest =>
    have hop : ∀ b a v, op ≠ .bufWrite b a v := by
      rintro b a v rfl
      rw [hp] at hw
      exact Bool.false_ne_true hw.symm
    obtain ⟨t, ht, hframe⟩ := runHostOp_busy (s := { s with program := rest }) h hop
    exact ⟨t, (hostStep_cons hp).trans ht, hframe⟩

/-! ### The obligations -/

/-- Settles O48: by the kind of the program's next operation. -/
theorem hostStepsLeaveARunningJobAlone : Obligations.HostStepsLeaveARunningJobAlone := fun _ => hostStep_busy

/-- Settles O12: an idle write is `storeByte`, an idle read `bufValue`, and reads at the other addresses do not see the
store. -/
theorem hostWriteThenHostRead : Obligations.HostWriteThenHostRead := by
  intro s b a v h
  have hread (b' : Buf) (a' : Nat) : hostRead b' a' (s.storeByte b a v) = bufValue b' a' (s.storeByte b a v) :=
    hostRead_idle ((congrArg Status.busy (s.storeByte_status b a v)).trans h) b' a'
  refine ⟨s.storeByte b a v, hostWrite_idle h b a v, s.storeByte_frame b a v, fun ha => ?_, fun ha => ?_,
    fun b' a' hne => ?_⟩
  · replace ha : a < s.bufSize b := ha
    rw [hread, bufValue_inside (by rwa [State.storeByte_bufSize]), State.bufByte_storeByte ha, if_pos rfl]
  · replace ha : s.bufSize b ≤ a := ha
    rw [State.storeByte_beyond ha]
    exact ⟨rfl, hostRead_beyond ha⟩
  · rw [hread, bufValue_storeByte_of_ne hne, hostRead_idle h]

/-- Settles O8: a read is answered from the state less its operation, whose registers and buffers are the same; a poll
answers STATUS, which is never unspecified. -/
theorem hostReadsChangeNothingOfTheBlock : Obligations.HostReadsChangeNothingOfTheBlock := by
  intro s rest
  refine ⟨fun i h => ⟨_, hostStep_cons h⟩, fun b a h => ⟨_, hostStep_cons h⟩, fun h => ?_⟩
  exact (hostStep_cons h).trans (runHostOp_poll _)

/-- Settles O52: an unspecified read is one inside OBUF while BUSY = 1, and every other is the stored byte or 0x00. -/
theorem bufferReadsFollowTheMap : Obligations.BufferReadsFollowTheMap := fun s a =>
  ⟨fun ha => (hostRead_closed (bufReadOpen_ibuf a s)).trans (bufValue_inside (b := .ibuf) ha),
    hostRead_beyond (b := .ibuf),
    fun ha h => (hostRead_idle h .obuf a).trans (bufValue_inside (b := .obuf) ha),
    fun ha h => hostRead_open ((bufReadOpen_eq_true_iff .obuf a s).mpr ⟨rfl, h, ha⟩),
    hostRead_beyond (b := .obuf),
    fun h v => ⟨fun ha => hostWrite_beyond (b := .ibuf) h ha v, fun ha => hostWrite_beyond (b := .obuf) h ha v⟩⟩

end Sys2Proof.Machine
end

section
/-! SUPPORT. The machine stops only on a hazard (O4): the engine of a sound state always answers a next state, since a job
that passed its start checks stays inside its buffers, and the host is stopped by a buffer write during a job only. -/

namespace Sys2Proof.Machine

/-! ### The engine -/

/-- An encoder's part of a step never leaves its buffers, so the step answers a next state. -/
theorem Flow.EncodesFrom.exists_next {s : State} {m : Flow} (hm : m.EncodesFrom s) (k : State → State) :
    ∃ t, m.outcome k = .next t := by
  cases m with
  | ok u => exact ⟨k u, rfl⟩
  | ended t => exact ⟨t, rfl⟩
  | fault x => exact hm.elim

/-- The pixels of an encode job lie inside IBUF (R40) and its output inside OBUF (R41). -/
theorem encStep_exists_next {s : State} (h : s.Inv) (hbusy : s.status.busy = true) (hd : s.jobDir = .enc) :
    ∃ t, encStep s = .next t := by
  obtain ⟨-, -, -, ha, hjob⟩ := h
  obtain ⟨-, -, -, ho, henc, -⟩ := hjob hbusy
  obtain ⟨hin, -, hout, hacc, hcap⟩ := henc hd
  by_cases hp : s.inPos.toNat < s.npix.toNat
  · rw [encStep_pixel hp hin]
    exact (pixelStep_encodesFrom hout ho ha _ (by omega) hcap).exists_next _
  · rw [encStep_final (by omega)]
    exact (flushStep_encodesFrom hout ho ha hcap).exists_next _

/-- A record that stays within NPIX stays inside OBUF. -/
theorem runRecord_exists_next {s : State} (ho : s.npix.toNat ≤ s.obufSize) (len n : Nat) (canonical : Bool) (v : Byte) :
    ∃ t, runRecord len n canonical v s = .next t := by
  rcases runRecord_cases len n canonical v s with
    ⟨-, hr⟩ | ⟨-, -, -, hr⟩ | ⟨-, -, -, hr⟩ | ⟨-, -, hn, -, hfault, -⟩ | ⟨-, -, -, -, hr⟩
  · exact ⟨_, hr⟩
  · exact ⟨_, hr⟩
  · exact ⟨_, hr⟩
  · omega
  · exact ⟨_, hr⟩

/-- No record is longer than `maxRecordBytes` (R72), so that many bytes never end inside one. -/
theorem decodeRecord_truncated_length {f : Format} {bs : List Byte} (h : decodeRecord f bs = .error .truncated) :
    bs.length < maxRecordBytes := by
  match bs with
  | [] | [_] | [_, _] | [_, _, _] | [_, _, _, _] => simp [maxRecordBytes]
  | b0 :: b1 :: b2 :: b3 :: b4 :: rest =>
    exfalso
    cases f with
    | a => simp [decodeRecord, decodeA] at h
    | b =>
      simp only [decodeRecord, decodeB] at h
      split_ifs at h
      exact nomatch h
    | c =>
      simp only [decodeRecord, decodeC] at h
      split_ifs at h

theorem State.window_length (s : State) : s.window.length = s.windowLength := by
  simp [State.window]

/-- A stream that lies inside IBUF has every byte the decoder asks for: where the window ends early, the stream does. -/
theorem recordStep_truncated {s : State} (hin : s.inLen.toNat ≤ s.ibufSize)
    (h : decodeRecord s.jobFmt s.window = .error .truncated) : s.inLen.toNat ≤ s.inPos.toNat + s.windowLength := by
  have hshort := decodeRecord_truncated_length h
  rw [State.window_length] at hshort
  unfold State.windowLength at hshort ⊢
  omega

theorem decStep_exists_next {s : State} (h : s.Inv) (hbusy : s.status.busy = true) (hd : s.jobDir = .dec) :
    ∃ t, decStep s = .next t := by
  obtain ⟨-, -, -, -, hjob⟩ := h
  obtain ⟨-, -, -, ho, -, hdec⟩ := hjob hbusy
  obtain ⟨hin, hcap, -, -⟩ := hdec hd
  by_cases hp : s.outLen.toNat < s.npix.toNat
  · rw [decStep_record hp]
    rcases recordStep_cases s with ⟨i, rest, -, hlen, hr⟩ | ⟨htrunc, ⟨-, hr⟩ | ⟨hmissing, -⟩⟩ | ⟨-, hr⟩
    · obtain ⟨n, canonical, v, hexec⟩ := exec_record i hlen
      rw [hr, hexec]
      exact runRecord_exists_next (hcap.trans ho) _ n canonical v
    · exact ⟨_, hr⟩
    · exact absurd (recordStep_truncated hin htrunc) (by omega)
    · exact ⟨_, hr⟩
  · exact ⟨_, decStep_filled (by omega)⟩

theorem engineStep_exists_next {s : State} (h : s.Inv) : ∃ t, engineStep s = .next t := by
  cases hbusy : s.status.busy with
  | false => exact ⟨s, engineStep_idle hbusy⟩
  | true =>
    cases hd : s.jobDir with
    | enc =>
      rw [engineStep_enc hbusy hd]
      exact encStep_exists_next h hbusy hd
    | dec =>
      rw [engineStep_dec hbusy hd]
      exact decStep_exists_next h hbusy hd

/-! ### The host -/

/-- No host operation on an idle block stops the machine (R212). -/
theorem runHostOp_idle {s : State} (h : s.status.busy = false) (op : HostOp) : ∃ t, runHostOp op s = .next t := by
  cases op with
  | regRead i => exact ⟨_, rfl⟩
  | regWrite i v =>
    rcases regWrite_cases h i v with ⟨-, -, hw⟩ | ⟨d, f, -, hw⟩ | ⟨-, hw⟩ | ⟨-, hw⟩ <;> exact ⟨_, hw⟩
  | bufRead b a => exact ⟨_, rfl⟩
  | bufWrite b a v => exact ⟨_, hostWrite_idle h b a v⟩
  | poll => exact ⟨_, runHostOp_poll s⟩

theorem hostStep_idle {s : State} (h : s.status.busy = false) : ∃ t, hostStep s = .next t := by
  cases hp : s.program with
  | nil => exact ⟨s, hostStep_nil hp⟩
  | cons op rest =>
    rw [hostStep_cons hp]
    exact runHostOp_idle (s := { s with program := rest }) h op

/-- A buffer write during a job is the buffer's hazard (R237, R238). -/
theorem hostStep_hazard {s : State} (h : s.status.busy = true) (hw : bufWriteNext s.program = true) :
    ∃ b, hostStep s = .fault (bufHazard b) := by
  obtain ⟨b, a, v, rest, hp⟩ := exists_of_bufWriteNext hw
  rw [hostStep_cons hp]
  exact ⟨b, hostWrite_busy (s := { s with program := rest }) h b a v⟩

theorem hostStep_next_or_hazard (s : State) :
    (∃ t, hostStep s = .next t) ∨
    s.status.busy = true ∧ bufWriteNext s.program = true ∧ ∃ b, hostStep s = .fault (bufHazard b) := by
  cases hbusy : s.status.busy with
  | false => exact .inl (hostStep_idle hbusy)
  | true =>
    cases hw : bufWriteNext s.program with
    | false =>
      obtain ⟨t, ht, -⟩ := hostStep_busy hbusy hw
      exact .inl ⟨t, ht⟩
    | true => exact .inr ⟨rfl, rfl, hostStep_hazard hbusy hw⟩

/-! ### The obligation -/

/-- Settles O4: the engine of a sound state and a reset always answer a next state, so a step that stops is the host's. -/
theorem theMachineStopsOnlyOnHazards : Obligations.TheMachineStopsOnlyOnHazards := by
  intro s h
  obtain ⟨g, u, -, hu, hnext, hstep⟩ := step_cases s
  rw [hstep]
  cases g with
  | engine =>
    have hinv : u.Inv := by
      rw [hu]
      exact State.inv_hostFields h s.program u.schedule s.replies s.freeReads
    exact .inl (engineStep_exists_next hinv)
  | reset => exact .inl ⟨u.resetEvent, rfl⟩
  | host =>
    refine (hostStep_next_or_hazard u).imp id fun ⟨hbusy, hw, b, hfault⟩ => ?_
    rw [hu] at hbusy hw
    refine ⟨⟨hbusy, congrArg Prod.fst hnext, hw⟩, ?_⟩
    cases b with
    | ibuf => exact .inl hfault
    | obuf => exact .inr hfault

end Sys2Proof.Machine
end

section
/-! SUPPORT. The engine never reads OBUF (O43): two runs of a step from states that differ in OBUF only go through the same
parts side by side. -/

namespace Sys2Proof.Machine

/-! ### States that differ in OBUF only -/

/-- u is s with another OBUF, which has the same bytes from an address up to OUT_LEN. -/
def State.ObufTwin (lo : Nat) (s u : State) : Prop :=
  ∃ m, u = { s with obuf := m } ∧ ∀ a, lo ≤ a → a < s.outLen.toNat → u.obufByte a = s.obufByte a

/-- From OUT_LEN on there is no byte yet to agree on. -/
theorem State.obufTwin_outLen (s : State) (m : Memory) : s.ObufTwin s.outLen.toNat { s with obuf := m } :=
  ⟨m, rfl, fun _ hlo hhi => absurd hhi (by omega)⟩

section
variable {lo : Nat} {s u : State} (h : s.ObufTwin lo u)
include h

theorem State.ObufTwin.raise (e : ErrCode) : (s.raise e).ObufTwin lo (u.raise e) := by
  obtain ⟨m, rfl, hbytes⟩ := h
  exact ⟨m, rfl, hbytes⟩

theorem State.ObufTwin.finish : s.finish.ObufTwin lo u.finish := h.raise .noError

theorem State.ObufTwin.advance (n : Nat) : (s.advance n).ObufTwin lo (u.advance n) := by
  obtain ⟨m, rfl, hbytes⟩ := h
  exact ⟨m, rfl, hbytes⟩

theorem State.ObufTwin.setAcc (v : Byte) (n : Word) : (s.setAcc v n).ObufTwin lo (u.setAcc v n) := by
  obtain ⟨m, rfl, hbytes⟩ := h
  exact ⟨m, rfl, hbytes⟩

/-- The bytes below the new OUT_LEN are the old ones and the one appended. -/
theorem State.ObufTwin.appendByte (b : Byte) : (s.appendByte b).ObufTwin lo (u.appendByte b) := by
  obtain ⟨m, rfl, hbytes⟩ := h
  refine ⟨writeCell m s.outLen.toNat b, rfl, fun a hlo hhi => ?_⟩
  rw [State.obufByte_appendByte, State.obufByte_appendByte]
  by_cases ha : a = s.outLen.toNat
  · rw [if_pos ha, if_pos ha]
  · rw [if_neg ha, if_neg ha]
    rw [State.appendByte_outLen] at hhi
    exact hbytes a hlo (by bv_omega)

/-- The bytes below the new OUT_LEN are the old ones and the pixels. -/
theorem State.ObufTwin.appendPixels (v : Byte) (n : Nat) : (s.appendPixels v n).ObufTwin lo (u.appendPixels v n) := by
  obtain ⟨m, rfl, hbytes⟩ := h
  refine ⟨fillCells m s.outLen.toNat v n, rfl, fun a hlo hhi => ?_⟩
  have hle : (s.appendPixels v n).outLen.toNat ≤ s.outLen.toNat + n := Nat.mod_le _ _
  rw [State.obufByte_appendPixels, State.obufByte_appendPixels]
  by_cases ha : s.outLen.toNat ≤ a ∧ a < s.outLen.toNat + n
  · rw [if_pos ha, if_pos ha]
  · rw [if_neg ha, if_neg ha]
    exact hbytes a hlo (by omega)

end

/-! ### Parts of a step side by side -/

/-- Both parts of a step lead the same way, to states that differ in OBUF only. -/
inductive Flow.ObufTwin (lo : Nat) : Flow → Flow → Prop
  | ok {s u : State} (h : s.ObufTwin lo u) : Flow.ObufTwin lo (.ok s) (.ok u)
  | ended {s u : State} (h : s.ObufTwin lo u) : Flow.ObufTwin lo (.ended s) (.ended u)
  | fault (x : Fault) : Flow.ObufTwin lo (.fault x) (.fault x)

/-- When the first step answers a next state, so does the second, and the states differ in OBUF only. -/
def NextTwin (lo : Nat) (o o' : Host.Outcome State Fault Refusal) : Prop :=
  ∀ t, o = .next t → ∃ u, o' = .next u ∧ t.ObufTwin lo u

theorem State.ObufTwin.nextTwin {lo : Nat} {s u : State} (h : s.ObufTwin lo u) : NextTwin lo (.next s) (.next u) := by
  rintro _ ⟨⟩
  exact ⟨u, rfl, h⟩

theorem nextTwin_fault (lo : Nat) (x : Fault) (o : Host.Outcome State Fault Refusal) : NextTwin lo (.fault x) o :=
  fun _ ht => nomatch ht

theorem Flow.ObufTwin.andThen {lo : Nat} {m m' : Flow} {k k' : State → Flow} (hm : m.ObufTwin lo m')
    (hk : ∀ s u, s.ObufTwin lo u → (k s).ObufTwin lo (k' u)) : (m.andThen k).ObufTwin lo (m'.andThen k') := by
  cases hm with
  | ok h => exact hk _ _ h
  | ended h => exact .ended h
  | fault x => exact .fault x

theorem Flow.ObufTwin.outcome {lo : Nat} {m m' : Flow} {k : State → State} (hm : m.ObufTwin lo m')
    (hk : ∀ s u, s.ObufTwin lo u → (k s).ObufTwin lo (k u)) : NextTwin lo (m.outcome k) (m'.outcome k) := by
  cases hm with
  | ok h => exact (hk _ _ h).nextTwin
  | ended h => exact h.nextTwin
  | fault x => exact nextTwin_fault lo x _

/-! ### Encode jobs -/

/-- emit asks for OUT_LEN, OUT_CAP and the size only (R42). -/
theorem State.ObufTwin.emit {lo : Nat} (b : Byte) {s u : State} (h : s.ObufTwin lo u) :
    (emit b s).ObufTwin lo (emit b u) := by
  have ⟨m, hu, _⟩ := h
  subst hu
  unfold Machine.emit
  dsimp only
  split_ifs
  · exact .ended (h.raise _)
  · exact .fault _
  · exact .ok (h.appendByte b)

theorem State.ObufTwin.emitAll {lo : Nat} (bs : List Byte) {s u : State} (h : s.ObufTwin lo u) :
    (emitAll bs s).ObufTwin lo (emitAll bs u) := by
  induction bs generalizing s u with
  | nil => exact .ok h
  | cons b bs ih => exact (h.emit b).andThen fun _ _ => ih

section
variable {lo : Nat} {s u : State} (h : s.ObufTwin lo u)
include h

theorem State.ObufTwin.flushA : (flushA s).ObufTwin lo (flushA u) := by
  have ⟨m, hu, _⟩ := h
  subst hu
  exact h.emitAll _

theorem State.ObufTwin.flushB : (flushB s).ObufTwin lo (flushB u) := by
  have ⟨m, hu, _⟩ := h
  subst hu
  exact h.emitAll _

theorem State.ObufTwin.clearRun : (s.setAcc s.accVal 0#32).ObufTwin lo (u.setAcc u.accVal 0#32) := by
  have ⟨m, hu, _⟩ := h
  subst hu
  exact h.setAcc _ _

theorem State.ObufTwin.flushC : (flushC s).ObufTwin lo (flushC u) := by
  have ⟨m, hu, _⟩ := h
  subst hu
  exact (h.emitAll _).andThen fun _ _ ht => .ok ht.clearRun

theorem State.ObufTwin.pixelA (p : Byte) : (pixelA p s).ObufTwin lo (pixelA p u) := by
  have ⟨m, hu, _⟩ := h
  subst hu
  unfold Machine.pixelA
  dsimp only
  split_ifs
  · exact ((h.setAcc _ _).emitAll _).andThen fun _ _ ht => .ok ht.clearRun
  · exact .ok (h.setAcc _ _)
  · exact h.flushA.andThen fun _ _ ht => .ok (ht.setAcc _ _)

theorem State.ObufTwin.pixelB (p : Byte) : (pixelB p s).ObufTwin lo (pixelB p u) := by
  have ⟨m, hu, _⟩ := h
  subst hu
  unfold Machine.pixelB
  dsimp only
  split_ifs
  · exact .ended (h.raise _)
  · exact .ok (h.setAcc _ _)
  · exact h.flushB.andThen fun _ _ ht => .ok (ht.setAcc _ _)

theorem State.ObufTwin.pixelC (p : Byte) : (pixelC p s).ObufTwin lo (pixelC p u) := by
  have ⟨m, hu, _⟩ := h
  subst hu
  unfold Machine.pixelC
  dsimp only
  split_ifs
  · exact .ok (h.setAcc _ _)
  · exact h.flushC.andThen fun _ _ ht => .ok (ht.setAcc _ _)

theorem State.ObufTwin.pixelStep (f : Format) (p : Byte) : (pixelStep f p s).ObufTwin lo (pixelStep f p u) := by
  cases f with
  | a => exact h.pixelA p
  | b => exact h.pixelB p
  | c => exact h.pixelC p

theorem State.ObufTwin.flushStep (f : Format) : (flushStep f s).ObufTwin lo (flushStep f u) := by
  cases f with
  | a => exact h.flushA
  | b => exact h.flushB
  | c => exact h.flushC

/-- The pixel comes from IBUF. -/
theorem State.ObufTwin.encStep : NextTwin lo (encStep s) (encStep u) := by
  have ⟨m, hu, _⟩ := h
  subst hu
  unfold Machine.encStep
  dsimp only
  split_ifs
  · exact nextTwin_fault lo _ _
  · exact (h.pixelStep _ _).outcome fun _ _ ht => ht.advance 1
  · exact (h.flushStep _).outcome fun _ _ ht => ht.finish

/-! ### Decode jobs -/

theorem State.ObufTwin.putPixels (v : Byte) (n : Nat) : (putPixels v n s).ObufTwin lo (putPixels v n u) := by
  have ⟨m, hu, _⟩ := h
  subst hu
  unfold Machine.putPixels
  dsimp only
  split_ifs
  · exact .fault _
  · exact .ok (h.appendPixels v n)

theorem State.ObufTwin.runRecord (len n : Nat) (canonical : Bool) (v : Byte) :
    NextTwin lo (runRecord len n canonical v s) (runRecord len n canonical v u) := by
  have ⟨m, hu, _⟩ := h
  subst hu
  unfold Machine.runRecord
  dsimp only
  split_ifs
  · exact (h.raise _).nextTwin
  · exact (h.raise _).nextTwin
  · exact (h.raise _).nextTwin
  · exact (h.putPixels v n).outcome fun _ _ ht => ht.advance len

/-- The record's bytes come from IBUF, so both steps decode the same record. -/
theorem State.ObufTwin.recordStep : NextTwin lo (recordStep s) (recordStep u) := by
  have hdec : decodeRecord u.jobFmt u.window = decodeRecord s.jobFmt s.window := by
    obtain ⟨m, rfl, -⟩ := h
    rfl
  have hmissing : s.inLen.toNat ≤ s.inPos.toNat + s.windowLength ↔ u.inLen.toNat ≤ u.inPos.toNat + u.windowLength := by
    obtain ⟨m, rfl, -⟩ := h
    rfl
  rcases recordStep_cases s with ⟨i, rest, hi, hlen, hr⟩ | ⟨ht, ⟨hl, hr⟩ | ⟨-, hr⟩⟩ | ⟨hp, hr⟩ <;> rw [hr]
  · obtain ⟨n, canonical, v, hexec⟩ := exec_record i hlen
    have hu : Machine.recordStep u = exec i u := by rw [Machine.recordStep, hdec, hi]
    rw [hu, hexec, hexec]
    exact h.runRecord _ n canonical v
  · have hu : Machine.recordStep u = .next (u.raise .truncatedStream) := by
      rw [Machine.recordStep, hdec, ht]
      exact if_pos (hmissing.mp hl)
    rw [hu]
    exact (h.raise _).nextTwin
  · exact nextTwin_fault lo _ _
  · have hu : Machine.recordStep u = .next (u.raise .malformedRecord) := by rw [Machine.recordStep, hdec, hp]
    rw [hu]
    exact (h.raise _).nextTwin

theorem State.ObufTwin.decStep : NextTwin lo (decStep s) (decStep u) := by
  have ⟨m, hu, _⟩ := h
  subst hu
  unfold Machine.decStep
  dsimp only
  split_ifs
  · exact h.recordStep
  · exact h.finish.nextTwin

theorem State.ObufTwin.engineStep : NextTwin lo (engineStep s) (engineStep u) := by
  have hbusy : u.status.busy = s.status.busy := by
    obtain ⟨m, rfl, -⟩ := h
    rfl
  have hdir : u.jobDir = s.jobDir := by
    obtain ⟨m, rfl, -⟩ := h
    rfl
  cases hb : s.status.busy with
  | false =>
    rw [engineStep_idle hb, engineStep_idle (hbusy.trans hb)]
    exact h.nextTwin
  | true =>
    cases hd : s.jobDir with
    | enc =>
      rw [engineStep_enc hb hd, engineStep_enc (hbusy.trans hb) (hdir.trans hd)]
      exact h.encStep
    | dec =>
      rw [engineStep_dec hb hd, engineStep_dec (hbusy.trans hb) (hdir.trans hd)]
      exact h.decStep

end

/-! ### The obligation -/

/-- Settles O43: at the step's begin the two states agree on no byte of OBUF, and each part of the step writes the same
bytes to both. -/
theorem engineNeverReadsItsOutput : Obligations.EngineNeverReadsItsOutput := by
  intro s t m _ hst
  obtain ⟨u, hu, m', rfl, hbytes⟩ := (s.obufTwin_outLen m).engineStep t hst
  exact ⟨_, hu, rfl, hbytes⟩

end Sys2Proof.Machine
end

section
/-! SUPPORT. Decoder and encoder (O21, O22, O23, O51): the decoder reads a record off a stream exactly when the stream begins
with the encoding of that record (30_encoding.md R61 to R70). -/

namespace Sys2Proof.Machine

/-! ### The decoders on encoded fields: one equation per kind of record

The bytes are written as the tables of R63 to R70 write them, a tag followed by a field. -/

section
variable (rest : List Byte)

theorem decodeA_run (on : Bool) (l : BitVec 7) :
    decodeA ((BitVec.ofBool on ++ l) :: rest) = .ok (.aRun on l, rest) := by
  simp [decodeA, BitVec.getElem_append (n := 1) (m := 7), BitVec.extractLsb'_append_eq_right (w := 1) (w' := 7)]

theorem decodeB_pix (c : BitVec 7) : decodeB ((0#1 ++ c) :: rest) = .ok (.bPix c, rest) := by
  simp [decodeB, BitVec.getElem_append (n := 1) (m := 7), BitVec.extractLsb'_append_eq_right (w := 1) (w' := 7)]

theorem decodeB_run1 (c n : BitVec 7) : decodeB ((1#1 ++ c) :: (0#1 ++ n) :: rest) = .ok (.bRun1 c n, rest) := by
  simp [decodeB, BitVec.getElem_append (n := 1) (m := 7), BitVec.extractLsb'_append_eq_right (w := 1) (w' := 7)]

theorem decodeB_run2 (c : BitVec 7) (h : BitVec 6) (l : Byte) :
    decodeB ((1#1 ++ c) :: (0b10#2 ++ h) :: l :: rest) = .ok (.bRun2 c (h ++ l), rest) := by
  simp [decodeB, BitVec.getElem_append (n := 1) (m := 7), BitVec.extractLsb'_append_eq_right (w := 1) (w' := 7),
    BitVec.getElem_append (n := 2) (m := 6), BitVec.extractLsb'_append_eq_right (w := 2) (w' := 6),
    BitVec.extractLsb'_append_eq_of_le (v := 2) (w := 6)]

theorem decodeB_run3 (c : BitVec 7) (h : BitVec 5) (l₁ l₂ : Byte) :
    decodeB ((1#1 ++ c) :: (0b110#3 ++ h) :: l₁ :: l₂ :: rest) = .ok (.bRun3 c (h ++ l₁ ++ l₂), rest) := by
  simp [decodeB, BitVec.getElem_append (n := 1) (m := 7), BitVec.extractLsb'_append_eq_right (w := 1) (w' := 7),
    BitVec.getElem_append (n := 3) (m := 5), BitVec.extractLsb'_append_eq_right (w := 3) (w' := 5),
    BitVec.extractLsb'_append_eq_of_le (v := 3) (w := 5)]

theorem decodeB_run4 (c : BitVec 7) (h : BitVec 4) (l₁ l₂ l₃ : Byte) :
    decodeB ((1#1 ++ c) :: (0b1110#4 ++ h) :: l₁ :: l₂ :: l₃ :: rest) = .ok (.bRun4 c (h ++ l₁ ++ l₂ ++ l₃), rest) := by
  simp [decodeB, BitVec.getElem_append (n := 1) (m := 7), BitVec.extractLsb'_append_eq_right (w := 1) (w' := 7),
    BitVec.getElem_append (n := 4) (m := 4), BitVec.extractLsb'_append_eq_right (w := 4) (w' := 4),
    BitVec.extractLsb'_append_eq_of_le (v := 4) (w := 4)]

theorem decodeC_runK (h : BitVec 4) (l : Byte) :
    decodeC ((0x0#4 ++ h) :: l :: rest) = .ok (.cRunK (h ++ l), rest) := by
  simp [decodeC, BitVec.extractLsb'_append_eq_left (w := 4) (w' := 4),
    BitVec.extractLsb'_append_eq_right (w := 4) (w' := 4)]

theorem decodeC_runW (h : BitVec 4) (l : Byte) :
    decodeC ((0xF#4 ++ h) :: l :: rest) = .ok (.cRunW (h ++ l), rest) := by
  simp [decodeC, BitVec.extractLsb'_append_eq_left (w := 4) (w' := 4),
    BitVec.extractLsb'_append_eq_right (w := 4) (w' := 4)]

theorem decodeC_runM {c : BitVec 4} (hc : middleColour c = true) (n : BitVec 4) :
    decodeC ((c ++ n) :: rest) = .ok (.cRunM c n, rest) := by
  obtain ⟨h0, h15⟩ : c ≠ 0#4 ∧ c ≠ 15#4 := by simpa [middleColour] using hc
  simp [decodeC, BitVec.extractLsb'_append_eq_left (w := 4) (w' := 4),
    BitVec.extractLsb'_append_eq_right (w := 4) (w' := 4), h0, h15]

end

/-! ### The encoder on joined lengths: a length of several bytes is its fields, most significant first (R66) -/

theorem exists_append_eq {m n : Nat} (x : BitVec (m + n)) : ∃ (h : BitVec m) (l : BitVec n), h ++ l = x :=
  ⟨_, _, BitVec.extractLsb'_append_extractLsb'⟩

theorem encode_bRun2 (c : BitVec 7) (h : BitVec 6) (l : Byte) :
    encode (.bRun2 c (h ++ l)) = .record .b [1#1 ++ c, 0b10#2 ++ h, l] := by
  simp [encode, BitVec.extractLsb'_append_eq_left (w := 6) (w' := 8),
    BitVec.extractLsb'_append_eq_right (w := 6) (w' := 8)]

theorem encode_bRun3 (c : BitVec 7) (h : BitVec 5) (l₁ l₂ : Byte) :
    encode (.bRun3 c (h ++ l₁ ++ l₂)) = .record .b [1#1 ++ c, 0b110#3 ++ h, l₁, l₂] := by
  simp [encode, BitVec.extractLsb'_append_eq_of_le (v := 13) (w := 8),
    BitVec.extractLsb'_append_eq_right (w := 13) (w' := 8), BitVec.extractLsb'_append_eq_left (w := 5) (w' := 8),
    BitVec.extractLsb'_append_eq_right (w := 5) (w' := 8)]

theorem encode_bRun4 (c : BitVec 7) (h : BitVec 4) (l₁ l₂ l₃ : Byte) :
    encode (.bRun4 c (h ++ l₁ ++ l₂ ++ l₃)) = .record .b [1#1 ++ c, 0b1110#4 ++ h, l₁, l₂, l₃] := by
  simp [encode, BitVec.extractLsb'_append_eq_of_le (v := 20) (w := 8),
    BitVec.extractLsb'_append_eq_right (w := 20) (w' := 8), BitVec.extractLsb'_append_eq_of_le (v := 12) (w := 8),
    BitVec.extractLsb'_append_eq_right (w := 12) (w' := 8), BitVec.extractLsb'_append_eq_left (w := 4) (w' := 8),
    BitVec.extractLsb'_append_eq_right (w := 4) (w' := 8)]

theorem encode_cRunK (h : BitVec 4) (l : Byte) : encode (.cRunK (h ++ l)) = .record .c [0x0#4 ++ h, l] := by
  simp [encode, BitVec.extractLsb'_append_eq_left (w := 4) (w' := 8),
    BitVec.extractLsb'_append_eq_right (w := 4) (w' := 8)]

theorem encode_cRunW (h : BitVec 4) (l : Byte) : encode (.cRunW (h ++ l)) = .record .c [0xF#4 ++ h, l] := by
  simp [encode, BitVec.extractLsb'_append_eq_left (w := 4) (w' := 8),
    BitVec.extractLsb'_append_eq_right (w := 4) (w' := 8)]

/-! ### A record decodes exactly from its encoding -/

/-- A stream that begins with an encoded record decodes to that record, whatever follows it. -/
theorem decodeRecord_append {f : Format} {i : Instr} {bs : List Byte} (hi : i.wellFormed = true)
    (he : encode i = .record f bs) (rest : List Byte) : decodeRecord f (bs ++ rest) = .ok (i, rest) := by
  cases i with
  | nop | encA | encB | encC | decA | decB | decC => cases he
  | aRun on l => cases he; exact decodeA_run rest on l
  | bPix c => cases he; exact decodeB_pix rest c
  | bRun1 c n => cases he; exact decodeB_run1 rest c n
  | bRun2 c n =>
    obtain ⟨h, l, rfl⟩ := exists_append_eq (m := 6) (n := 8) n
    cases (encode_bRun2 c h l).symm.trans he
    exact decodeB_run2 rest c h l
  | bRun3 c n =>
    obtain ⟨n, l₂, rfl⟩ := exists_append_eq (m := 13) (n := 8) n
    obtain ⟨h, l₁, rfl⟩ := exists_append_eq (m := 5) (n := 8) n
    cases (encode_bRun3 c h l₁ l₂).symm.trans he
    exact decodeB_run3 rest c h l₁ l₂
  | bRun4 c n =>
    obtain ⟨n, l₃, rfl⟩ := exists_append_eq (m := 20) (n := 8) n
    obtain ⟨n, l₂, rfl⟩ := exists_append_eq (m := 12) (n := 8) n
    obtain ⟨h, l₁, rfl⟩ := exists_append_eq (m := 4) (n := 8) n
    cases (encode_bRun4 c h l₁ l₂ l₃).symm.trans he
    exact decodeB_run4 rest c h l₁ l₂ l₃
  | cRunK n =>
    obtain ⟨h, l, rfl⟩ := exists_append_eq (m := 4) (n := 8) n
    cases (encode_cRunK h l).symm.trans he
    exact decodeC_runK rest h l
  | cRunW n =>
    obtain ⟨h, l, rfl⟩ := exists_append_eq (m := 4) (n := 8) n
    cases (encode_cRunW h l).symm.trans he
    exact decodeC_runW rest h l
  | cRunM c n => cases he; exact decodeC_runM rest hi n

/-- A byte is its tag followed by the bits below it. -/
theorem tag_append_extractLsb' {m n : Nat} {x : BitVec (m + n)} {tag : BitVec m} (h : x.extractLsb' n m = tag) :
    tag ++ x.extractLsb' 0 n = x := by
  rw [← h, BitVec.extractLsb'_append_extractLsb']

theorem extractLsb'_seven (x : Byte) : x.extractLsb' 7 1 = BitVec.ofBool (x.getLsbD 7) := by
  ext k hk
  obtain rfl : k = 0 := by omega
  simp

theorem zero_append_extractLsb' {x : Byte} (h : x.getLsbD 7 = false) : 0#1 ++ x.extractLsb' 0 7 = x :=
  tag_append_extractLsb' (by rw [extractLsb'_seven, h]; rfl)

theorem one_append_extractLsb' {x : Byte} (h : ¬x.getLsbD 7 = false) : 1#1 ++ x.extractLsb' 0 7 = x :=
  tag_append_extractLsb' (by rw [extractLsb'_seven, Bool.eq_true_of_not_eq_false h]; rfl)

/-- What decodes is a well-formed record of the stream's format, and the stream begins with its encoding. -/
theorem encode_of_decodeRecord {f : Format} {i : Instr} {bs rest : List Byte} (h : decodeRecord f bs = .ok (i, rest)) :
    i.wellFormed = true ∧ ∃ p, encode i = .record f p ∧ bs = p ++ rest := by
  cases f with
  | a =>
    cases bs with
    | nil => cases h
    | cons b bs =>
      cases h
      exact ⟨rfl, _, rfl, by rw [tag_append_extractLsb' (extractLsb'_seven b)]; rfl⟩
  | b =>
    simp only [decodeRecord] at h
    unfold decodeB at h
    repeat' split at h
    all_goals cases h
    next b0 hpix => exact ⟨rfl, _, rfl, by rw [zero_append_extractLsb' hpix]; rfl⟩
    next b0 hrun _ l0 h1 =>
      exact ⟨rfl, _, rfl, by rw [one_append_extractLsb' hrun, zero_append_extractLsb' h1]; rfl⟩
    next b0 hrun _ l0 _ h2 _ l1 =>
      exact ⟨rfl, _, encode_bRun2 _ _ _, by rw [one_append_extractLsb' hrun, tag_append_extractLsb' h2]; rfl⟩
    next b0 hrun _ l0 _ _ h3 _ l1 l2 =>
      exact ⟨rfl, _, encode_bRun3 _ _ _ _, by rw [one_append_extractLsb' hrun, tag_append_extractLsb' h3]; rfl⟩
    next b0 hrun _ l0 _ _ _ h4 _ l1 l2 l3 =>
      exact ⟨rfl, _, encode_bRun4 _ _ _ _ _, by rw [one_append_extractLsb' hrun, tag_append_extractLsb' h4]; rfl⟩
  | c =>
    simp only [decodeRecord] at h
    unfold decodeC at h
    repeat' split at h
    all_goals cases h
    next b0 hK _ l => exact ⟨rfl, _, encode_cRunK _ _, by rw [tag_append_extractLsb' hK]; rfl⟩
    next b0 _ hW _ l => exact ⟨rfl, _, encode_cRunW _ _, by rw [tag_append_extractLsb' hW]; rfl⟩
    next b0 h0 h15 =>
      exact ⟨by simp [Instr.wellFormed, middleColour, h0, h15], _, rfl, by rw [tag_append_extractLsb' rfl]; rfl⟩

theorem decodeRecord_eq_ok_iff {f : Format} {i : Instr} {bs rest : List Byte} :
    decodeRecord f bs = .ok (i, rest) ↔ i.wellFormed = true ∧ ∃ p, encode i = .record f p ∧ bs = p ++ rest :=
  ⟨encode_of_decodeRecord, fun ⟨hi, _, he, hbs⟩ => hbs ▸ decodeRecord_append hi he rest⟩

/-! ### A code decodes exactly when it is an encoding -/

/-- A command word is matched whole (R62, R73). -/
theorem decodeCommand_eq_ok_iff {v : Word} {i : Instr} : decodeCommand v = .ok i ↔ encode i = .command v := by
  constructor
  · intro h
    unfold decodeCommand at h
    split_ifs at h <;> cases h <;> simp only [encode, *]
  · intro h
    cases i <;> cases h <;> rfl

theorem wellFormed_of_encode_command {v : Word} {i : Instr} (h : encode i = .command v) : i.wellFormed = true := by
  cases i <;> cases h <;> rfl

/-- A record decodes when nothing follows it. -/
theorem decode_record_eq_ok_iff {f : Format} {bs : List Byte} {i : Instr} :
    decode (.record f bs) = .ok i ↔ decodeRecord f bs = .ok (i, []) := by
  rw [decode]
  split <;> simp [*]

/-- The decoder is the inverse of the encoder on the well-formed instructions. -/
theorem decode_eq_ok_iff {c : Code} {i : Instr} : decode c = .ok i ↔ i.wellFormed = true ∧ encode i = c := by
  cases c with
  | command v => exact decodeCommand_eq_ok_iff.trans ⟨fun h => ⟨wellFormed_of_encode_command h, h⟩, And.right⟩
  | record f bs => simp [decode_record_eq_ok_iff, decodeRecord_eq_ok_iff]

/-! ### The obligations on codes -/

/-- Settles O21: the code of a well-formed instruction is one the decoder accepts. -/
theorem decodingAnEncodingGivesTheInstruction : Obligations.DecodingAnEncodingGivesTheInstruction :=
  fun _ hi => decode_eq_ok_iff.mpr ⟨hi, rfl⟩

/-- Settles O22: the converse reading of the same equivalence. -/
theorem encodingADecodingGivesTheCode : Obligations.EncodingADecodingGivesTheCode :=
  fun _ _ => decode_eq_ok_iff.mp

/-- Settles O23: an instruction's code is looked up in the encoder's table; the two rejections are computed. -/
theorem sampleCodesDecode : Obligations.SampleCodesDecode := by
  have hcode {i : Instr} {c : Code} (hi : i.wellFormed = true) (he : encode i = c) : decode c = .ok i :=
    decode_eq_ok_iff.mpr ⟨hi, he⟩
  exact ⟨hcode rfl rfl, hcode rfl rfl, hcode rfl rfl, rfl, hcode rfl rfl, hcode rfl rfl, hcode rfl rfl, hcode rfl rfl,
    hcode rfl rfl, hcode rfl rfl, rfl, hcode rfl rfl, hcode rfl rfl, hcode rfl rfl⟩

/-! ### The record at IN_POS -/

theorem recordBytes_length (i : Instr) : (recordBytes i).length = i.recordLength := by
  cases i <;> rfl

/-- R72. -/
theorem recordLength_le_maxRecordBytes (i : Instr) : i.recordLength ≤ maxRecordBytes := by
  cases i <;> simp [Instr.recordLength, maxRecordBytes]

/-- The decoder's window begins with the bytes that stand at IN_POS below IN_LEN, as many as a record may have. -/
theorem State.window_eq_append {s : State} {bs : List Byte} (hmax : bs.length ≤ maxRecordBytes)
    (hin : s.inLen.toNat ≤ s.ibufSize) (hfit : s.inPos.toNat + bs.length ≤ s.inLen.toNat)
    (hbytes : ∀ k, k < bs.length → s.ibufByte (s.inPos.toNat + k) = bs.getD k 0#8) : ∃ rest, s.window = bs ++ rest := by
  have hlen : bs.length ≤ s.window.length := by
    rw [State.window_length, State.windowLength]
    omega
  have htake : s.window.take bs.length = bs := by
    refine List.ext_getElem (by simpa using hlen) fun k _ hk => ?_
    simp [State.window, hbytes k hk, hk]
  exact ⟨_, (List.take_append_drop bs.length s.window).symm.trans (congrArg (· ++ _) htake)⟩

/-- A record step at the encoding of a well-formed record is that record's meaning, whatever bytes follow. -/
theorem recordStep_of_window {s : State} {i : Instr} {bs rest : List Byte} (hi : i.wellFormed = true)
    (he : encode i = .record s.jobFmt bs) (hw : s.window = bs ++ rest) : recordStep s = exec i s := by
  rw [recordStep, hw, decodeRecord_append hi he]

/-- Settles O51: the engine steps, its decode job takes a record, and the window begins with the record's bytes. -/
theorem aStepRunsTheDecodedRecord : Obligations.AStepRunsTheDecodedRecord := by
  rintro s f i hsched ⟨hbusy, hdir, rfl⟩ hout hin hi he hfit hbytes
  rw [← recordBytes_length] at hfit hbytes
  obtain ⟨rest, hw⟩ :=
    s.window_eq_append ((recordBytes_length i).trans_le (recordLength_le_maxRecordBytes i)) hin hfit hbytes
  rw [step_busy hsched hbusy, engineStep_dec hbusy hdir, decStep_record hout, recordStep_of_window hi he hw]

end Sys2Proof.Machine
end

section
/-! SUPPORT. Flushes and RUN expansions (O34, O35, O36): the bytes of each flush as numbers, the bytes of each record as the
same numbers, and one recursion for the expansions of Formats A and C (30_encoding.md R76, R77). -/

namespace Sys2Proof.Machine

/-! ### The bytes of the Format A and Format B flushes -/

/-- A field below a tag is added by OR. -/
theorem or_eq_add_of_lt {k x : Nat} (h : x < 2 ^ k) (tag : Nat) : x ||| 2 ^ k * tag = 2 ^ k * tag + x := by
  rw [Nat.or_comm, Nat.two_pow_add_eq_or_of_lt h]

/-- Masking to 8 bits is what a byte does anyway. -/
theorem ofNat_and_255 (x : Nat) : BitVec.ofNat 8 (x &&& 0xFF) = BitVec.ofNat 8 x := by
  apply BitVec.eq_of_toNat_eq
  rw [BitVec.toNat_ofNat, BitVec.toNat_ofNat, Nat.and_two_pow_sub_one_eq_mod x 8, Nat.mod_mod]

theorem flushBytesA_run {v r : Nat} (h1 : 1 ≤ r) (h2 : r ≤ 125) : flushBytesA v r = [BitVec.ofNat 8 (128 * v + r)] := by
  rw [flushBytesA, if_neg (by omega), ← Nat.shiftLeft_add_eq_or_of_lt (by omega), Nat.shiftLeft_eq, Nat.mul_comm]

theorem flushBytesB_one (c : Nat) : flushBytesB c 1 = [BitVec.ofNat 8 c] := rfl

section
variable {c s : Nat} (hc : c < 128)
include hc

theorem colour_or_tag : c ||| 0x80 = 128 + c := or_eq_add_of_lt (k := 7) hc 1

theorem flushBytesB_tier1 (h1 : 2 ≤ s) (h2 : s ≤ 0x7F) :
    flushBytesB c s = [BitVec.ofNat 8 (128 + c), BitVec.ofNat 8 s] := by
  rw [flushBytesB, if_neg (by omega), if_neg (by omega), if_pos h2, colour_or_tag hc]

theorem flushBytesB_tier2 (h1 : 0x80 ≤ s) (h2 : s ≤ 0x3FFF) :
    flushBytesB c s = [BitVec.ofNat 8 (128 + c), BitVec.ofNat 8 (0x80 + s / 256), BitVec.ofNat 8 s] := by
  have htag : s >>> 8 ||| 0x80 = 0x80 + s / 256 := by
    rw [Nat.shiftRight_eq_div_pow]
    exact or_eq_add_of_lt (k := 6) (by omega) 2
  rw [flushBytesB, if_neg (by omega), if_neg (by omega), if_neg (by omega), if_pos h2, colour_or_tag hc, htag,
    ofNat_and_255]

theorem flushBytesB_tier3 (h1 : 0x4000 ≤ s) (h2 : s ≤ 0x1FFFFF) :
    flushBytesB c s =
      [BitVec.ofNat 8 (128 + c), BitVec.ofNat 8 (0xC0 + s / 65536), BitVec.ofNat 8 (s / 256), BitVec.ofNat 8 s] := by
  have htag : s >>> 16 ||| 0xC0 = 0xC0 + s / 65536 := by
    rw [Nat.shiftRight_eq_div_pow]
    exact or_eq_add_of_lt (k := 5) (by omega) 6
  rw [flushBytesB, if_neg (by omega), if_neg (by omega), if_neg (by omega), if_neg (by omega), if_pos h2,
    colour_or_tag hc, htag, ofNat_and_255, ofNat_and_255, Nat.shiftRight_eq_div_pow]

theorem flushBytesB_tier4 (h1 : 0x200000 ≤ s) (h2 : s ≤ 0x0FFFFFFF) :
    flushBytesB c s =
      [BitVec.ofNat 8 (128 + c), BitVec.ofNat 8 (0xE0 + s / 16777216), BitVec.ofNat 8 (s / 65536),
        BitVec.ofNat 8 (s / 256), BitVec.ofNat 8 s] := by
  have htag : s >>> 24 ||| 0xE0 = 0xE0 + s / 16777216 := by
    rw [Nat.shiftRight_eq_div_pow]
    exact or_eq_add_of_lt (k := 4) (by omega) 14
  rw [flushBytesB, if_neg (by omega), if_neg (by omega), if_neg (by omega), if_neg (by omega), if_neg (by omega),
    colour_or_tag hc, htag, ofNat_and_255, ofNat_and_255, ofNat_and_255, Nat.shiftRight_eq_div_pow,
    Nat.shiftRight_eq_div_pow]

end

/-- Settles O34: one lemma per tier. -/
theorem flushBytesByLength : Obligations.FlushBytesByLength :=
  ⟨flushBytesA_zero, flushBytesB_zero, fun _ _ _ => flushBytesA_run, fun c _ hc =>
    ⟨fun h => h ▸ flushBytesB_one c, flushBytesB_tier1 hc, flushBytesB_tier2 hc, flushBytesB_tier3 hc,
      flushBytesB_tier4 hc⟩⟩

/-! ### The bytes of a record as numbers -/

/-- A tag followed by a field, as a number. -/
theorem append_eq_ofNat {m n : Nat} (tag : BitVec m) (x : BitVec n) :
    tag ++ x = BitVec.ofNat (m + n) (2 ^ n * tag.toNat + x.toNat) := by
  rw [Nat.mul_comm, ← toNat_append_eq_add, BitVec.ofNat_toNat, BitVec.setWidth_eq]

/-- A field of a length that fits its width. -/
theorem extractLsb'_ofNat {w x : Nat} (h : x < 2 ^ w) (s len : Nat) :
    (BitVec.ofNat w x).extractLsb' s len = BitVec.ofNat len (x / 2 ^ s) := by
  rw [BitVec.extractLsb', BitVec.toNat_ofNat, Nat.mod_eq_of_lt h, Nat.shiftRight_eq_div_pow]

theorem tag_append_ofNat {m n x : Nat} (tag : BitVec m) (h : x < 2 ^ n) :
    tag ++ BitVec.ofNat n x = BitVec.ofNat (m + n) (2 ^ n * tag.toNat + x) := by
  rw [append_eq_ofNat, BitVec.toNat_ofNat, Nat.mod_eq_of_lt h]

theorem recordBytes_aRun (on : Bool) {n : Nat} (h : n ≤ 0x7F) :
    recordBytes (.aRun on (BitVec.ofNat 7 n)) = [BitVec.ofNat 8 (128 * on.toNat + n)] := by
  change [BitVec.ofBool on ++ BitVec.ofNat 7 n] = _
  rw [tag_append_ofNat _ (by omega), BitVec.toNat_ofBool]
  rfl

section
variable (c : BitVec 7) {n : Nat}

/-- The colour byte of a run (R64). -/
theorem one_append_eq_ofNat : (1#1 ++ c : Byte) = BitVec.ofNat 8 (128 + c.toNat) := append_eq_ofNat 1#1 c

theorem recordBytes_bPix : recordBytes (.bPix c) = [BitVec.ofNat 8 c.toNat] := by
  change [0#1 ++ c] = _
  rw [append_eq_ofNat]
  simp

theorem recordBytes_bRun1 (h : n ≤ 0x7F) :
    recordBytes (.bRun1 c (BitVec.ofNat 7 n)) = [BitVec.ofNat 8 (128 + c.toNat), BitVec.ofNat 8 n] := by
  change [1#1 ++ c, 0#1 ++ BitVec.ofNat 7 n] = _
  rw [one_append_eq_ofNat, tag_append_ofNat _ (by omega)]
  simp

theorem recordBytes_bRun2 (h : n ≤ 0x3FFF) :
    recordBytes (.bRun2 c (BitVec.ofNat 14 n)) =
      [BitVec.ofNat 8 (128 + c.toNat), BitVec.ofNat 8 (0x80 + n / 256), BitVec.ofNat 8 n] := by
  have hw : n < 2 ^ 14 := by omega
  change [1#1 ++ c, 0b10#2 ++ (BitVec.ofNat 14 n).extractLsb' 8 6, (BitVec.ofNat 14 n).extractLsb' 0 8] = _
  rw [one_append_eq_ofNat, extractLsb'_ofNat hw, extractLsb'_ofNat hw, tag_append_ofNat _ (by omega)]
  simp

theorem recordBytes_bRun3 (h : n ≤ 0x1FFFFF) :
    recordBytes (.bRun3 c (BitVec.ofNat 21 n)) =
      [BitVec.ofNat 8 (128 + c.toNat), BitVec.ofNat 8 (0xC0 + n / 65536), BitVec.ofNat 8 (n / 256), BitVec.ofNat 8 n] := by
  have hw : n < 2 ^ 21 := by omega
  change [1#1 ++ c, 0b110#3 ++ (BitVec.ofNat 21 n).extractLsb' 16 5, (BitVec.ofNat 21 n).extractLsb' 8 8,
    (BitVec.ofNat 21 n).extractLsb' 0 8] = _
  rw [one_append_eq_ofNat, extractLsb'_ofNat hw, extractLsb'_ofNat hw, extractLsb'_ofNat hw, tag_append_ofNat _ (by omega)]
  simp

theorem recordBytes_bRun4 (h : n ≤ 0x0FFFFFFF) :
    recordBytes (.bRun4 c (BitVec.ofNat 28 n)) =
      [BitVec.ofNat 8 (128 + c.toNat), BitVec.ofNat 8 (0xE0 + n / 16777216), BitVec.ofNat 8 (n / 65536),
        BitVec.ofNat 8 (n / 256), BitVec.ofNat 8 n] := by
  have hw : n < 2 ^ 28 := by omega
  change [1#1 ++ c, 0b1110#4 ++ (BitVec.ofNat 28 n).extractLsb' 24 4, (BitVec.ofNat 28 n).extractLsb' 16 8,
    (BitVec.ofNat 28 n).extractLsb' 8 8, (BitVec.ofNat 28 n).extractLsb' 0 8] = _
  rw [one_append_eq_ofNat, extractLsb'_ofNat hw, extractLsb'_ofNat hw, extractLsb'_ofNat hw, extractLsb'_ofNat hw,
    tag_append_ofNat _ (by omega)]
  simp

end

/-- The two bytes of a C.RUNK or C.RUNW (R69) are those of the word whose top nibble is the colour. -/
theorem wordBytes_eq_ofNat (tag : BitVec 4) {n : Nat} (h : n ≤ 0xFFF) :
    [tag ++ (BitVec.ofNat 12 n).extractLsb' 8 4, (BitVec.ofNat 12 n).extractLsb' 0 8] =
      [BitVec.ofNat 8 ((4096 * tag.toNat + n) / 256), BitVec.ofNat 8 (4096 * tag.toNat + n)] := by
  have hw : n < 2 ^ 12 := by omega
  rw [extractLsb'_ofNat hw, extractLsb'_ofNat hw, tag_append_ofNat _ (by omega)]
  congr 2
  · omega
  · apply BitVec.eq_of_toNat_eq
    simp only [BitVec.toNat_ofNat]
    omega

/-! ### Format C records -/

theorem extremeColour_toNat (c : BitVec 4) : extremeColour c.toNat = (c == 0#4 || c == 15#4) := by
  revert c
  decide

/-- Format C's cap by colour (R60): 12 bits of length for 0 and 15, 4 bits for the middle colours. -/
theorem capC_middle {c : BitVec 4} (h0 : c ≠ 0#4) (h15 : c ≠ 15#4) : capC c.toNat = 0xF := by
  simp [capC, extremeColour_toNat, h0, h15]

theorem capC_pos (c : Nat) : 0 < capC c := by
  unfold capC
  split <;> decide

theorem recordBytesC_extreme {c n : Nat} (hc : extremeColour c = true) (h : n ≤ 0xFFF) :
    recordBytesC c n = [BitVec.ofNat 8 ((4096 * c + n) / 256), BitVec.ofNat 8 (4096 * c + n)] := by
  have hword : n &&& 0xFFF ||| c <<< 12 = 4096 * c + n := by
    rw [Nat.and_two_pow_sub_one_of_lt_two_pow (n := 12) (by omega), Nat.or_comm,
      ← Nat.shiftLeft_add_eq_or_of_lt (by omega), Nat.shiftLeft_eq, Nat.mul_comm]
  rw [recordBytesC, if_pos hc, hword, ofNat_and_255, Nat.shiftRight_eq_div_pow]

theorem recordBytesC_middle {c n : Nat} (hc : extremeColour c = false) (h : n ≤ 0xF) :
    recordBytesC c n = [BitVec.ofNat 8 (16 * c + n)] := by
  rw [recordBytesC, if_neg (by rw [hc]; decide), Nat.or_comm, ← Nat.shiftLeft_add_eq_or_of_lt (by omega),
    Nat.shiftLeft_eq, Nat.mul_comm]

/-- The record that the flush writes is the encoding of the assembler's. -/
theorem recordBytes_cRunRecord {c : BitVec 4} {n : Nat} (h : n ≤ capC c.toNat) :
    recordBytes (cRunRecord c n) = recordBytesC c.toNat n := by
  by_cases h0 : c = 0#4
  · subst h0
    exact (wordBytes_eq_ofNat 0#4 h).trans (recordBytesC_extreme rfl h).symm
  by_cases h15 : c = 15#4
  · subst h15
    exact (wordBytes_eq_ofNat 15#4 h).trans (recordBytesC_extreme rfl h).symm
  · rw [capC_middle h0 h15] at h
    rw [recordBytesC_middle (by simp [extremeColour_toNat, h0, h15]) h, cRunRecord, if_neg h0, if_neg h15]
    exact congrArg (· :: []) (tag_append_ofNat c (by omega))

/-! ### The expansions of Formats A and C: records of the cap, then the rest -/

/-- `RUN v, n` for a format whose records stand for at most `cap` pixels, with the record of each length (R77). -/
def runRecordsBy (cap : Nat) (record : Nat → Instr) (n : Nat) : List Instr :=
  List.replicate (n / cap) (record cap) ++ if n % cap = 0 then [] else [record (n % cap)]

theorem runRecordsA_eq (on : Bool) (n : Nat) :
    runRecordsA on n = runRecordsBy capA (fun l => .aRun on (BitVec.ofNat 7 l)) n := rfl

theorem runRecordsC_eq (c : BitVec 4) (n : Nat) : runRecordsC c n = runRecordsBy (capC c.toNat) (cRunRecord c) n := rfl

section
variable {cap n : Nat} (record : Nat → Instr)

theorem runRecordsBy_zero : runRecordsBy cap record 0 = [] := by
  simp [runRecordsBy]

/-- The expansion as the flush's loop has it: a record of min(n, cap) pixels, then the expansion of what is left. -/
theorem runRecordsBy_of_ne_zero (hcap : 0 < cap) (hn : n ≠ 0) :
    runRecordsBy cap record n = record (min n cap) :: runRecordsBy cap record (n - min n cap) := by
  by_cases h : n < cap
  · rw [Nat.min_eq_left h.le, Nat.sub_self, runRecordsBy_zero, runRecordsBy, Nat.div_eq_of_lt h, Nat.mod_eq_of_lt h,
      if_neg hn]
    rfl
  · have hle : cap ≤ n := by omega
    rw [Nat.min_eq_right hle, runRecordsBy, Nat.div_eq_sub_div hcap hle, Nat.mod_eq_sub_mod hle]
    rfl

end

/-! ### A flush emits the expansion -/

theorem streamBytes_cons (i : Instr) (is : List Instr) : streamBytes (i :: is) = recordBytes i ++ streamBytes is := rfl

theorem flushBytesA_eq_streamBytes (on : Bool) {n : Nat} (h1 : 1 ≤ n) (h2 : n ≤ 125) :
    flushBytesA on.toNat n = streamBytes (runRecordsA on n) := by
  have hmin : min n capA = n := Nat.min_eq_left h2
  rw [runRecordsA_eq, runRecordsBy_of_ne_zero _ (by decide) (by omega), hmin, Nat.sub_self, runRecordsBy_zero,
    streamBytes_cons, recordBytes_aRun on (by omega), flushBytesA_run h1 h2]
  rfl

/-- The record of B.RUN c, n by tier (R76, R65). -/
theorem bRunRecord_cases {c : BitVec 7} {n : Nat} {i : Instr} (h : bRunRecord c n = some i) :
    (n = 1 ∧ i = .bPix c) ∨
    (2 ≤ n ∧ n ≤ 0x7F ∧ i = .bRun1 c (BitVec.ofNat 7 n)) ∨
    (0x80 ≤ n ∧ n ≤ 0x3FFF ∧ i = .bRun2 c (BitVec.ofNat 14 n)) ∨
    (0x4000 ≤ n ∧ n ≤ 0x1FFFFF ∧ i = .bRun3 c (BitVec.ofNat 21 n)) ∨
    (0x200000 ≤ n ∧ n ≤ 0x0FFFFFFF ∧ i = .bRun4 c (BitVec.ofNat 28 n)) := by
  unfold bRunRecord at h
  split_ifs at h with h0 h1 h2 h3 h4 h5 <;> cases h
  · exact .inl ⟨h1, rfl⟩
  · exact .inr (.inl ⟨by omega, h2, rfl⟩)
  · exact .inr (.inr (.inl ⟨by omega, h3, rfl⟩))
  · exact .inr (.inr (.inr (.inl ⟨by omega, h4, rfl⟩)))
  · exact .inr (.inr (.inr (.inr ⟨by omega, h5, rfl⟩)))

theorem flushBytesB_eq_recordBytes {c : BitVec 7} {n : Nat} {i : Instr} (h : bRunRecord c n = some i) :
    flushBytesB c.toNat n = recordBytes i := by
  rcases bRunRecord_cases h with ⟨rfl, rfl⟩ | ⟨h1, h2, rfl⟩ | ⟨h1, h2, rfl⟩ | ⟨h1, h2, rfl⟩ | ⟨h1, h2, rfl⟩
  · rw [flushBytesB_one, recordBytes_bPix]
  · rw [flushBytesB_tier1 c.isLt h1 h2, recordBytes_bRun1 c h2]
  · rw [flushBytesB_tier2 c.isLt h1 h2, recordBytes_bRun2 c h2]
  · rw [flushBytesB_tier3 c.isLt h1 h2, recordBytes_bRun3 c h2]
  · rw [flushBytesB_tier4 c.isLt h1 h2, recordBytes_bRun4 c h2]

/-- Format B's expansion is the one record of B.RUN. -/
theorem exists_of_runRecordsB {c : BitVec 7} {n : Nat} {is : List Instr} (h : runRecordsB c n = some is) :
    ∃ i, bRunRecord c n = some i ∧ is = [i] := by
  obtain ⟨i, hi, rfl⟩ := Option.map_eq_some_iff.mp h
  exact ⟨i, hi, rfl⟩

/-- Each turn of Format C's loop emits the next record of the expansion. -/
theorem flushLoopC_eq_streamBytes (c : BitVec 4) {fuel n : Nat} (h : n ≤ fuel) :
    flushLoopC c.toNat fuel n = streamBytes (runRecordsC c n) := by
  rw [runRecordsC_eq]
  induction fuel generalizing n with
  | zero =>
    obtain rfl : n = 0 := by omega
    rw [runRecordsBy_zero]
    rfl
  | succ fuel ih =>
    by_cases hn : n = 0
    · subst hn
      rw [runRecordsBy_zero]
      rfl
    · have hcap := capC_pos c.toNat
      rw [flushLoopC, if_neg hn, ih (by omega), runRecordsBy_of_ne_zero _ hcap hn, streamBytes_cons,
        recordBytes_cRunRecord (Nat.min_le_right ..)]

/-- Settles O35: format by format, each flush against the records of the expansion. -/
theorem flushesEmitTheRunExpansion : Obligations.FlushesEmitTheRunExpansion := by
  refine ⟨fun on _ => flushBytesA_eq_streamBytes on, fun c n is h => ?_, fun c n => flushLoopC_eq_streamBytes c le_rfl⟩
  obtain ⟨i, hi, rfl⟩ := exists_of_runRecordsB h
  rw [flushBytesB_eq_recordBytes hi, streamBytes_cons]
  exact (List.append_nil _).symm

/-! ### An expansion covers its run -/

/-- A canonical record of n pixels of value v. -/
structure IsRun (i : Instr) (v : Byte) (n : Nat) : Prop where
  wellFormed : i.wellFormed = true
  canonical : i.canonical = true
  runLength : i.runLength = n
  pixel : i.pixel = v

/-- A list of records covers a run of n pixels of value v. -/
def CoversRun (v : Byte) (n : Nat) (is : List Instr) : Prop :=
  (is.map Instr.runLength).sum = n ∧
    ∀ i ∈ is, i.wellFormed = true ∧ i.canonical = true ∧ 1 ≤ i.runLength ∧ i.pixel = v

theorem coversRun_nil (v : Byte) : CoversRun v 0 [] := ⟨rfl, fun _ h => nomatch h⟩

theorem CoversRun.cons {v : Byte} {m n : Nat} {i : Instr} {is : List Instr} (hi : IsRun i v m) (hm : 1 ≤ m)
    (his : CoversRun v n is) : CoversRun v (m + n) (i :: is) := by
  refine ⟨?_, List.forall_mem_cons.mpr ⟨⟨hi.wellFormed, hi.canonical, hi.runLength ▸ hm, hi.pixel⟩, his.2⟩⟩
  rw [List.map_cons, List.sum_cons, hi.runLength, his.1]

theorem runRecordsBy_coversRun {cap : Nat} {record : Nat → Instr} {v : Byte} (hcap : 0 < cap)
    (hrec : ∀ l, 1 ≤ l → l ≤ cap → IsRun (record l) v l) (n : Nat) : CoversRun v n (runRecordsBy cap record n) := by
  induction n using Nat.strong_induction_on with
  | _ n ih =>
    by_cases hn : n = 0
    · subst hn
      rw [runRecordsBy_zero]
      exact coversRun_nil v
    · have h1 : 1 ≤ min n cap := by omega
      have hcover := (ih (n - min n cap) (by omega)).cons (hrec _ h1 (Nat.min_le_right ..)) h1
      rwa [Nat.add_sub_cancel' (Nat.min_le_left ..), ← runRecordsBy_of_ne_zero record hcap hn] at hcover

theorem isRun_aRun (on : Bool) {n : Nat} (h1 : 1 ≤ n) (h2 : n ≤ capA) :
    IsRun (.aRun on (BitVec.ofNat 7 n)) (dequantA on) n := by
  have hn : n ≤ 125 := h2
  refine ⟨rfl, ?_, ?_, rfl⟩
  · simp only [Instr.canonical, Bool.and_eq_true, bne_iff_ne, ne_eq, ← BitVec.toNat_inj, BitVec.toNat_ofNat]
    omega
  · simp only [Instr.runLength, BitVec.toNat_ofNat]
    omega

theorem dequantB_eq_ofNat (c : BitVec 7) : dequantB c = BitVec.ofNat 8 (2 * c.toNat) := append_eq_ofNat c 0#1

theorem dequantC_eq_ofNat (c : BitVec 4) : dequantC c = BitVec.ofNat 8 (16 * c.toNat) := append_eq_ofNat c 0#4

theorem isRun_bRunRecord {c : BitVec 7} {n : Nat} {i : Instr} (h : bRunRecord c n = some i) :
    IsRun i (dequantB c) n := by
  have hpix := (dequantB_eq_ofNat c).symm
  rcases bRunRecord_cases h with ⟨rfl, rfl⟩ | ⟨h1, h2, rfl⟩ | ⟨h1, h2, rfl⟩ | ⟨h1, h2, rfl⟩ | ⟨h1, h2, rfl⟩
  · exact ⟨rfl, rfl, rfl, hpix⟩
  · have hn : (BitVec.ofNat 7 n).toNat = n := Nat.mod_eq_of_lt (by omega)
    refine ⟨rfl, ?_, hn, hpix⟩
    simp only [Instr.canonical, Bool.and_eq_true, bne_iff_ne, ne_eq, ← BitVec.toNat_inj, hn, BitVec.toNat_ofNat]
    omega
  · have hn : (BitVec.ofNat 14 n).toNat = n := Nat.mod_eq_of_lt (by omega)
    exact ⟨rfl, decide_eq_true (hn.symm ▸ h1), hn, hpix⟩
  · have hn : (BitVec.ofNat 21 n).toNat = n := Nat.mod_eq_of_lt (by omega)
    exact ⟨rfl, decide_eq_true (hn.symm ▸ h1), hn, hpix⟩
  · have hn : (BitVec.ofNat 28 n).toNat = n := Nat.mod_eq_of_lt (by omega)
    exact ⟨rfl, decide_eq_true (hn.symm ▸ h1), hn, hpix⟩

theorem isRun_cRunRecord (c : BitVec 4) {n : Nat} (h1 : 1 ≤ n) (h2 : n ≤ capC c.toNat) :
    IsRun (cRunRecord c n) (dequantC c) n := by
  have hne {w : Nat} (hw : n < 2 ^ w) : (BitVec.ofNat w n != 0#w) = true := by
    simp only [bne_iff_ne, ne_eq, ← BitVec.toNat_inj, BitVec.toNat_ofNat, Nat.mod_eq_of_lt hw, Nat.zero_mod]
    omega
  by_cases h0 : c = 0#4
  · subst h0
    have hn : n < 2 ^ 12 := Nat.lt_succ_of_le h2
    exact ⟨rfl, hne hn, Nat.mod_eq_of_lt hn, rfl⟩
  by_cases h15 : c = 15#4
  · subst h15
    have hn : n < 2 ^ 12 := Nat.lt_succ_of_le h2
    exact ⟨rfl, hne hn, Nat.mod_eq_of_lt hn, rfl⟩
  · rw [capC_middle h0 h15] at h2
    have hn : n < 2 ^ 4 := Nat.lt_succ_of_le h2
    rw [cRunRecord, if_neg h0, if_neg h15]
    exact ⟨by simp [Instr.wellFormed, middleColour, h0, h15], hne hn, Nat.mod_eq_of_lt hn, (dequantC_eq_ofNat c).symm⟩

/-- Settles O36: every record of an expansion is a canonical run, and the recursion adds their lengths up. -/
theorem runExpansionsCoverTheRun : Obligations.RunExpansionsCoverTheRun := by
  refine ⟨fun on => runRecordsBy_coversRun (cap := capA) (by decide) fun _ => isRun_aRun on, fun c n is h => ?_,
    fun c => runRecordsBy_coversRun (capC_pos _) fun _ => isRun_cRunRecord c⟩
  obtain ⟨i, hi, rfl⟩ := exists_of_runRecordsB h
  have hrun := isRun_bRunRecord hi
  have hpos : 1 ≤ n := by
    rcases bRunRecord_cases hi with h | h | h | h | h <;> omega
  exact (coversRun_nil _).cons hrun hpos

end Sys2Proof.Machine
end

section
/-! SUPPORT. The command words and what they start (O14 to O20, O9, O28, O38, O47, O50): the status a job's start checks give
it, as one function of the configuration; the next state of every job command from it; and the steps of an idle block that
keep the last job's result. -/

namespace Sys2Proof.Machine

/-! ### The job of a command word -/

/-- The direction and format of the job that a command word starts (R100 to R105). -/
def jobOf : Instr → Option (Dir × Format)
  | .encA => some (.enc, .a)
  | .encB => some (.enc, .b)
  | .encC => some (.enc, .c)
  | .decA => some (.dec, .a)
  | .decB => some (.dec, .b)
  | .decC => some (.dec, .c)
  | _ => none

theorem exec_of_jobOf {i : Instr} {d : Dir} {f : Format} (h : jobOf i = some (d, f)) (s : State) :
    exec i s = jobCommand d f s := by
  cases i <;> cases h <;> rfl

theorem jobOf_of_mem {i : Instr} (h : i ∈ [Instr.encA, .encB, .encC, .decA, .decB, .decC]) :
    ∃ d f, jobOf i = some (d, f) := by
  have hsome : ∀ i ∈ [Instr.encA, .encB, .encC, .decA, .decB, .decC], (jobOf i).isSome = true := by decide
  obtain ⟨⟨d, f⟩, hjob⟩ := Option.isSome_iff_exists.mp (hsome i h)
  exact ⟨d, f, hjob⟩

/-! ### The start checks as a status -/

/-- STATUS of a job that has passed its start checks (R93). -/
def Status.started : Status := { busy := true, done := false, err := .noError }

/-- The STATUS that the start checks give a job of a direction, in the order of R94; they read the configuration only. -/
def State.startStatus (d : Dir) (s : State) : Status :=
  if s.obufSize < s.outCap.toNat then Status.raised .invalidParameter
  else if s.width.toNat = 0 ∨ s.height.toNat = 0 then
    if s.mode.zeroDimOk = false then Status.raised .invalidParameter else Status.finished
  else if d = .enc then
    if s.ibufSize < s.width.toNat * s.height.toNat then Status.raised .invalidParameter
    else Status.started
  else if s.ibufSize < s.inLen.toNat then Status.raised .invalidParameter
  else if s.outCap.toNat < s.width.toNat * s.height.toNat then Status.raised .invalidParameter
  else Status.started

/-- NPIX is the product of two 16-bit numbers, so no bit of it is lost (R27). -/
theorem State.pixelCount_toNat (s : State) : s.pixelCount.toNat = s.width.toNat * s.height.toNat :=
  Nat.mod_eq_of_lt <|
    calc s.width.toNat * s.height.toNat
        _ < 2 ^ 16 * 2 ^ 16 := Nat.mul_lt_mul'' s.width.isLt s.height.isLt
        _ = 2 ^ 32 := by norm_num

/-- The checks of a job that has been accepted and latched (R93) are `startStatus`. -/
theorem State.startChecks_status {d : Dir} {s : State} (hd : s.jobDir = d) (hn : s.npix = s.pixelCount)
    (hs : s.status = { busy := false, done := false, err := .noError }) :
    s.startChecks.status = s.startStatus d := by
  have hpix : s.npix.toNat = s.width.toNat * s.height.toNat := by rw [hn, State.pixelCount_toNat]
  have hrun : s.run.status = Status.started := by
    rw [State.run_status, hs]
    rfl
  have hdim (x : BitVec 16) : x = 0#16 ↔ x.toNat = 0 := BitVec.toNat_inj.symm
  have hzero : (if s.mode.zeroDimOk then s.finish else s.raise .invalidParameter).status =
      if s.mode.zeroDimOk = false then Status.raised .invalidParameter else Status.finished := by
    cases s.mode.zeroDimOk <;> rfl
  simp only [State.startChecks, State.startStatus, hdim, hpix, hd, apply_ite State.status, ← hzero]
  cases d with
  | enc => simp only [if_true, apply_ite State.status, hrun, State.raise_status]
  | dec => simp only [reduceCtorEq, if_false, apply_ite State.status, hrun, State.raise_status]

/-- What a job command makes of an idle block: the cleared and latched job with the STATUS of its start checks (R93, R94). -/
theorem State.startJob_eq (d : Dir) (f : Format) {s : State} (h : s.status.busy = false) :
    s.startJob d f =
      { s with
        status := s.startStatus d, outLen := 0#32, inPos := 0#32, jobDir := d, jobFmt := f
        npix := s.pixelCount, accVal := 0#8, accLen := 0#32 } := by
  have hstatus : (s.startJob d f).status = s.startStatus d :=
    State.startChecks_status (s := s.accept.latchJob d f) rfl rfl (congrArg (Status.mk · false .noError) h)
  rw [State.startJob_frame, hstatus]

theorem exec_job_idle {i : Instr} {d : Dir} {f : Format} {s : State} (hi : jobOf i = some (d, f))
    (h : s.status.busy = false) :
    exec i s = .next { s with
      status := s.startStatus d, outLen := 0#32, inPos := 0#32, jobDir := d, jobFmt := f
      npix := s.pixelCount, accVal := 0#8, accLen := 0#32 } := by
  rw [exec_of_jobOf hi, jobCommand_idle h, State.startJob_eq d f h]

section
variable {s : State} (hcap : s.outCap.toNat ≤ s.obufSize)
include hcap

/-- R95. -/
theorem State.startStatus_zeroDim (d : Dir) (hdim : s.width = 0#16 ∨ s.height = 0#16) (hok : s.mode.zeroDimOk = true) :
    s.startStatus d = Status.finished := by
  have hzero : s.width.toNat = 0 ∨ s.height.toNat = 0 := hdim.imp (congrArg BitVec.toNat) (congrArg BitVec.toNat)
  rw [State.startStatus, if_neg (by omega), if_pos hzero, if_neg (by rw [hok]; decide)]

variable (hw : s.width ≠ 0#16) (hh : s.height ≠ 0#16)
include hw hh

theorem State.startStatus_enc (hfit : s.width.toNat * s.height.toNat ≤ s.ibufSize) :
    s.startStatus .enc = Status.started := by
  have hdim : ¬(s.width.toNat = 0 ∨ s.height.toNat = 0) := by bv_omega
  rw [State.startStatus, if_neg (by omega), if_neg hdim, if_pos rfl, if_neg (by omega)]

theorem State.startStatus_dec (hin : s.inLen.toNat ≤ s.ibufSize)
    (hfit : s.width.toNat * s.height.toNat ≤ s.outCap.toNat) : s.startStatus .dec = Status.started := by
  have hdim : ¬(s.width.toNat = 0 ∨ s.height.toNat = 0) := by bv_omega
  rw [State.startStatus, if_neg (by omega), if_neg hdim, if_neg (by decide), if_neg (by omega), if_neg (by omega)]

end

/-! ### Reserved command words and CMD -/

/-- Every word but the seven of R62 is reserved (R73). -/
theorem decodeCommand_reserved {v : Word} (h : v ∉ [0x00#32, 0x01#32, 0x02#32, 0x03#32, 0x11#32, 0x12#32, 0x13#32]) :
    decodeCommand v = .error .reservedCommand := by
  simp only [List.mem_cons, List.not_mem_nil, or_false, not_or] at h
  obtain ⟨h0, h1, h2, h3, h4, h5, h6⟩ := h
  rw [decodeCommand, if_neg h0, if_neg h1, if_neg h2, if_neg h3, if_neg h4, if_neg h5, if_neg h6]

/-- The slot of CMD issues the command (R91). -/
theorem regWrite_cmd (v : Word) (s : State) : regWrite 0#4 v s = cmdWrite v s := if_pos rfl

theorem cmdWrite_ok {v : Word} {i : Instr} (h : decodeCommand v = .ok i) (s : State) : cmdWrite v s = exec i s := by
  rw [cmdWrite, h]

theorem cmdWrite_error {v : Word} {e : DecodeError} (h : decodeCommand v = .error e) (s : State) :
    cmdWrite v s = .next (illegalCommand s) := by
  rw [cmdWrite, h]

theorem regWrite_nop (s : State) : regWrite 0#4 0x00000000#32 s = .next s :=
  (regWrite_cmd _ s).trans (cmdWrite_ok (i := .nop) rfl s)

/-! ### Steps that keep a result -/

/-- t has the result of s's last job: STATUS, OUT_LEN, IN_POS and every byte of OBUF (R108). -/
def State.KeepsResult (s t : State) : Prop :=
  t.status = s.status ∧ t.outLen = s.outLen ∧ t.inPos = s.inPos ∧ ∀ a, t.obufByte a = s.obufByte a

theorem State.keepsResult_refl (s : State) : s.KeepsResult s := ⟨rfl, rfl, rfl, fun _ => rfl⟩

theorem State.setConfig_keepsResult (i : BitVec 4) (v : Word) (s : State) : s.KeepsResult (s.setConfig i v) := by
  rw [State.setConfig_frame]
  exact s.keepsResult_refl

/-- A store in IBUF leaves OBUF as it is. -/
theorem State.storeByte_ibuf_keepsResult (a : Nat) (v : Byte) (s : State) : s.KeepsResult (s.storeByte .ibuf a v) := by
  rcases Nat.lt_or_ge a s.ibufSize with ha | ha
  · rw [State.storeByte_ibuf ha]
    exact s.keepsResult_refl
  · rw [State.storeByte_beyond (b := .ibuf) ha]
    exact s.keepsResult_refl

/-- Of the host's operations only a CMD write other than NOP and a write to OBUF touch the result. -/
theorem runHostOp_keepsResult {op : HostOp} {s : State} (h : s.status.busy = false)
    (hbuf : ∀ a v, op ≠ .bufWrite .obuf a v) (hcmd : ∀ v, op = .regWrite 0#4 v → v = 0#32) :
    ∃ t, runHostOp op s = .next t ∧ s.KeepsResult t := by
  cases op with
  | regRead i => exact ⟨_, rfl, s.keepsResult_refl⟩
  | regWrite i v =>
    by_cases hi : i = 0#4
    · obtain rfl := hi
      obtain rfl := hcmd v rfl
      exact ⟨s, regWrite_nop s, s.keepsResult_refl⟩
    · exact ⟨_, regWrite_config_idle h hi rfl, s.setConfig_keepsResult i v⟩
  | bufRead b a => exact ⟨_, rfl, s.keepsResult_refl⟩
  | bufWrite b a v =>
    cases b with
    | ibuf => exact ⟨_, hostWrite_idle h .ibuf a v, s.storeByte_ibuf_keepsResult a v⟩
    | obuf => exact absurd rfl (hbuf a v)
  | poll => exact ⟨_, runHostOp_poll s, s.keepsResult_refl⟩

theorem hostStep_keepsResult {s : State} (h : s.status.busy = false)
    (hbuf : ∀ a v rest, s.program ≠ .bufWrite .obuf a v :: rest)
    (hcmd : ∀ v rest, s.program = .regWrite 0#4 v :: rest → v = 0#32) :
    ∃ t, hostStep s = .next t ∧ s.KeepsResult t := by
  cases hp : s.program with
  | nil => exact ⟨s, hostStep_nil hp, s.keepsResult_refl⟩
  | cons op rest =>
    rw [hostStep_cons hp]
    exact runHostOp_keepsResult (s := { s with program := rest }) h (fun a v hop => hbuf a v rest (hop ▸ hp))
      fun v hop => hcmd v rest (hop ▸ hp)

/-! ### The obligations -/

/-- Settles O15: the start checks of an encode job that fits IBUF let it run. -/
theorem encodeCommandsStartAJob : Obligations.EncodeCommandsStartAJob := by
  intro s h hcap hw hh hfit i f hi
  have hjobs : ∀ p ∈ [(Instr.encA, Format.a), (.encB, .b), (.encC, .c)], jobOf p.1 = some (.enc, p.2) := by decide
  rw [exec_job_idle (hjobs (i, f) hi) h, State.startStatus_enc hcap hw hh hfit]
  rfl

/-- Settles O16: the start checks of a decode job whose stream and raster fit let it run. -/
theorem decodeCommandsStartAJob : Obligations.DecodeCommandsStartAJob := by
  intro s h hcap hw hh hin hfit i f hi
  have hjobs : ∀ p ∈ [(Instr.decA, Format.a), (.decB, .b), (.decC, .c)], jobOf p.1 = some (.dec, p.2) := by decide
  rw [exec_job_idle (hjobs (i, f) hi) h, State.startStatus_dec hcap hw hh hin hfit]
  rfl

/-- Settles O17: `startStatus` is the chain of checks, and a job command ends with it. -/
theorem startChecksRunInOrder : Obligations.StartChecksRunInOrder := by
  intro s h i d f hi
  have hjobs : ∀ p ∈ [(Instr.encA, Dir.enc, Format.a), (.encB, .enc, .b), (.encC, .enc, .c), (.decA, .dec, .a),
      (.decB, .dec, .b), (.decC, .dec, .c)], jobOf p.1 = some p.2 := by decide
  exact exec_job_idle (hjobs (i, d, f) hi) h

/-- Settles O20: the next state takes its STATUS and latch from the configuration and clears the rest; OBUF is left alone. -/
theorem jobStartForgetsEarlierJobs : Obligations.JobStartForgetsEarlierJobs := by
  intro s u hs hu hsame i hi
  obtain ⟨d, f, hjob⟩ := jobOf_of_mem hi
  refine ⟨_, exec_job_idle hjob hs, ?_⟩
  rw [exec_job_idle hjob hu, hsame]
  rfl

/-- Settles O47: the engine of an idle block has no step, and the host's remaining operations keep the result. -/
theorem resultsStayUntilTheNextCommand : Obligations.ResultsStayUntilTheNextCommand := by
  intro s h hreset hbuf hcmd
  obtain ⟨g, u, -, hu, hnext, hstep⟩ := step_cases s
  rw [hstep]
  rw [hnext] at hreset
  cases g with
  | reset => exact absurd rfl hreset
  | engine =>
    rw [hu]
    exact ⟨_, engineStep_idle h, s.keepsResult_refl⟩
  | host =>
    rw [hu]
    exact hostStep_keepsResult (s := { s with schedule := u.schedule }) h hbuf hcmd

/-- Settles O9: CMD and the configuration registers both test BUSY first. -/
theorem registerWritesAreIgnoredWhileBusy : Obligations.RegisterWritesAreIgnoredWhileBusy := fun _ i v h =>
  regWrite_busy h i v

/-- Settles O14: the word is matched whole and its meaning is the identity. -/
theorem nopChangesNothing : Obligations.NopChangesNothing := ⟨rfl, fun s => ⟨rfl, regWrite_nop s⟩⟩

/-- Settles O18: with OUT_CAP legal the zero dimension is the next check, before IN_LEN is looked at. -/
theorem zeroDimensionJobEndsAtOnce : Obligations.ZeroDimensionJobEndsAtOnce := by
  intro s h hcap hdim hok i hi
  obtain ⟨d, f, hjob⟩ := jobOf_of_mem hi
  exact ⟨_, exec_job_idle hjob h, State.startStatus_zeroDim hcap d hdim hok, rfl, rfl, fun _ => rfl⟩

/-- Settles O19: a reserved word does not decode, and an idle block then raises IllegalCommandError. -/
theorem reservedCommandWordsAreIllegal : Obligations.ReservedCommandWordsAreIllegal := by
  intro s v h hv
  refine ⟨s.accept.raise .illegalCommand, ?_, ?_, rfl⟩
  · rw [regWrite_cmd, cmdWrite_error (decodeCommand_reserved hv), illegalCommand_idle h]
  · rw [regRead_status, State.raise_status, Status.word_raised]
    rfl

/-- Settles O28: one lemma of the engine for each clause. -/
theorem engineStepsExactlyWhileBusy : Obligations.EngineStepsExactlyWhileBusy := fun _ =>
  ⟨engineStep_idle, engineStep_enc, engineStep_dec⟩

/-- Settles O38: the engine step of a decode job tests the raster before the stream. -/
theorem filledRasterEndsTheDecodeJob : Obligations.FilledRasterEndsTheDecodeJob := fun _ h hd hfull =>
  (engineStep_dec h hd).trans (decStep_filled hfull)

/-- Settles O50: after the schedule an idle block's step is the host's, whose CMD write executes the decoded word. -/
theorem aStepRunsTheDecodedCommand : Obligations.AStepRunsTheDecodedCommand := by
  intro s v i rest hsched h hp hi
  calc step s
      _ = hostStep s := step_idle hsched h
      _ = regWrite 0#4 v { s with program := rest } := hostStep_cons hp
      _ = cmdWrite v { s with program := rest } := regWrite_cmd v _
      _ = exec i { s with program := rest } := cmdWrite_ok hi _

end Sys2Proof.Machine
end

section
/-! SUPPORT. A running job ends (O45). With no schedule and no host program the block is the engine's alone: one induction over
a measure that every step of a running job lowers bounds the number of steps, and the measures are the pixels and the stream
bytes left (R107). -/

namespace Sys2Proof.Machine

/-! ### A block whose engine is alone -/

/-- A sound state with nothing but the engine to step. -/
def State.EngineAlone (s : State) : Prop := s.Inv ∧ s.schedule = [] ∧ s.program = []

theorem steps_succ {s t : State} (h : step s = .next t) (k : Nat) : steps (k + 1) s = steps k t := by
  rw [steps, h]

/-- An idle block whose host has ended stays as it is (R96, R244). -/
theorem State.EngineAlone.steps_idle {s : State} (h : s.EngineAlone) (hidle : s.status.busy = false) (k : Nat) :
    steps k s = .next s := by
  obtain ⟨-, hsched, hprog⟩ := h
  have hstep : step s = .next s := (step_idle hsched hidle).trans (hostStep_nil hprog)
  induction k with
  | zero => rfl
  | succ k ih => rw [steps_succ hstep, ih]

/-- The position after an advance that stays within 32 bits (R21). -/
theorem State.advance_inPos_toNat {n : Nat} {s : State} (h : s.inPos.toNat + n < 2 ^ 32) :
    (s.advance n).inPos.toNat = s.inPos.toNat + n :=
  Nat.mod_eq_of_lt h

/-- A running job has a step, the engine's, after which the engine is still alone and the direction the same. -/
theorem State.EngineAlone.exists_step {s : State} (h : s.EngineAlone) (hbusy : s.status.busy = true) :
    ∃ t, engineStep s = .next t ∧ step s = .next t ∧ t.EngineAlone ∧ t.jobDir = s.jobDir := by
  obtain ⟨hinv, hsched, hprog⟩ := h
  obtain ⟨t, ht⟩ := engineStep_exists_next hinv
  obtain ⟨hframe, -⟩ := engineStep_engineFrame hinv ht
  refine ⟨t, ht, (step_busy hsched hbusy).trans ht, ⟨engineStep_inv hinv ht, ?_, ?_⟩, ?_⟩ <;> rw [hframe]
  · exact hsched
  · exact hprog

/-- A job of a direction ends within one step more than the value of a measure that every step lowers which leaves the job
running. -/
theorem State.EngineAlone.ends_within {d : Dir} {left : State → Nat}
    (hleft : ∀ s t, s.Inv → s.status.busy = true → s.jobDir = d → engineStep s = .next t → t.status.busy = true →
      left t < left s)
    {n : Nat} {s : State} (h : s.EngineAlone) (hbusy : s.status.busy = true) (hd : s.jobDir = d) (hn : left s ≤ n) :
    ∃ k t, k ≤ n + 1 ∧ steps k s = .next t ∧ t.status.busy = false := by
  induction n generalizing s with
  | zero =>
    have ⟨hinv, _, _⟩ := h
    obtain ⟨t, hengine, hstep, -, -⟩ := h.exists_step hbusy
    refine ⟨1, t, le_rfl, steps_succ hstep 0, Bool.eq_false_iff.mpr fun hrun => ?_⟩
    have hlt := hleft s t hinv hbusy hd hengine hrun
    omega
  | succ n ih =>
    have ⟨hinv, _, _⟩ := h
    obtain ⟨t, hengine, hstep, ht, htd⟩ := h.exists_step hbusy
    cases hrun : t.status.busy with
    | false => exact ⟨1, t, by omega, steps_succ hstep 0, hrun⟩
    | true =>
      have hlt := hleft s t hinv hbusy hd hengine hrun
      obtain ⟨k, u, hk, hu, hend⟩ := ih ht hrun (htd.trans hd) (by omega)
      exact ⟨k + 1, u, by omega, (steps_succ hstep k).trans hu, hend⟩

/-! ### Encode jobs -/

/-- An encode step that leaves the job running has read a pixel (R97). -/
theorem encStep_lowers_pixelsLeft {s t : State} (h : s.Inv) (hbusy : s.status.busy = true) (hd : s.jobDir = .enc)
    (hst : encStep s = .next t) (hrun : t.status.busy = true) :
    t.npix.toNat - t.inPos.toNat < s.npix.toNat - s.inPos.toNat := by
  obtain ⟨u, hu, ⟨hp, rfl⟩ | rfl | ⟨e, rfl⟩⟩ := encStep_next h hbusy hd hst
  · obtain ⟨bs, v, n, rfl, -⟩ := hu
    rw [State.advance_inPos_toNat (s := (s.appendBytes bs).setAcc v n) (show s.inPos.toNat + 1 < 2 ^ 32 by omega)]
    exact Nat.sub_succ_lt_self _ _ hp
  · exact absurd hrun Bool.false_ne_true
  · exact absurd hrun Bool.false_ne_true

/-- Two parts of a step end the job in the first of them or in the second. -/
theorem Flow.andThen_eq_ended {m : Flow} {k : State → Flow} {t : State} (h : m.andThen k = .ended t) :
    m = .ended t ∨ ∃ u, m = .ok u ∧ k u = .ended t := by
  cases m with
  | ok u => exact .inr ⟨u, rfl, h⟩
  | ended u => exact .inl h
  | fault x => cases h

/-- Emitting, with an update after it that cannot end the job, ends the job only by OutputOverflowError (R42). -/
theorem emitAll_andThen_ended {bs : List Byte} {s t : State} {k : State → State}
    (h : ((emitAll bs s).andThen fun u => .ok (k u)) = .ended t) : t.status = Status.raised .outputOverflow := by
  rcases Flow.andThen_eq_ended h with h | ⟨u, -, h⟩
  · rw [emitAll_ended_frame h]
  · cases h

/-- What a pixel can end the job with, by format (R210). -/
theorem pixelStep_ended_status {f : Format} {p : Byte} {s t : State} (h : pixelStep f p s = .ended t) :
    t.status = Status.raised .outputOverflow ∨ f = .b ∧ t.status = Status.raised .unsupportedRunLength := by
  cases f with
  | a =>
    rw [pixelStep, pixelA] at h
    split_ifs at h
    · exact .inl (emitAll_andThen_ended h)
    · exact .inl (emitAll_andThen_ended h)
  | b =>
    rw [pixelStep, pixelB] at h
    split_ifs at h
    · cases h
      exact .inr ⟨rfl, rfl⟩
    · exact .inl (emitAll_andThen_ended h)
  | c =>
    rw [pixelStep, pixelC] at h
    split_ifs at h
    rcases Flow.andThen_eq_ended h with h | ⟨u, -, h⟩
    · exact .inl (emitAll_andThen_ended h)
    · cases h

/-- While pixels are left, an encode step ends the job only by an error, and else counts one pixel (R97). -/
theorem encStep_pixel_next {s t : State} (h : s.Inv) (hbusy : s.status.busy = true) (hd : s.jobDir = .enc)
    (hp : s.inPos.toNat < s.npix.toNat) (hst : encStep s = .next t) :
    t.status.busy = true ∧ t.npix = s.npix ∧ t.inPos.toNat = s.inPos.toNat + 1 ∨
      t.status.busy = false ∧ t.status.err ≠ .noError := by
  obtain ⟨-, -, -, ha, hjob⟩ := h
  obtain ⟨-, -, -, ho, henc, -⟩ := hjob hbusy
  obtain ⟨hin, -, hout, hacc, hcap⟩ := henc hd
  have hm := pixelStep_encodesFrom hout ho ha (s.ibufByte s.inPos.toNat) (by omega) hcap
  rw [encStep_pixel hp hin] at hst
  rcases Flow.outcome_next hst with ⟨u, hu, rfl⟩ | ht
  · rw [hu] at hm
    obtain ⟨⟨bs, v, n, rfl, -⟩, -⟩ := hm
    exact .inl ⟨hbusy, rfl, State.advance_inPos_toNat (show s.inPos.toNat + 1 < 2 ^ 32 by omega)⟩
  · rcases pixelStep_ended_status ht with hstatus | ⟨-, hstatus⟩ <;> rw [hstatus]
    · exact .inr ⟨rfl, by decide⟩
    · exact .inr ⟨rfl, by decide⟩

/-- An encode job that ends before its final step ends with an error. -/
theorem State.EngineAlone.early_end_is_error {k : Nat} {s t : State} (h : s.EngineAlone) (hbusy : s.status.busy = true)
    (hd : s.jobDir = .enc) (hk : k ≤ s.npix.toNat - s.inPos.toNat) (ht : steps k s = .next t)
    (hend : t.status.busy = false) : t.status.err ≠ .noError := by
  induction k generalizing s with
  | zero =>
    cases ht
    exact nomatch hbusy.symm.trans hend
  | succ k ih =>
    have ⟨hinv, _, _⟩ := h
    obtain ⟨u, hengine, hstep, hu, hud⟩ := h.exists_step hbusy
    rw [steps_succ hstep] at ht
    rw [engineStep_enc hbusy hd] at hengine
    rcases encStep_pixel_next hinv hbusy hd (by omega) hengine with ⟨hrun, hnpix, hpos⟩ | ⟨hidle, herr⟩
    · exact ih hu hrun (hud.trans hd) (by rw [hnpix, hpos]; omega) ht
    · rw [hu.steps_idle hidle] at ht
      cases ht
      exact herr

/-! ### Decode jobs -/

/-- A decode step that leaves the job running has read a record, at least one byte, inside the stream (R99). -/
theorem decStep_lowers_bytesLeft {s t : State} (hst : decStep s = .next t)
    (hrun : t.status.busy = true) : t.inLen.toNat - t.inPos.toNat < s.inLen.toNat - s.inPos.toNat := by
  by_cases hp : s.outLen.toNat < s.npix.toNat
  · rw [decStep_record hp] at hst
    rcases recordStep_cases s with ⟨i, rest, -, hlen, hr⟩ | ⟨-, ⟨-, hr⟩ | ⟨-, hr⟩⟩ | ⟨-, hr⟩ <;> rw [hr] at hst
    · obtain ⟨n, canonical, v, hexec⟩ := exec_record i hlen
      rw [hexec] at hst
      rcases runRecord_next hst with ⟨e, rfl⟩ | ⟨hin, -, rfl⟩
      · exact absurd hrun Bool.false_ne_true
      · rw [State.advance_inPos_toNat (s := s.appendPixels v n) (hin.trans_lt s.inLen.isLt)]
        exact Nat.sub_lt_sub_left (show s.inPos.toNat < s.inLen.toNat by omega) (Nat.lt_add_of_pos_right hlen)
    · cases hst
      exact absurd hrun Bool.false_ne_true
    · cases hst
    · cases hst
      exact absurd hrun Bool.false_ne_true
  · rw [decStep_filled (by omega)] at hst
    cases hst
    exact absurd hrun Bool.false_ne_true

/-! ### The obligation -/

/-- Settles O45: a step that leaves the job running lowers the pixels left (encode) or the stream bytes left (decode), and an
encode job ends with no error in its final step only. -/
theorem everyJobEnds : Obligations.EveryJobEnds := by
  intro s hinv hsched hprog hbusy
  have h : s.EngineAlone := ⟨hinv, hsched, hprog⟩
  refine ⟨fun hd => ⟨?_, fun k t hk ht hend => h.early_end_is_error hbusy hd hk ht hend⟩, fun hd => ?_⟩
  · refine h.ends_within (left := fun u => u.npix.toNat - u.inPos.toNat) ?_ hbusy hd le_rfl
    intro u t hu hub hud ht hrun
    exact encStep_lowers_pixelsLeft hu hub hud (engineStep_enc hub hud ▸ ht) hrun
  · refine h.ends_within (left := fun u => u.inLen.toNat - u.inPos.toNat) ?_ hbusy hd le_rfl
    intro u t _ hub hud ht hrun
    exact decStep_lowers_bytesLeft (engineStep_dec hub hud ▸ ht) hrun

end Sys2Proof.Machine
end

section
/-! SUPPORT. The scanner (O37, O46): the quantizers and dequantizers as numbers (41_scanner.md R111 to R113, R116), and the
round trip of R117. What a stream of canonical records stands for is one relation between bytes and pixels: an encode job
keeps its output in that relation to the pixels it has scanned, and a decode job writes the pixels of such a stream. -/

namespace Sys2Proof.Machine

/-! ### The quantizers and dequantizers as numbers -/

/-- R111: unsigned over the 9 bits of A_THRESH. -/
theorem quantA_eq_true_iff (t : BitVec 9) (p : Byte) : quantA t p = true ↔ t.toNat ≤ p.toNat := decide_eq_true_iff

theorem quantB_toNat (p : Byte) : (quantB p).toNat = p.toNat / 2 := by
  rw [quantB, BitVec.toNat_ushiftRight, Nat.shiftRight_eq_div_pow]

theorem quantC_toNat (p : Byte) : (quantC p).toNat = p.toNat / 16 := by
  rw [quantC, BitVec.toNat_ushiftRight, Nat.shiftRight_eq_div_pow]

theorem dequantB_toNat (c : BitVec 7) : (dequantB c).toNat = 2 * c.toNat := by
  rw [dequantB_eq_ofNat, BitVec.toNat_ofNat, Nat.mod_eq_of_lt (by omega)]

theorem dequantC_toNat (c : BitVec 4) : (dequantC c).toNat = 16 * c.toNat := by
  rw [dequantC_eq_ofNat, BitVec.toNat_ofNat, Nat.mod_eq_of_lt (by omega)]

/-- Settles O37: Format A compares a byte with 9 bits, so only 255 reaches 255 and nothing reaches 256; the shifts of Formats
B and C divide and multiply. -/
theorem quantizersFollowTheirFormulas : Obligations.QuantizersFollowTheirFormulas := by
  refine ⟨quantA_eq_true_iff, fun p => ⟨(quantA_eq_true_iff ..).mpr (Nat.zero_le _), ?_⟩, fun t p ht => ?_,
    fun p => ⟨quantB_toNat p, quantC_toNat p⟩, rfl, rfl, dequantB_toNat, dequantC_toNat⟩
  · rw [quantA_eq_true_iff]
    bv_omega
  · rw [Bool.eq_false_iff, ne_eq, quantA_eq_true_iff]
    omega

/-! ### What a stream of canonical records stands for -/

/-- The bytes are a stream of canonical records of a format, none of length 0, and stand for the pixels, run by run. -/
inductive StandsFor (f : Format) : List Byte → List Byte → Prop
  | nil : StandsFor f [] []
  | cons {i : Instr} {bytes pixels : List Byte} (hwf : i.wellFormed = true) (hcanon : i.canonical = true)
      (hpos : 1 ≤ i.runLength) (henc : encode i = .record f (recordBytes i)) (hrest : StandsFor f bytes pixels) :
      StandsFor f (recordBytes i ++ bytes) (List.replicate i.runLength i.pixel ++ pixels)

/-- Streams one after the other stand for their pixels one after the other. -/
theorem StandsFor.append {f : Format} {bs bs' px px' : List Byte} (h : StandsFor f bs px) (h' : StandsFor f bs' px') :
    StandsFor f (bs ++ bs') (px ++ px') := by
  induction h with
  | nil => exact h'
  | cons hwf hcanon hpos henc _ ih =>
    rw [List.append_assoc, List.append_assoc]
    exact .cons hwf hcanon hpos henc ih

/-- Records of one format that cover a run stand for it. -/
theorem CoversRun.standsFor {f : Format} {v : Byte} {n : Nat} {is : List Instr} (h : CoversRun v n is)
    (henc : ∀ i ∈ is, encode i = .record f (recordBytes i)) : StandsFor f (streamBytes is) (List.replicate n v) := by
  obtain ⟨rfl, hrec⟩ := h
  induction is with
  | nil => exact .nil
  | cons i is ih =>
    obtain ⟨⟨hwf, hcanon, hpos, rfl⟩, hrec⟩ := List.forall_mem_cons.mp hrec
    obtain ⟨hi, his⟩ := List.forall_mem_cons.mp henc
    rw [streamBytes_cons, List.map_cons, List.sum_cons, List.replicate_add]
    exact .cons hwf hcanon hpos hi (ih his hrec)

/-! ### The flush of a run stands for the run -/

theorem exists_of_mem_runRecordsBy {cap n : Nat} {record : Nat → Instr} {i : Instr}
    (h : i ∈ runRecordsBy cap record n) : ∃ l, i = record l := by
  rcases List.mem_append.mp h with h | h
  · exact ⟨_, List.eq_of_mem_replicate h⟩
  · split_ifs at h
    · cases h
    · exact ⟨_, List.mem_singleton.mp h⟩

theorem encode_cRunRecord (c : BitVec 4) (n : Nat) :
    encode (cRunRecord c n) = .record .c (recordBytes (cRunRecord c n)) := by
  rw [cRunRecord]
  split_ifs <;> rfl

theorem flushBytesA_standsFor (on : Bool) {n : Nat} (h : n ≤ capA) :
    StandsFor .a (flushBytesA on.toNat n) (List.replicate n (dequantA on)) := by
  obtain ⟨hcover, -, -⟩ := runExpansionsCoverTheRun
  by_cases hn : n = 0
  · subst hn
    exact .nil
  · rw [flushBytesA_eq_streamBytes on (by omega) h]
    refine CoversRun.standsFor (hcover on n) fun i hi => ?_
    rw [runRecordsA_eq] at hi
    obtain ⟨l, rfl⟩ := exists_of_mem_runRecordsBy hi
    rfl

theorem exists_bRunRecord (c : BitVec 7) {n : Nat} (h1 : 1 ≤ n) (h2 : n ≤ ceilingB) : ∃ i, bRunRecord c n = some i := by
  unfold bRunRecord
  split_ifs
  · omega
  all_goals exact ⟨_, rfl⟩

theorem flushBytesB_standsFor (c : BitVec 7) {n : Nat} (h : n ≤ ceilingB) :
    StandsFor .b (flushBytesB c.toNat n) (List.replicate n (dequantB c)) := by
  obtain ⟨-, hcover, -⟩ := runExpansionsCoverTheRun
  by_cases hn : n = 0
  · subst hn
    exact .nil
  · obtain ⟨i, hi⟩ := exists_bRunRecord c (by omega) h
    have his : runRecordsB c n = some [i] := by rw [runRecordsB, hi]; rfl
    obtain ⟨-, hemit, -⟩ := flushesEmitTheRunExpansion
    rw [hemit c n _ his]
    refine CoversRun.standsFor (hcover c n _ his) (List.forall_mem_singleton.mpr ?_)
    rcases bRunRecord_cases hi with ⟨-, rfl⟩ | ⟨-, -, rfl⟩ | ⟨-, -, rfl⟩ | ⟨-, -, rfl⟩ | ⟨-, -, rfl⟩ <;> rfl

theorem flushBytesC_standsFor (c : BitVec 4) (n : Nat) :
    StandsFor .c (flushBytesC c.toNat n) (List.replicate n (dequantC c)) := by
  obtain ⟨-, -, hcover⟩ := runExpansionsCoverTheRun
  rw [flushBytesC, flushLoopC_eq_streamBytes c le_rfl]
  refine CoversRun.standsFor (hcover c n) fun i hi => ?_
  obtain ⟨l, rfl⟩ := exists_of_mem_runRecordsBy hi
  exact encode_cRunRecord c l

/-- The pixel a decoder of a format writes for a value of ACC_VAL (R116). -/
def dequantized : Format → Byte → Byte
  | .a, v => dequantA (v.getLsbD 0)
  | .b, v => dequantB (v.extractLsb' 0 7)
  | .c, v => dequantC (v.extractLsb' 0 4)

/-- What a flush emits stands for the accumulator's run. -/
theorem State.pendingBytes_standsFor {s : State} (h : s.AccOk) :
    StandsFor s.jobFmt s.pendingBytes (List.replicate s.accLen.toNat (dequantized s.jobFmt s.accVal)) := by
  rw [State.pendingBytes]
  cases hf : s.jobFmt with
  | a =>
    obtain ⟨-, hlen⟩ := (State.accOk_iff_of_a hf).mp h
    exact flushBytesA_standsFor _ hlen
  | b =>
    obtain ⟨-, hlen⟩ := (State.accOk_iff_of_b hf).mp h
    exact flushBytesB_standsFor _ hlen
  | c => exact flushBytesC_standsFor _ _

/-! ### The bytes below OUT_LEN -/

/-- OBUF below OUT_LEN. -/
def State.output (s : State) : List Byte := (List.range s.outLen.toNat).map s.obufByte

theorem State.getD_output {s : State} {a : Nat} (h : a < s.outLen.toNat) : s.output.getD a 0#8 = s.obufByte a := by
  simp [State.output, h]

/-- A state whose OBUF has bytes added at OUT_LEN. -/
theorem State.output_eq_append {s t : State} {bs : List Byte} (hlen : t.outLen.toNat = s.outLen.toNat + bs.length)
    (hbytes : ∀ a, t.obufByte a = if s.outLen.toNat ≤ a ∧ a < s.outLen.toNat + bs.length
      then bs.getD (a - s.outLen.toNat) 0#8 else s.obufByte a) : t.output = s.output ++ bs := by
  have hold : (List.range s.outLen.toNat).map t.obufByte = s.output :=
    List.map_congr_left fun a ha => by rw [hbytes, if_neg (by have := List.mem_range.mp ha; omega)]
  have hnew : (List.range bs.length).map (fun k => t.obufByte (s.outLen.toNat + k)) = bs := by
    refine List.ext_getElem (by simp) fun k _ hk => ?_
    simp [hbytes, hk]
  rw [State.output, hlen, List.range_add, List.map_append, hold, List.map_map]
  exact congrArg (s.output ++ ·) hnew

theorem State.output_appendBytes {s : State} {bs : List Byte} (h : s.outLen.toNat + bs.length ≤ s.outCap.toNat) :
    (s.appendBytes bs).output = s.output ++ bs :=
  State.output_eq_append (State.appendBytes_outLen (h.trans_lt s.outCap.isLt)) (s.obufByte_appendBytes bs)

theorem State.appendPixels_outLen_toNat {s : State} {n : Nat} (v : Byte) (h : s.outLen.toNat + n ≤ s.npix.toNat) :
    (s.appendPixels v n).outLen.toNat = s.outLen.toNat + n :=
  Nat.mod_eq_of_lt (h.trans_lt s.npix.isLt)

theorem State.output_appendPixels {s : State} {n : Nat} (v : Byte) (h : s.outLen.toNat + n ≤ s.npix.toNat) :
    (s.appendPixels v n).output = s.output ++ List.replicate n v := by
  refine State.output_eq_append ?_ fun a => ?_
  · rw [List.length_replicate, State.appendPixels_outLen_toNat v h]
  · rw [s.obufByte_appendPixels, List.length_replicate]
    split_ifs with ha
    · simp [show a - s.outLen.toNat < n by omega]
    · rfl

/-! ### Decode jobs -/

/-- A record's length is not 0: its code is no command word. -/
theorem one_le_recordLength {f : Format} {i : Instr} {bs : List Byte} (h : encode i = .record f bs) :
    1 ≤ i.recordLength := by
  cases i with
  | nop | encA | encB | encC | decA | decB | decC => cases h
  | _ => simp [Instr.recordLength]

theorem decide_one_le_toNat {w : Nat} {n : BitVec w} (h : (n != 0#w) = true) : decide (1 ≤ n.toNat) = true :=
  decide_eq_true (Nat.one_le_iff_ne_zero.mpr fun h0 => bne_iff_ne.mp h (BitVec.eq_of_toNat_eq h0))

/-- A canonical record's meaning is the run of its length and pixel. -/
theorem exec_canonical {i : Instr} (hlen : 1 ≤ i.recordLength) (hcanon : i.canonical = true) (s : State) :
    exec i s = runRecord i.recordLength i.runLength true i.pixel s := by
  cases i with
  | nop | encA | encB | encC | decA | decB | decC => exact absurd hlen (by decide)
  | aRun on l =>
    have hl : canonicalA l.toNat = true := by
      simp only [Instr.canonical, Bool.and_eq_true, bne_iff_ne, ne_eq, ← BitVec.toNat_inj, BitVec.toNat_ofNat] at hcanon
      exact decide_eq_true (show 1 ≤ l.toNat ∧ l.toNat ≤ 125 by omega)
    rw [exec, execARun, hl]
    rfl
  | bPix c =>
    rw [exec, execBPix, dequantB_eq_ofNat]
    rfl
  | bRun1 c n =>
    have hn : 2 ≤ n.toNat := by
      simp only [Instr.canonical, Bool.and_eq_true, bne_iff_ne, ne_eq, ← BitVec.toNat_inj, BitVec.toNat_ofNat] at hcanon
      omega
    rw [exec, execBRun1, decide_eq_true hn, dequantB_eq_ofNat]
    rfl
  | bRun2 c n =>
    rw [exec, execBRun2, show decide (0x80 ≤ n.toNat) = true from hcanon, dequantB_eq_ofNat]
    rfl
  | bRun3 c n =>
    rw [exec, execBRun3, show decide (0x4000 ≤ n.toNat) = true from hcanon, dequantB_eq_ofNat]
    rfl
  | bRun4 c n =>
    rw [exec, execBRun4, show decide (0x200000 ≤ n.toNat) = true from hcanon, dequantB_eq_ofNat]
    rfl
  | cRunK n =>
    rw [exec, execCRunK, decide_one_le_toNat hcanon]
    rfl
  | cRunW n =>
    rw [exec, execCRunW, decide_one_le_toNat hcanon]
    rfl
  | cRunM c n =>
    rw [exec, execCRunM, decide_one_le_toNat hcanon, dequantC_eq_ofNat]
    rfl

/-- The stream bytes left are those of a list: IN_POS to IN_LEN. -/
def State.BytesLeft (s : State) (bs : List Byte) : Prop :=
  s.inLen.toNat = s.inPos.toNat + bs.length ∧ ∀ k, k < bs.length → s.ibufByte (s.inPos.toNat + k) = bs.getD k 0#8

theorem State.BytesLeft.advance {s : State} {bs rest : List Byte} (h : s.BytesLeft (bs ++ rest)) (v : Byte) (n : Nat) :
    ((s.appendPixels v n).advance bs.length).BytesLeft rest := by
  obtain ⟨hlen, hbytes⟩ := h
  rw [List.length_append] at hlen hbytes
  have hpos : ((s.appendPixels v n).advance bs.length).inPos.toNat = s.inPos.toNat + bs.length :=
    State.advance_inPos_toNat (s := s.appendPixels v n) (show s.inPos.toNat + bs.length < 2 ^ 32 by omega)
  refine ⟨by rw [hpos]; exact hlen.trans (Nat.add_assoc ..).symm, fun k hk => ?_⟩
  rw [hpos, Nat.add_assoc]
  refine (hbytes (bs.length + k) (by omega)).trans ?_
  rw [List.getD_append_right _ _ _ _ (Nat.le_add_right ..), Nat.add_sub_cancel_left]

/-- A decode step at a canonical record whose run fits the raster writes the run. -/
theorem step_at_record {f : Format} {i : Instr} {rest : List Byte} {d : State} (hd : d.Inv) (hrun : d.Runs .dec f)
    (hsched : d.schedule = []) (hwf : i.wellFormed = true) (hcanon : i.canonical = true) (hpos : 1 ≤ i.runLength)
    (henc : encode i = .record f (recordBytes i)) (hleft : d.BytesLeft (recordBytes i ++ rest))
    (hfit : d.outLen.toNat + i.runLength ≤ d.npix.toNat) :
    step d = .next ((d.appendPixels i.pixel i.runLength).advance i.recordLength) := by
  obtain ⟨hbusy, hdir, rfl⟩ := hrun
  obtain ⟨-, -, -, -, hjob⟩ := hd
  obtain ⟨-, -, -, ho, -, hdec⟩ := hjob hbusy
  obtain ⟨hin, hcap, -, -⟩ := hdec hdir
  obtain ⟨hlen, hbytes⟩ := hleft
  rw [List.length_append] at hlen hbytes
  have hreclen := recordBytes_length i
  have h1 : 1 ≤ i.recordLength := one_le_recordLength henc
  obtain ⟨tail, hw⟩ := d.window_eq_append (bs := recordBytes i)
    (hreclen.trans_le (recordLength_le_maxRecordBytes i)) hin (by omega)
    fun k hk => (hbytes k (by omega)).trans (List.getD_append _ _ _ _ hk)
  rw [step_busy hsched hbusy, engineStep_dec hbusy hdir, decStep_record (by omega), recordStep_of_window hwf henc hw,
    exec_canonical h1 hcanon, runRecord_runs (by omega) (fun _ => rfl) hfit (.inr (by omega))]

/-- A decode job over a stream that stands for the rest of its raster writes it, in a step for each record and a final one. -/
theorem StandsFor.decodes {f : Format} {bs px : List Byte} (h : StandsFor f bs px) {d : State} (hd : d.Inv)
    (hrun : d.Runs .dec f) (hsched : d.schedule = []) (hleft : d.BytesLeft bs)
    (hfill : d.outLen.toNat + px.length = d.npix.toNat) :
    ∃ j w, j ≤ bs.length + 1 ∧ steps j d = .next w ∧ w.status = Status.finished ∧ w.inPos = d.inLen ∧
      w.outLen = d.npix ∧ w.output = d.output ++ px := by
  induction h generalizing d with
  | nil =>
    obtain ⟨hbusy, hdir, -⟩ := hrun
    obtain ⟨hlen, -⟩ := hleft
    have hstep : step d = .next d.finish := by
      rw [step_busy hsched hbusy, engineStep_dec hbusy hdir, decStep_filled hfill.ge]
    exact ⟨1, d.finish, le_rfl, steps_succ hstep 0, rfl, BitVec.eq_of_toNat_eq hlen.symm, BitVec.eq_of_toNat_eq hfill,
      (List.append_nil _).symm⟩
  | @cons i bytes pixels hwf hcanon hpos henc _ ih =>
    rw [List.length_append, List.length_replicate] at hfill
    have hfit : d.outLen.toNat + i.runLength ≤ d.npix.toNat := by omega
    have hstep := step_at_record hd hrun hsched hwf hcanon hpos henc hleft hfit
    have hnext := hleft.advance i.pixel i.runLength
    rw [recordBytes_length] at hnext
    obtain ⟨j, w, hj, hw, hstatus, hin, hout, hpixels⟩ :=
      ih (step_inv hd hstep) hrun hsched hnext
        (show (d.appendPixels i.pixel i.runLength).outLen.toNat + pixels.length = d.npix.toNat by
          rw [State.appendPixels_outLen_toNat i.pixel hfit]; omega)
    have hlen := one_le_recordLength henc
    refine ⟨j + 1, w, ?_, (steps_succ hstep j).trans hw, hstatus, hin, hout, ?_⟩
    · rw [List.length_append, recordBytes_length]
      omega
    · rw [hpixels, ← List.append_assoc, ← State.output_appendPixels i.pixel hfit]
      rfl

/-! ### Encode jobs -/

/-- What a pixel does in any format, unless it ends the job: it lengthens its run; or it brings Format A's run to the cap,
which is emitted; or the pending run is emitted and the pixel starts the next one (R121, R141, R161). -/
theorem pixelStep_ok_cases {p : Byte} {s u : State} (hs : s.outLen.toNat ≤ s.outCap.toNat)
    (ho : s.outCap.toNat ≤ s.obufSize) (ha : s.AccOk) (h : pixelStep s.jobFmt p s = .ok u) :
    (s.quantized p = s.accVal ∧ u = s.setAcc s.accVal (s.accLen + 1#32)) ∨
    (s.quantized p = s.accVal ∧ s.jobFmt = .a ∧ s.accLen.toNat + 1 = capA ∧
      s.outLen.toNat + (s.setAcc s.accVal (s.accLen + 1#32)).pendingBytes.length ≤ s.outCap.toNat ∧
      u = (s.appendBytes (s.setAcc s.accVal (s.accLen + 1#32)).pendingBytes).setAcc s.accVal 0#32) ∨
    (s.outLen.toNat + s.pendingBytes.length ≤ s.outCap.toNat ∧
      u = (s.appendBytes s.pendingBytes).setAcc (s.quantized p) 1#32) := by
  cases hf : s.jobFmt with
  | a =>
    obtain ⟨hval, -⟩ := (State.accOk_iff_of_a hf).mp ha
    have hq (hmatch : quantA s.aThresh p = s.accVal.getLsbD 0) : s.quantized p = s.accVal := by
      rw [State.quantized, hf, ← stateByte_getLsbD_zero hval, ← hmatch]
    rw [hf, pixelStep] at h
    rcases pixelA_cases p hs ho with
      ⟨hmatch, -, hp⟩ | ⟨hmatch, hcap, hfit, hp⟩ | ⟨-, -, -, hp⟩ | ⟨-, hfit, hp⟩ | ⟨-, -, hp⟩ <;>
      cases hp.symm.trans h
    · exact .inl ⟨hq hmatch, rfl⟩
    · have hlen : (s.accLen + 1#32).toNat = capA := by
        simp only [capA] at hcap ⊢
        bv_omega
      have hpending : (s.setAcc s.accVal (s.accLen + 1#32)).pendingBytes = flushBytesA s.stateBit capA := by
        rw [State.pendingBytes, State.setAcc_jobFmt, hf, State.setAcc_accLen, hlen]
        rfl
      rw [hpending]
      exact .inr (.inl ⟨hq hmatch, rfl, hcap, hfit, rfl⟩)
    · refine .inr (.inr ?_)
      rw [State.pendingBytes, State.quantized, hf]
      exact ⟨hfit, rfl⟩
  | b =>
    rw [hf, pixelStep] at h
    have hpending : s.pendingBytes = flushBytesB (s.accVal.extractLsb' 0 7).toNat s.accLen.toNat := by
      rw [State.pendingBytes, hf]
    have hq : s.quantized p = quantB p := by rw [State.quantized, hf]
    rw [hpending, hq]
    rcases pixelB_cases p hs ho with ⟨-, -, hp⟩ | ⟨hmatch, -, hp⟩ | ⟨-, hfit, hp⟩ | ⟨-, -, hp⟩ <;> cases hp.symm.trans h
    · exact .inl ⟨hmatch, rfl⟩
    · exact .inr (.inr ⟨hfit, rfl⟩)
  | c =>
    rw [hf, pixelStep] at h
    have hpending : s.pendingBytes = flushBytesC (s.accVal.extractLsb' 0 4).toNat s.accLen.toNat := by
      rw [State.pendingBytes, hf]
    have hq : s.quantized p = quantC p := by rw [State.quantized, hf]
    rw [hpending, hq]
    rcases pixelC_cases p hs ho with ⟨hmatch, hp⟩ | ⟨-, hfit, hp⟩ | ⟨-, -, hp⟩ <;> cases hp.symm.trans h
    · exact .inl ⟨hmatch, rfl⟩
    · exact .inr (.inr ⟨hfit, rfl⟩)

/-- A decoder's pixel for what the quantizer makes of the raster's pixel at an address: DQ(Q(p)) of R117. -/
def State.scanned (s : State) (a : Nat) : Byte := dequantized s.jobFmt (s.quantized (s.ibufByte a))

/-- The output so far and then the pending run stand for the pixels scanned so far. -/
def State.Encodes (s : State) : Prop :=
  ∃ px, StandsFor s.jobFmt s.output px ∧
    px ++ List.replicate s.accLen.toNat (dequantized s.jobFmt s.accVal) = (List.range s.inPos.toNat).map s.scanned

/-- A pixel that does not end the job emits a stream and leaves a run, which together stand for the run before it and the
pixel. -/
theorem pixelStep_ok_standsFor {p : Byte} {s u : State} (hs : s.outLen.toNat ≤ s.outCap.toNat)
    (ho : s.outCap.toNat ≤ s.obufSize) (ha : s.AccOk) (hlen : s.accLen.toNat + 1 < 2 ^ 32)
    (h : pixelStep s.jobFmt p s = .ok u) :
    ∃ bs v n px, u = (s.appendBytes bs).setAcc v n ∧ s.outLen.toNat + bs.length ≤ s.outCap.toNat ∧
      StandsFor s.jobFmt bs px ∧
      px ++ List.replicate n.toNat (dequantized s.jobFmt v) =
        List.replicate s.accLen.toNat (dequantized s.jobFmt s.accVal) ++ [dequantized s.jobFmt (s.quantized p)] := by
  have hinc : (s.accLen + 1#32).toNat = s.accLen.toNat + 1 := by bv_omega
  rcases pixelStep_ok_cases hs ho ha h with ⟨hq, rfl⟩ | ⟨hq, hf, hcap, hfit, rfl⟩ | ⟨hfit, rfl⟩
  · refine ⟨[], s.accVal, s.accLen + 1#32, [], by rw [State.appendBytes_nil], hs, .nil, ?_⟩
    rw [hq, hinc, List.replicate_succ', List.nil_append]
  · obtain ⟨hval, -⟩ := (State.accOk_iff_of_a hf).mp ha
    have hfull : (s.setAcc s.accVal (s.accLen + 1#32)).AccOk :=
      (State.accOk_iff_of_a (s := s.setAcc s.accVal (s.accLen + 1#32)) hf).mpr ⟨hval, (hinc.trans hcap).le⟩
    refine ⟨_, _, _, _, rfl, hfit, State.pendingBytes_standsFor hfull, (List.append_nil _).trans ?_⟩
    rw [hq, ← List.replicate_succ', ← hinc]
    rfl
  · exact ⟨_, _, _, _, rfl, hfit, State.pendingBytes_standsFor ha, rfl⟩

/-- A pixel that does not end the job is one more pixel encoded. -/
theorem pixelStep_encodes {s u : State} (hs : s.outLen.toNat ≤ s.outCap.toNat) (ho : s.outCap.toNat ≤ s.obufSize)
    (ha : s.AccOk) (hacc : s.accLen.toNat ≤ s.inPos.toNat) (hp : s.inPos.toNat + 1 < 2 ^ 32) (h : s.Encodes)
    (hu : pixelStep s.jobFmt (s.ibufByte s.inPos.toNat) s = .ok u) : (u.advance 1).Encodes := by
  obtain ⟨px, hstream, hpx⟩ := h
  obtain ⟨bs, v, n, px', rfl, hfit, hstream', hpx'⟩ := pixelStep_ok_standsFor hs ho ha (by omega) hu
  have hpos : (((s.appendBytes bs).setAcc v n).advance 1).inPos.toNat = s.inPos.toNat + 1 := Nat.mod_eq_of_lt hp
  refine ⟨px ++ px', (State.output_appendBytes hfit).symm ▸ hstream.append hstream', ?_⟩
  rw [hpos]
  calc px ++ px' ++ List.replicate n.toNat (dequantized s.jobFmt v)
      _ = px ++ (List.replicate s.accLen.toNat (dequantized s.jobFmt s.accVal) ++ [s.scanned s.inPos.toNat]) := by
        rw [List.append_assoc, hpx', State.scanned]
      _ = (List.range s.inPos.toNat).map s.scanned ++ [s.scanned s.inPos.toNat] := by rw [← List.append_assoc, hpx]
      _ = (List.range (s.inPos.toNat + 1)).map s.scanned := by rw [List.range_succ, List.map_append, List.map_singleton]

theorem State.output_flushed (s : State) : s.flushed.output = s.output := by
  rw [State.flushed]
  split <;> rfl

/-- A final flush that fits completes the stream. -/
theorem State.Encodes.flushed {s : State} (h : s.Encodes) (ha : s.AccOk)
    (hfit : s.outLen.toNat + s.pendingBytes.length ≤ s.outCap.toNat) :
    StandsFor s.jobFmt (s.appendBytes s.pendingBytes).flushed.output ((List.range s.inPos.toNat).map s.scanned) := by
  obtain ⟨px, hstream, hpx⟩ := h
  rw [State.output_flushed, State.output_appendBytes hfit, ← hpx]
  exact hstream.append (State.pendingBytes_standsFor ha)

/-- A step of an encode job encodes one more pixel, or ends the job; with no error it ends it only after the whole raster. -/
theorem encStep_encodes {s t : State} (h : s.Inv) (hbusy : s.status.busy = true) (hd : s.jobDir = .enc) (henc : s.Encodes)
    (ht : encStep s = .next t) :
    t.status.busy = true ∧ t.Encodes ∨
      t.status.busy = false ∧
        (t.status.err = .noError → StandsFor s.jobFmt t.output ((List.range s.npix.toNat).map s.scanned)) := by
  have ⟨_, _, _, ha, hjob⟩ := h
  obtain ⟨-, -, -, ho, hencode, -⟩ := hjob hbusy
  obtain ⟨hin, hpos, hout, hacc, -⟩ := hencode hd
  by_cases hp : s.inPos.toNat < s.npix.toNat
  · rcases encStep_pixel_next h hbusy hd hp ht with ⟨hrun, -, -⟩ | ⟨hidle, herr⟩
    · refine .inl ⟨hrun, ?_⟩
      rw [encStep_pixel hp hin] at ht
      rcases Flow.outcome_next ht with ⟨u, hu, rfl⟩ | hu
      · exact pixelStep_encodes hout ho ha hacc (by omega) henc hu
      · rcases pixelStep_ended_status hu with hstatus | ⟨-, hstatus⟩ <;> rw [hstatus] at hrun <;> cases hrun
    · exact .inr ⟨hidle, fun h => absurd h herr⟩
  · rw [encStep_final (by omega)] at ht
    have hscanned : s.inPos.toNat = s.npix.toNat := by omega
    by_cases hfit : s.outLen.toNat + s.pendingBytes.length ≤ s.outCap.toNat
    · rw [flushStep_eq_ok hfit ho] at ht
      cases ht
      exact .inr ⟨rfl, fun _ => hscanned ▸ henc.flushed ha hfit⟩
    · rw [flushStep_eq_ended hout (by omega) ho] at ht
      cases ht
      exact .inr ⟨rfl, fun h => nomatch h⟩

/-- An encode job leaves the size and the pixels of the raster it scans as they are (R40). -/
theorem engineStep_keeps_raster {s t : State} (h : s.Inv) (ht : engineStep s = .next t) :
    t.jobFmt = s.jobFmt ∧ t.npix = s.npix ∧ t.scanned = s.scanned := by
  obtain ⟨hframe, -⟩ := engineStep_engineFrame h ht
  rw [hframe]
  exact ⟨rfl, rfl, rfl⟩

/-- An encode job that has ended with no error has encoded the whole raster. -/
theorem State.EngineAlone.encodes {k : Nat} {s u : State} (h : s.EngineAlone) (hbusy : s.status.busy = true)
    (hd : s.jobDir = .enc) (henc : s.Encodes) (hu : steps k s = .next u) (hend : u.status = Status.finished) :
    StandsFor s.jobFmt u.output ((List.range s.npix.toNat).map s.scanned) := by
  induction k generalizing s with
  | zero =>
    cases hu
    exact nomatch hbusy.symm.trans (congrArg Status.busy hend)
  | succ k ih =>
    have ⟨hinv, _, _⟩ := h
    obtain ⟨t, hengine, hstep, ht, htd⟩ := h.exists_step hbusy
    obtain ⟨hfmt, hnpix, hscan⟩ := engineStep_keeps_raster hinv hengine
    rw [steps_succ hstep] at hu
    rw [engineStep_enc hbusy hd] at hengine
    rcases encStep_encodes hinv hbusy hd henc hengine with ⟨hrun, htenc⟩ | ⟨hidle, hraster⟩
    · rw [← hfmt, ← hnpix, ← hscan]
      exact ih ht hrun (htd.trans hd) htenc hu
    · rw [ht.steps_idle hidle] at hu
      cases hu
      exact hraster (congrArg Status.err hend)

/-- A job from an empty accumulator with nothing scanned and nothing written begins with the empty stream. -/
theorem State.encodes_of_start {s : State} (hin : s.inPos = 0#32) (hout : s.outLen = 0#32) (hacc : s.accLen = 0#32) :
    s.Encodes :=
  ⟨[], by rw [State.output, hout]; exact .nil, by rw [hin, hacc]; rfl⟩

/-! ### The obligation -/

/-! The scanned pixel as a number, by format (R111 to R113, R116). -/

section
variable {s : State} (a : Nat)

theorem State.scanned_of_a (hf : s.jobFmt = .a) :
    s.scanned a = if s.aThresh.toNat ≤ (s.ibufByte a).toNat then 255#8 else 0#8 := by
  rw [State.scanned, State.quantized, hf]
  simp only [stateByte_quantA]
  split_ifs <;> rfl

theorem State.scanned_of_b (hf : s.jobFmt = .b) : s.scanned a = BitVec.ofNat 8 (2 * ((s.ibufByte a).toNat / 2)) := by
  have hcolour : (quantB (s.ibufByte a)).toNat % 2 ^ 7 = (s.ibufByte a).toNat / 2 :=
    (Nat.mod_eq_of_lt (quantB_toNat_lt _)).trans (quantB_toNat _)
  rw [State.scanned, State.quantized, hf]
  simp only [dequantized, dequantB_eq_ofNat, BitVec.extractLsb'_toNat, Nat.shiftRight_zero, hcolour]

theorem State.scanned_of_c (hf : s.jobFmt = .c) : s.scanned a = BitVec.ofNat 8 (16 * ((s.ibufByte a).toNat / 16)) := by
  have hcolour : (quantC (s.ibufByte a)).toNat % 2 ^ 4 = (s.ibufByte a).toNat / 16 :=
    (Nat.mod_eq_of_lt (quantC_toNat_lt _)).trans (quantC_toNat _)
  rw [State.scanned, State.quantized, hf]
  simp only [dequantized, dequantC_eq_ofNat, BitVec.extractLsb'_toNat, Nat.shiftRight_zero, hcolour]

end

/-- Settles O46: what the encode job emits stands for the raster's quantized pixels, and the decode job, reading the same bytes
from the start of its stream, writes what they stand for. -/
theorem decodingAnEncodedRasterQuantizesIt : Obligations.DecodingAnEncodedRasterQuantizesIt := by
  rintro _ s u d k hs ⟨hbusy, hdir, rfl⟩ hsched hprog hin hout hacc hu hend hd hdrun hdsched hdin hdout hnpix hinLen hbytes
  have halone : s.EngineAlone := ⟨hs, hsched, hprog⟩
  have hstream := halone.encodes hbusy hdir (State.encodes_of_start hin hout hacc) hu hend
  have hleft : d.BytesLeft u.output := by
    have hlen : u.output.length = u.outLen.toNat := by simp [State.output]
    rw [State.BytesLeft, hdin, hinLen, hlen]
    refine ⟨(Nat.zero_add _).symm, fun a ha => ?_⟩
    rw [State.getD_output ha, ← hbytes a ha]
    exact congrArg d.ibufByte (Nat.zero_add a)
  have hfill : d.outLen.toNat + ((List.range s.npix.toNat).map s.scanned).length = d.npix.toNat := by
    simp [hdout, hnpix]
  obtain ⟨j, w, hj, hw, hstatus, hwin, hwout, hpixels⟩ := hstream.decodes hd hdrun hdsched hleft hfill
  have hempty : d.output = [] := by rw [State.output, hdout]; rfl
  rw [hempty, List.nil_append] at hpixels
  rw [hnpix] at hwout
  refine ⟨j, w, hj.trans ?_, hw, hstatus, hwin, hwout, fun a ha => ?_⟩
  · simp [State.output, hinLen]
  · have hpixel : w.obufByte a = s.scanned a := by
      rw [← State.getD_output (hwout ▸ ha), hpixels]
      simp [ha]
    rw [hpixel]
    cases hf : s.jobFmt with
    | a => exact State.scanned_of_a a hf
    | b => exact State.scanned_of_b a hf
    | c => exact State.scanned_of_c a hf

end Sys2Proof.Machine
end

section
/-! SUPPORT. Steps as if/else chains (O24, O30, O33, O39): emission up to OUT_CAP (R42, R213) and the run of a record (R211) in
the terms of EmitsUpToCap and WritesRun, for every format; then the pixel step and the record step of Format A, and the final
step of every encode job. -/

namespace Sys2Proof.Machine

/-! ### Emission up to OUT_CAP

EmitsUpToCap speaks of OBUF and OUT_LEN only, so what a step does to the accumulator, IN_POS and STATUS after it has emitted
does not matter to it. -/

/-- The bytes that fit below OUT_CAP are what an emission writes, whether it overflows or not. -/
theorem State.appendBytes_take_emitsUpToCap {s : State} (hs : s.outLen.toNat ≤ s.outCap.toNat) (bs : List Byte) :
    EmitsUpToCap s (s.appendBytes (bs.take (s.outCap.toNat - s.outLen.toNat))) bs := by
  have hcap := s.outCap.isLt
  have hlen : s.outLen.toNat + (bs.take (s.outCap.toNat - s.outLen.toNat)).length =
      min (s.outLen.toNat + bs.length) s.outCap.toNat := by
    rw [List.length_take]
    omega
  have hout := State.appendBytes_outLen (bs := bs.take (s.outCap.toNat - s.outLen.toNat)) (s := s) (by omega)
  refine ⟨hout.trans hlen, fun a => ?_⟩
  rw [State.obufByte_appendBytes, hout]
  split_ifs with ha
  · have hfit : a - s.outLen.toNat < s.outCap.toNat - s.outLen.toNat := by omega
    rw [List.getD_eq_getElem?_getD, List.getD_eq_getElem?_getD, List.getElem?_take_of_lt hfit]
  · rfl

/-- Bytes that all fit are all emitted. -/
theorem State.appendBytes_emitsUpToCap {s : State} {bs : List Byte}
    (hfit : s.outLen.toNat + bs.length ≤ s.outCap.toNat) : EmitsUpToCap s (s.appendBytes bs) bs := by
  have h := State.appendBytes_take_emitsUpToCap (s := s) (by omega) bs
  rwa [List.take_of_length_le (by omega)] at h

/-- With OUT_LEN at OUT_CAP nothing is emitted. -/
theorem State.emitsUpToCap_of_full {s : State} (hfull : s.outLen.toNat = s.outCap.toNat) (bs : List Byte) :
    EmitsUpToCap s s bs := by
  have h := State.appendBytes_take_emitsUpToCap hfull.le bs
  rwa [hfull, Nat.sub_self, List.take_zero, State.appendBytes_nil] at h

/-! ### The final step of an encode job -/

/-- The low bits of a byte as a number. -/
theorem byte_extractLsb'_zero_toNat (b : Byte) (n : Nat) : (b.extractLsb' 0 n).toNat = b.toNat % 2 ^ n := by
  rw [BitVec.extractLsb'_toNat, Nat.shiftRight_zero]

/-- currentState as a number (R120). -/
theorem State.stateBit_eq (s : State) : s.stateBit = s.accVal.toNat % 2 := by
  rw [State.stateBit, BitVec.getLsbD, Nat.testBit_zero]
  rcases Nat.mod_two_eq_zero_or_one s.accVal.toNat with h | h <;> rw [h] <;> rfl

/-! The pending bytes with the accumulator's value as a number, by format. -/

section
variable {s : State}

theorem State.pendingBytes_of_a (hf : s.jobFmt = .a) :
    s.pendingBytes = flushBytesA (s.accVal.toNat % 2) s.accLen.toNat := by
  rw [State.pendingBytes, hf, ← State.stateBit_eq]

theorem State.pendingBytes_of_b (hf : s.jobFmt = .b) :
    s.pendingBytes = flushBytesB (s.accVal.toNat % 128) s.accLen.toNat := by
  rw [State.pendingBytes, hf]
  exact congrArg (flushBytesB · s.accLen.toNat) (byte_extractLsb'_zero_toNat s.accVal 7)

theorem State.pendingBytes_of_c (hf : s.jobFmt = .c) :
    s.pendingBytes = flushBytesC (s.accVal.toNat % 16) s.accLen.toNat := by
  rw [State.pendingBytes, hf]
  exact congrArg (flushBytesC · s.accLen.toNat) (byte_extractLsb'_zero_toNat s.accVal 4)

end

/-- The flush touches ACC_LEN in Format C only (R122, R143, R162). -/
theorem State.flushed_eq (s : State) :
    s.flushed = { s with accLen := if s.jobFmt = .c then 0#32 else s.accLen } := by
  by_cases hf : s.jobFmt = .c
  · rw [State.flushed_of_c hf, if_pos hf]
    rfl
  · rw [State.flushed_of_ne_c hf, if_neg hf]

/-- The final step in the terms of the pending bytes: it emits them and finishes, or overflows (R124, R145, R165, R213). -/
theorem encStep_final_emits {s : State} (hp : s.npix.toNat ≤ s.inPos.toNat) (hs : s.outLen.toNat ≤ s.outCap.toNat)
    (ho : s.outCap.toNat ≤ s.obufSize) :
    ∃ t, encStep s = .next t ∧ EmitsUpToCap s t s.pendingBytes ∧
      if s.outLen.toNat + s.pendingBytes.length ≤ s.outCap.toNat then
        t = { s with
          obuf := t.obuf, outLen := t.outLen, accLen := (if s.jobFmt = .c then 0#32 else s.accLen)
          status := Status.finished }
      else t = { s with obuf := t.obuf, outLen := t.outLen, status := Status.raised .outputOverflow } := by
  rw [encStep_final hp]
  by_cases hfit : s.outLen.toNat + s.pendingBytes.length ≤ s.outCap.toNat
  · rw [flushStep_eq_ok hfit ho, State.flushed_eq]
    refine ⟨_, rfl, State.appendBytes_emitsUpToCap hfit, ?_⟩
    rw [if_pos hfit]
    rfl
  · rw [flushStep_eq_ended hs (by omega) ho]
    refine ⟨_, rfl, State.appendBytes_take_emitsUpToCap hs _, ?_⟩
    rw [if_neg hfit]
    rfl

/-- Settles O33: `bs` is the pending bytes in each format, and the engine's step is the encode job's final step. -/
theorem finalEncodeStepFlushesAndFinishes : Obligations.FinalEncodeStepFlushesAndFinishes := by
  rintro s f bs ⟨hbusy, hdir, rfl⟩ hp hs ho hbs
  have hpending : s.pendingBytes = bs := by
    rw [hbs]
    cases hf : s.jobFmt with
    | a => exact State.pendingBytes_of_a hf
    | b => exact State.pendingBytes_of_b hf
    | c => exact State.pendingBytes_of_c hf
  rw [engineStep_enc hbusy hdir, ← hpending]
  exact encStep_final_emits hp hs ho

/-! ### A Format A pixel -/

/-- IN_POS counts one pixel (R21). -/
theorem State.advance_one (s : State) : s.advance 1 = { s with inPos := s.inPos + 1#32 } := by
  rw [State.advance, BitVec.ofNat_add, BitVec.ofNat_toNat, BitVec.setWidth_eq]

theorem engineStep_pixelA {s : State} (hrun : s.Runs .enc .a) (hp : s.inPos.toNat < s.npix.toNat)
    (hi : s.npix.toNat ≤ s.ibufSize) :
    engineStep s = (pixelA (s.ibufByte s.inPos.toNat) s).outcome (State.advance 1) := by
  obtain ⟨hbusy, hdir, hfmt⟩ := hrun
  rw [engineStep_enc hbusy hdir, encStep_pixel hp hi, hfmt, pixelStep]

/-- Settles O30: the five things a Format A pixel can do (R121, R123), each in its branch of the chain; the flush of an empty
run emits nothing, so the branch of ACC_LEN = 0 is the flush that fits. -/
theorem formatAPixelStep : Obligations.FormatAPixelStep := by
  intro s hrun hp hi hs ho hacc
  rw [engineStep_pixelA hrun hp hi, ← stateByte_quantA]
  have hfull : flushBytesA s.stateBit capA = [BitVec.ofNat 8 (128 * (s.accVal.getLsbD 0).toNat + 125)] :=
    flushBytesA_run (by decide) le_rfl
  have hpending (hne : s.accLen ≠ 0#32) : flushBytesA s.stateBit s.accLen.toNat =
      [BitVec.ofNat 8 (128 * (s.accVal.getLsbD 0).toNat + s.accLen.toNat)] :=
    flushBytesA_run (by bv_omega) (by omega)
  have hcases := pixelA_cases (s.ibufByte s.inPos.toNat) hs ho
  simp only [capA] at hfull hcases
  rcases hcases with
    ⟨hq, hcap, hpix⟩ | ⟨hq, hcap, hfit, hpix⟩ | ⟨hq, hcap, hfit, hpix⟩ | ⟨hq, hfit, hpix⟩ | ⟨hq, hfit, hpix⟩ <;>
    rw [hpix] <;> rw [quantA] at hq
  · refine ⟨_, rfl, ?_⟩
    rw [if_pos hq, if_neg hcap]
    exact State.advance_one _
  · refine ⟨_, rfl, ?_⟩
    rw [if_pos hq, if_pos hcap, if_pos hfit, hfull]
    exact ⟨State.appendBytes_emitsUpToCap hfit, State.advance_one _⟩
  · have hlen : s.accLen + 1#32 = 125#32 := by bv_omega
    refine ⟨_, rfl, ?_⟩
    rw [if_pos hq, if_pos hcap, if_neg (by omega), hlen]
    exact ⟨State.emitsUpToCap_of_full hfit _, rfl⟩
  · refine ⟨_, rfl, ?_⟩
    rw [if_neg hq]
    by_cases hzero : s.accLen = 0#32
    · rw [if_pos hzero, hzero, BitVec.toNat_zero, flushBytesA_zero, State.appendBytes_nil]
      exact State.advance_one _
    · rw [hpending hzero] at hfit ⊢
      rw [if_neg hzero, if_pos (show s.outLen.toNat < s.outCap.toNat from hfit)]
      exact ⟨State.appendBytes_emitsUpToCap hfit, State.advance_one _⟩
  · have hzero : s.accLen ≠ 0#32 := fun hzero => by
      rw [hzero, BitVec.toNat_zero, flushBytesA_zero] at hfit
      exact absurd hfit hs.not_gt
    rw [hpending hzero] at hfit ⊢
    refine ⟨_, rfl, ?_⟩
    rw [if_neg hq, if_neg hzero, if_neg (Nat.not_lt.mpr (Nat.le_of_lt_succ hfit))]
    exact ⟨State.appendBytes_take_emitsUpToCap hs _, rfl⟩

/-! ### The run of a record -/

/-- Pixels and then an advance are what WritesRun says. -/
theorem State.appendPixels_advance_writesRun (v : Byte) (n len : Nat) (s : State) :
    WritesRun s ((s.appendPixels v n).advance len) v n len :=
  ⟨rfl, s.obufByte_appendPixels v n⟩

/-- The run of a record as one chain, in R211's order; with NPIX inside OBUF it never faults. -/
theorem runRecord_chain {s : State} (ho : s.npix.toNat ≤ s.obufSize) (len n : Nat) (canonical : Bool) (v : Byte) :
    ∃ t, runRecord len n canonical v s = .next t ∧
      if s.inLen.toNat < s.inPos.toNat + len then t = s.raise .truncatedStream
      else if s.mode.strict = true ∧ canonical = false then t = s.raise .malformedRecord
      else if s.npix.toNat < s.outLen.toNat + n then t = s.raise .overrun
      else WritesRun s t v n len := by
  obtain ⟨t, ht⟩ := runRecord_exists_next ho len n canonical v
  refine ⟨t, ht, ?_⟩
  rcases runRecord_cases len n canonical v s with
    ⟨hlen, hr⟩ | ⟨hlen, hstrict, hcanon, hr⟩ | ⟨hlen, hcanon, hn, hr⟩ | ⟨-, -, -, -, -, hr⟩ | ⟨hlen, hcanon, hn, -, hr⟩ <;>
    cases hr.symm.trans ht
  · rw [if_pos hlen]
  · rw [if_neg (by omega), if_pos ⟨hstrict, hcanon⟩]
  · rw [if_neg (by omega), if_neg fun ⟨h1, h2⟩ => Bool.false_ne_true (h2.symm.trans (hcanon h1)), if_pos hn]
  · rw [if_neg (by omega), if_neg fun ⟨h1, h2⟩ => Bool.false_ne_true (h2.symm.trans (hcanon h1)), if_neg (by omega)]
    exact s.appendPixels_advance_writesRun v n len

/-! ### The record at IN_POS -/

/-- No record of any format is read from an exhausted stream (R203). -/
theorem recordStep_of_stream_end {s : State} (h : s.inLen.toNat ≤ s.inPos.toNat) :
    recordStep s = .next (s.raise .truncatedStream) := by
  have hwindow : s.window = [] := by
    rw [← List.length_eq_zero_iff, State.window_length, State.windowLength]
    omega
  have hdecode : decodeRecord s.jobFmt s.window = .error .truncated := by
    rw [hwindow]
    cases s.jobFmt <;> rfl
  rw [recordStep, hdecode]
  exact if_pos (by omega)

/-- Below IN_LEN the window's first byte is the one at IN_POS. -/
theorem State.window_eq_cons {s : State} (hin : s.inLen.toNat ≤ s.ibufSize) (h : s.inPos.toNat < s.inLen.toNat) :
    ∃ rest, s.window = s.ibufByte s.inPos.toNat :: rest :=
  s.window_eq_append (bs := [s.ibufByte s.inPos.toNat]) (by simp [maxRecordBytes]) hin h fun k hk => by
    obtain rfl : k = 0 := Nat.lt_one_iff.mp hk
    rfl

/-! ### A Format A record -/

/-- Every byte is a Format A record: its bit 7 is the state and the bits below it the length (R63). -/
theorem recordStep_of_a {s : State} (hfmt : s.jobFmt = .a) (hin : s.inLen.toNat ≤ s.ibufSize)
    (h : s.inPos.toNat < s.inLen.toNat) :
    recordStep s =
      execARun ((s.ibufByte s.inPos.toNat).getLsbD 7) ((s.ibufByte s.inPos.toNat).extractLsb' 0 7) s := by
  obtain ⟨rest, hwindow⟩ := State.window_eq_cons hin h
  rw [recordStep, hfmt, hwindow]
  rfl

/-- R127, R71: the lengths no encoder emits are 0, 126 and 127. -/
theorem canonicalA_eq_false_iff (l : Nat) : canonicalA l = false ↔ l = 0 ∨ 125 < l := by
  rw [canonicalA, decide_eq_false_iff_not, capA]
  omega

/-- The pixel of a Format A record, by its byte as a number (R116, R125). -/
theorem dequantA_getLsbD_seven (b : Byte) : dequantA (b.getLsbD 7) = if 128 ≤ b.toNat then 255#8 else 0#8 := by
  have hbit : b.getLsbD 7 = decide (128 ≤ b.toNat) := BitVec.msb_eq_decide b
  rw [hbit, dequantA]
  simp only [decide_eq_true_eq]

/-- Settles O24: the record passes every check. -/
theorem formatARecordWritesItsRun : Obligations.FormatARecordWritesItsRun := fun s on l hlen hstrict hn ho =>
  ⟨_, runRecord_runs hlen (fun h => decide_eq_true (hstrict h)) hn (.inr (hn.trans ho)),
    s.appendPixels_advance_writesRun (dequantA on) l.toNat 1⟩

/-- Settles O39: an exhausted stream has no record, and else the step is the run of the byte's record. -/
theorem formatARecordStep : Obligations.FormatARecordStep := by
  rintro s ⟨hbusy, hdir, hfmt⟩ hout hin ho
  rw [engineStep_dec hbusy hdir, decStep_record hout]
  by_cases hend : s.inLen.toNat ≤ s.inPos.toNat
  · exact ⟨_, recordStep_of_stream_end hend, by rw [if_pos hend]; rfl⟩
  · rw [recordStep_of_a hfmt hin (by omega), execARun]
    obtain ⟨t, ht, hchain⟩ := runRecord_chain ho 1 _ _ _
    refine ⟨t, ht, ?_⟩
    simp only [canonicalA_eq_false_iff, byte_extractLsb'_zero_toNat, dequantA_getLsbD_seven] at hchain
    rw [if_neg (by omega)] at hchain
    rwa [if_neg hend]

end Sys2Proof.Machine
end

section
/-! SUPPORT. Format B (O25, O31, O40): the pixel step with the run length ceiling, the records' runs, and the decode step.
Where the bytes of IBUF at IN_POS are a record of the job's format, the decode step is that record's meaning, even when the
stream ends inside it, since the meaning's first check is the stream's end; so the step is the chain of runRecord (R211). -/

namespace Sys2Proof.Machine

/-! ### A Format B pixel -/

theorem engineStep_pixelB {s : State} (hrun : s.Runs .enc .b) (hp : s.inPos.toNat < s.npix.toNat)
    (hi : s.npix.toNat ≤ s.ibufSize) :
    engineStep s = (pixelB (s.ibufByte s.inPos.toNat) s).outcome (State.advance 1) := by
  obtain ⟨hbusy, hdir, hfmt⟩ := hrun
  rw [engineStep_enc hbusy hdir, encStep_pixel hp hi, hfmt, pixelStep]

/-- A pixel matches the run when its grey7 is ACC_VAL (R112, R141). -/
theorem quantB_eq_iff (p v : Byte) : quantB p = v ↔ p.toNat / 2 = v.toNat := by
  rw [← quantB_toNat, BitVec.toNat_inj]

/-- Settles O31: the four things a Format B pixel can do (R141, R142), each in its branch of the chain. -/
theorem formatBPixelStep : Obligations.FormatBPixelStep := by
  intro s hrun hp hi hs ho
  rw [engineStep_pixelB hrun hp hi]
  have hcases := pixelB_cases (s.ibufByte s.inPos.toNat) hs ho
  simp only [byte_extractLsb'_zero_toNat, ne_eq, quantB_eq_iff, ceilingB, Nat.reducePow] at hcases
  rcases hcases with ⟨hq, hlen, hpix⟩ | ⟨hq, hlen, hpix⟩ | ⟨hq, hfit, hpix⟩ | ⟨hq, hfit, hpix⟩ <;>
    refine ⟨_, congrArg (Flow.outcome · (State.advance 1)) hpix, ?_⟩
  · rw [if_pos hq, if_pos hlen]
    rfl
  · rw [if_pos hq, if_neg hlen]
    exact State.advance_one _
  · rw [if_neg hq, if_pos hfit]
    exact ⟨State.appendBytes_emitsUpToCap hfit, State.advance_one _⟩
  · rw [if_neg hq, if_neg hfit.not_ge]
    exact ⟨State.appendBytes_take_emitsUpToCap hs _, rfl⟩

/-! ### The runs of the records -/

/-- A record that passes every check does what WritesRun says. -/
theorem runRecord_writesRun {s : State} {len n : Nat} {canonical : Bool} {v : Byte} (ho : s.npix.toNat ≤ s.obufSize)
    (hlen : s.inPos.toNat + len ≤ s.inLen.toNat) (hcanon : s.mode.strict = true → canonical = true)
    (hn : s.outLen.toNat + n ≤ s.npix.toNat) :
    ∃ t, runRecord len n canonical v s = .next t ∧ WritesRun s t v n len :=
  ⟨_, runRecord_runs hlen hcanon hn (.inr (hn.trans ho)), s.appendPixels_advance_writesRun v n len⟩

/-- Settles O25: each record passes every check, its length being canonical from its tier's minimum on. -/
theorem formatBRecordsWriteTheirRun : Obligations.FormatBRecordsWriteTheirRun := by
  intro s c ho
  rw [← dequantB_eq_ofNat]
  exact ⟨fun hlen hn => runRecord_writesRun ho hlen (fun _ => rfl) hn,
    fun _ hlen hleast hn => runRecord_writesRun ho hlen (fun h => decide_eq_true (hleast h)) hn,
    fun _ hlen hleast hn => runRecord_writesRun ho hlen (fun h => decide_eq_true (hleast h)) hn,
    fun _ hlen hleast hn => runRecord_writesRun ho hlen (fun h => decide_eq_true (hleast h)) hn,
    fun _ hlen hleast hn => runRecord_writesRun ho hlen (fun h => decide_eq_true (hleast h)) hn⟩

/-! ### A stream that ends inside a record -/

/-- A reserved first length byte is seen whatever bytes follow it (R67). -/
theorem decodeRecord_reserved_append {f : Format} {bs : List Byte} (h : decodeRecord f bs = .error .reservedPrefix)
    (rest : List Byte) : decodeRecord f (bs ++ rest) = .error .reservedPrefix := by
  cases f with
  | a => cases bs <;> cases h
  | b =>
    simp only [decodeRecord] at h ⊢
    unfold decodeB at h
    repeat' split at h
    all_goals cases h
    next b0 hrun _ l0 r h1 h2 h3 h4 =>
      simp only [List.cons_append, decodeB, if_neg hrun, if_neg h1, if_neg h2, if_neg h3, if_neg h4]
  | c =>
    simp only [decodeRecord] at h
    unfold decodeC at h
    repeat' split at h
    all_goals cases h

/-- The decoder asks for further bytes at every proper beginning of a record (R203). -/
theorem decodeRecord_of_beginning {f : Format} {i : Instr} {bs rest : List Byte} (hi : i.wellFormed = true)
    (he : encode i = .record f (bs ++ rest)) (hrest : rest ≠ []) : decodeRecord f bs = .error .truncated := by
  have hwhole : decodeRecord f (bs ++ rest) = .ok (i, []) := by
    simpa using decodeRecord_append hi he []
  cases h : decodeRecord f bs with
  | ok r =>
    obtain ⟨j, tail⟩ := r
    obtain ⟨hj, p, hp, rfl⟩ := encode_of_decodeRecord h
    rw [List.append_assoc, decodeRecord_append hj hp] at hwhole
    simp [hrest] at hwhole
  | error e =>
    rcases decodeRecord_error h with rfl | rfl
    · rfl
    · rw [decodeRecord_reserved_append h] at hwhole
      cases hwhole

/-! ### The record at IN_POS, whole or not -/

/-- The bytes of IBUF from IN_POS on, up to IN_LEN or beyond. -/
def State.bytesAhead (s : State) (k : Nat) : List Byte := (List.range k).map fun j => s.ibufByte (s.inPos.toNat + j)

theorem State.window_eq_bytesAhead (s : State) : s.window = s.bytesAhead s.windowLength := rfl

@[simp] theorem State.bytesAhead_length (s : State) (k : Nat) : (s.bytesAhead k).length = k := by
  simp [State.bytesAhead]

theorem State.exists_bytesAhead_append (s : State) {k l : Nat} (h : k ≤ l) :
    ∃ rest, s.bytesAhead l = s.bytesAhead k ++ rest := by
  obtain ⟨m, rfl⟩ := Nat.exists_eq_add_of_le h
  rw [State.bytesAhead, List.range_add, List.map_append]
  exact ⟨_, rfl⟩

theorem recordStep_of_truncated {s : State} (hin : s.inLen.toNat ≤ s.ibufSize)
    (h : decodeRecord s.jobFmt s.window = .error .truncated) : recordStep s = .next (s.raise .truncatedStream) := by
  rw [recordStep, h]
  exact if_pos (recordStep_truncated hin h)

/-- A record's meaning looks first whether the stream holds it (R203). -/
theorem exec_of_stream_end {s : State} {i : Instr} (hi : 1 ≤ i.recordLength)
    (h : s.inLen.toNat < s.inPos.toNat + i.recordLength) : exec i s = .next (s.raise .truncatedStream) := by
  obtain ⟨n, canonical, v, hexec⟩ := exec_record i hi
  rw [hexec, runRecord, if_pos h]

/-- A record step is the meaning of the record that stands at IN_POS in IBUF, even when the stream ends inside it. -/
theorem recordStep_eq_exec {s : State} {i : Instr} {size : Nat} (hi : i.wellFormed = true)
    (he : encode i = .record s.jobFmt (s.bytesAhead size)) (hin : s.inLen.toNat ≤ s.ibufSize) :
    recordStep s = exec i s := by
  have hsize : i.recordLength = size := by
    rw [← recordBytes_length, recordBytes, he, Code.bytes, State.bytesAhead_length]
  have hmax := recordLength_le_maxRecordBytes i
  have hwindow : s.windowLength = min maxRecordBytes (s.inLen.toNat - s.inPos.toNat) := by
    rw [State.windowLength, min_eq_left hin]
  by_cases hfit : size ≤ s.windowLength
  · obtain ⟨rest, hw⟩ := s.exists_bytesAhead_append hfit
    exact recordStep_of_window hi he hw
  · obtain ⟨rest, hw⟩ := s.exists_bytesAhead_append (Nat.le_of_not_le hfit)
    have hlen := congrArg List.length hw
    simp only [List.length_append, State.bytesAhead_length] at hlen
    have hrest : rest ≠ [] := fun h => by
      rw [h, List.length_nil] at hlen
      omega
    rw [recordStep_of_truncated hin (decodeRecord_of_beginning hi (hw ▸ he) hrest),
      exec_of_stream_end (by omega) (by omega)]

/-! ### A Format B record -/

/-- A byte whose top bits, as a number, are those of a tag is that tag before a field. -/
theorem exists_tag_append {m n : Nat} (tag : BitVec m) {x : BitVec (m + n)} (h : x.toNat / 2 ^ n = tag.toNat) :
    ∃ field : BitVec n, x = tag ++ field ∧ x.toNat - 2 ^ n * tag.toNat = field.toNat := by
  have hx : tag ++ x.extractLsb' 0 n = x := tag_append_extractLsb' (BitVec.eq_of_toNat_eq (by
    rw [BitVec.extractLsb'_toNat, Nat.shiftRight_eq_div_pow, h, Nat.mod_eq_of_lt tag.isLt]))
  refine ⟨x.extractLsb' 0 n, hx.symm, Nat.sub_eq_of_eq_add' ?_⟩
  rw [← Nat.mul_comm, ← toNat_append_eq_add, hx]

/-- A colour byte with f = 1 (R64). -/
theorem exists_runColour {x : Byte} (h : 128 ≤ x.toNat) : ∃ c : BitVec 7, x = 1#1 ++ c ∧ x.toNat - 128 = c.toNat :=
  exists_tag_append 1#1 (n := 7) (show x.toNat / 128 = 1 by omega)

/-- A first length byte that begins 1111 is reserved (R67). -/
theorem decodeB_reserved (c : BitVec 7) (h : BitVec 4) (rest : List Byte) :
    decodeB ((1#1 ++ c) :: (0b1111#4 ++ h) :: rest) = .error .reservedPrefix := by
  simp [decodeB, BitVec.getElem_append (n := 1) (m := 7), BitVec.getElem_append (n := 4) (m := 4),
    BitVec.extractLsb'_append_eq_of_le (v := 4) (w := 4)]

/-- The length n, the size in bytes and the tier's minimum of a run whose bytes as numbers are b 0, b 1, ..., by the tier
that the first length byte b 1 selects (R66, R71). -/
def LengthTier (b : Nat → Nat) (n size least : Nat) : Prop :=
  if b 1 < 0x80 then n = b 1 ∧ size = 2 ∧ least = 2
  else if b 1 < 0xC0 then n = 256 * (b 1 - 0x80) + b 2 ∧ size = 3 ∧ least = 0x80
  else if b 1 < 0xE0 then n = 65536 * (b 1 - 0xC0) + 256 * b 2 + b 3 ∧ size = 4 ∧ least = 0x4000
  else n = 16777216 * (b 1 - 0xE0) + 65536 * b 2 + 256 * b 3 + b 4 ∧ size = 5 ∧ least = 0x200000

/-- Every colour byte with f = 1 before a first length byte that is not reserved begins one of B.RUN1 to B.RUN4, by the tier;
its meaning is a run of the tier's length, size and minimum. -/
theorem exists_run_of_bytes {x : Nat → Byte} {b : Nat → Nat} (hb : ∀ k, b k = (x k).toNat) (h0 : 128 ≤ b 0)
    (h1 : b 1 < 0xF0) :
    ∃ i n size least, LengthTier b n size least ∧ i.wellFormed = true ∧
      encode i = .record .b ((List.range size).map x) ∧
      ∀ s, exec i s = runRecord size n (decide (least ≤ n)) (BitVec.ofNat 8 (2 * (b 0 - 128))) s := by
  obtain ⟨c, hc, hcolour⟩ := exists_runColour (hb 0 ▸ h0)
  rw [hb 0, hcolour, ← dequantB_eq_ofNat]
  have hb1 := hb 1
  by_cases ht1 : b 1 < 0x80
  · obtain ⟨n, hn, (hnum : (x 1).toNat = n.toNat)⟩ :=
      exists_tag_append 0#1 (n := 7) (show (x 1).toNat / 128 = 0 by omega)
    refine ⟨.bRun1 c n, n.toNat, 2, 2, ?_, rfl, ?_, fun _ => rfl⟩
    · rw [LengthTier, if_pos ht1]
      exact ⟨hnum.symm.trans hb1.symm, rfl, rfl⟩
    · rw [encode, ← hc, ← hn]
      rfl
  by_cases ht2 : b 1 < 0xC0
  · obtain ⟨h, hh, (hnum : (x 1).toNat - 0x80 = h.toNat)⟩ :=
      exists_tag_append 0b10#2 (n := 6) (show (x 1).toNat / 64 = 2 by omega)
    refine ⟨.bRun2 c (h ++ x 2), (h ++ x 2).toNat, 3, 0x80, ?_, rfl, ?_, fun _ => rfl⟩
    · rw [LengthTier, if_neg ht1, if_pos ht2]
      refine ⟨?_, rfl, rfl⟩
      simp only [toNat_append_eq_add, hb, hnum]
      omega
    · rw [encode_bRun2, ← hc, ← hh]
      rfl
  by_cases ht3 : b 1 < 0xE0
  · obtain ⟨h, hh, (hnum : (x 1).toNat - 0xC0 = h.toNat)⟩ :=
      exists_tag_append 0b110#3 (n := 5) (show (x 1).toNat / 32 = 6 by omega)
    refine ⟨.bRun3 c (h ++ x 2 ++ x 3), (h ++ x 2 ++ x 3).toNat, 4, 0x4000, ?_, rfl, ?_, fun _ => rfl⟩
    · rw [LengthTier, if_neg ht1, if_neg ht2, if_pos ht3]
      refine ⟨?_, rfl, rfl⟩
      simp only [toNat_append_eq_add, hb, hnum]
      omega
    · rw [encode_bRun3, ← hc, ← hh]
      rfl
  · obtain ⟨h, hh, (hnum : (x 1).toNat - 0xE0 = h.toNat)⟩ :=
      exists_tag_append 0b1110#4 (n := 4) (show (x 1).toNat / 16 = 14 by omega)
    refine ⟨.bRun4 c (h ++ x 2 ++ x 3 ++ x 4), (h ++ x 2 ++ x 3 ++ x 4).toNat, 5, 0x200000, ?_, rfl, ?_, fun _ => rfl⟩
    · rw [LengthTier, if_neg ht1, if_neg ht2, if_neg ht3]
      refine ⟨?_, rfl, rfl⟩
      simp only [toNat_append_eq_add, hb, hnum]
      omega
    · rw [encode_bRun4, ← hc, ← hh]
      rfl

section
variable {s : State} (hfmt : s.jobFmt = .b) (hin : s.inLen.toNat ≤ s.ibufSize)
include hfmt hin

/-- A colour byte with f = 0 is a B.PIX (R64). -/
theorem recordStep_of_pix (h0 : (s.ibufByte s.inPos.toNat).toNat < 128) :
    recordStep s = runRecord 1 1 true (BitVec.ofNat 8 (2 * (s.ibufByte s.inPos.toNat).toNat)) s := by
  obtain ⟨c, hc, (hcolour : (s.ibufByte s.inPos.toNat).toNat = c.toNat)⟩ :=
    exists_tag_append 0#1 (n := 7) (show (s.ibufByte s.inPos.toNat).toNat / 128 = 0 by omega)
  rw [hcolour, ← dequantB_eq_ofNat]
  refine recordStep_eq_exec (i := .bPix c) (size := 1) rfl ?_ hin
  rw [hfmt, encode, ← hc]
  rfl

/-- A run whose stream ends after the colour byte is truncated, whatever byte lies beyond (R151). -/
theorem recordStep_of_colour_at_end (h0 : 128 ≤ (s.ibufByte s.inPos.toNat).toNat)
    (hlen : s.inLen.toNat = s.inPos.toNat + 1) : recordStep s = .next (s.raise .truncatedStream) := by
  obtain ⟨c, hc, -⟩ := exists_runColour h0
  have hwindow : s.windowLength = 1 := by
    rw [State.windowLength, min_eq_left hin, hlen, Nat.add_sub_cancel_left]
    rfl
  refine recordStep_of_truncated hin (decodeRecord_of_beginning (i := .bRun1 c 0#7) (rest := [0#8]) rfl ?_ (by simp))
  rw [hfmt, encode, ← hc, State.window_eq_bytesAhead, hwindow]
  rfl

/-- A reserved first length byte is an error before any byte beyond it is looked at (R67, R151). -/
theorem recordStep_of_reserved (h0 : 128 ≤ (s.ibufByte s.inPos.toNat).toNat)
    (h1 : 0xF0 ≤ (s.ibufByte (s.inPos.toNat + 1)).toNat) (hlen : s.inPos.toNat + 2 ≤ s.inLen.toNat) :
    recordStep s = .next (s.raise .malformedRecord) := by
  obtain ⟨c, hc, -⟩ := exists_runColour h0
  obtain ⟨h, hh, -⟩ := exists_tag_append 0b1111#4 (n := 4)
    (show (s.ibufByte (s.inPos.toNat + 1)).toNat / 16 = 15 by omega)
  have hwindow : 2 ≤ s.windowLength := by
    rw [State.windowLength, maxRecordBytes]
    omega
  obtain ⟨rest, hw⟩ := s.exists_bytesAhead_append hwindow
  have hbytes : s.window = (1#1 ++ c) :: (0b1111#4 ++ h) :: rest := by
    rw [← hc, ← hh]
    exact hw
  rw [recordStep, hfmt, hbytes, decodeRecord, decodeB_reserved]

end

/-- Settles O40: there is no byte, or the bytes are a B.PIX, a colour byte at the stream's end, a reserved length, or a run
of a tier; the run of a record has R211's order. -/
theorem formatBRecordStep : Obligations.FormatBRecordStep := by
  rintro s b ⟨hbusy, hdir, hfmt⟩ hout hin ho hb
  have hb0 : b 0 = (s.ibufByte s.inPos.toNat).toNat := hb 0
  have hb1 := hb 1
  rw [engineStep_dec hbusy hdir, decStep_record hout]
  by_cases hend : s.inLen.toNat < s.inPos.toNat + 1
  · refine ⟨_, recordStep_of_stream_end (Nat.le_of_lt_succ hend), ?_⟩
    rw [if_pos hend]
    rfl
  by_cases hpix : b 0 < 128
  · obtain ⟨t, ht, hrun⟩ := runRecord_writesRun (n := 1) ho (Nat.le_of_not_lt hend) (fun _ => rfl) hout
    refine ⟨t, (recordStep_of_pix hfmt hin (hb0 ▸ hpix)).trans ht, ?_⟩
    rw [if_neg hend, if_pos hpix, hb0]
    exact hrun
  by_cases hcolour : s.inLen.toNat < s.inPos.toNat + 2
  · refine ⟨_, recordStep_of_colour_at_end hfmt hin (by omega) (by omega), ?_⟩
    rw [if_neg hend, if_neg hpix, if_pos hcolour]
    rfl
  by_cases hreserved : 0xF0 ≤ b 1
  · refine ⟨_, recordStep_of_reserved hfmt hin (by omega) (hb1 ▸ hreserved) (by omega), ?_⟩
    rw [if_neg hend, if_neg hpix, if_neg hcolour, if_pos hreserved]
    rfl
  · obtain ⟨i, n, size, least, htier, hi, he, hexec⟩ :=
      exists_run_of_bytes hb (Nat.le_of_not_lt hpix) (Nat.lt_of_not_le hreserved)
    obtain ⟨t, ht, hchain⟩ := runRecord_chain ho size n (decide (least ≤ n)) (BitVec.ofNat 8 (2 * (b 0 - 128)))
    refine ⟨t, (recordStep_eq_exec hi (hfmt ▸ he) hin).trans ((hexec s).trans ht), ?_⟩
    rw [if_neg hend, if_neg hpix, if_neg hcolour, if_neg hreserved]
    simp only [decide_eq_false_iff_not, Nat.not_le] at hchain
    exact ⟨n, size, least, htier, hchain⟩

end Sys2Proof.Machine
end

section
/-! SUPPORT. Format C (O26, O32, O41): the pixel step, the records' runs, and the decode step. Every first byte begins a
record, whose kind its top nibble selects, so the decode step is the run of that record and of no other (R68, R169). -/

namespace Sys2Proof.Machine

/-! ### A Format C pixel -/

/-- The engine's step at a pixel is the format's pixel step (R97). -/
theorem engineStep_pixel {f : Format} {s : State} (hrun : s.Runs .enc f) (hp : s.inPos.toNat < s.npix.toNat)
    (hi : s.npix.toNat ≤ s.ibufSize) :
    engineStep s = (pixelStep f (s.ibufByte s.inPos.toNat) s).outcome (State.advance 1) := by
  obtain ⟨hbusy, hdir, rfl⟩ := hrun
  rw [engineStep_enc hbusy hdir, encStep_pixel hp hi]

/-- A pixel matches the run when its colour is ACC_VAL (R113, R161). -/
theorem quantC_eq_iff (p v : Byte) : quantC p = v ↔ p.toNat / 16 = v.toNat := by
  rw [← quantC_toNat, BitVec.toNat_inj]

/-- Settles O32: the three things a Format C pixel can do (R161, R162), each in its branch of the chain. -/
theorem formatCPixelStep : Obligations.FormatCPixelStep := by
  intro s hrun hp hi hs ho
  rw [engineStep_pixel hrun hp hi]
  have hcases := pixelC_cases (s.ibufByte s.inPos.toNat) hs ho
  simp only [byte_extractLsb'_zero_toNat, ne_eq, quantC_eq_iff, Nat.reducePow] at hcases
  rcases hcases with ⟨hq, hpix⟩ | ⟨hq, hfit, hpix⟩ | ⟨hq, hfit, hpix⟩ <;>
    refine ⟨_, congrArg (Flow.outcome · (State.advance 1)) hpix, ?_⟩
  · rw [if_pos hq]
    exact State.advance_one _
  · rw [if_neg hq, if_pos hfit]
    exact ⟨State.appendBytes_emitsUpToCap hfit, State.advance_one _⟩
  · rw [if_neg hq, if_neg hfit.not_ge]
    exact ⟨State.appendBytes_take_emitsUpToCap hs _, rfl⟩

/-! ### The runs of the records -/

/-- Settles O26: each record passes every check, its length being canonical unless it is 0 (R170). -/
theorem formatCRecordsWriteTheirRun : Obligations.FormatCRecordsWriteTheirRun := by
  intro s ho
  have hcanon {n : Nat} (hstrict : s.mode.strict = true → n ≠ 0) (h : s.mode.strict = true) : decide (1 ≤ n) = true :=
    decide_eq_true (Nat.one_le_iff_ne_zero.mpr (hstrict h))
  refine ⟨fun n hlen hstrict hn => ⟨?_, ?_⟩, fun c n hlen hstrict hn => ?_⟩
  · exact runRecord_writesRun ho hlen (hcanon hstrict) hn
  · exact runRecord_writesRun ho hlen (hcanon hstrict) hn
  · rw [← dequantC_eq_ofNat]
    exact runRecord_writesRun ho hlen (hcanon hstrict) hn

/-! ### A Format C record -/

/-- The length n and the size in bytes of a Format C record whose bytes as numbers are b 0, b 1, ..., by the colour in the
top nibble of b 0 (R68 to R70). -/
def NibbleRecord (b : Nat → Nat) (n size : Nat) : Prop :=
  if b 0 / 16 = 0 ∨ b 0 / 16 = 15 then n = 256 * (b 0 % 16) + b 1 ∧ size = 2 else n = b 0 % 16 ∧ size = 1

/-- A byte as a number is its two nibbles. -/
theorem exists_nibbles (x : Byte) :
    ∃ c l : BitVec 4, c ++ l = x ∧ x.toNat / 16 = c.toNat ∧ x.toNat % 16 = l.toNat := by
  obtain ⟨c, l, rfl⟩ := exists_append_eq (m := 4) (n := 4) x
  have hsum := toNat_append_eq_add c l
  exact ⟨c, l, rfl, by omega, by omega⟩

/-- Every first byte begins one of C.RUNK, C.RUNW and C.RUNM, by its colour; the record's meaning is a run of the colour. -/
theorem exists_recordC_of_bytes {x : Nat → Byte} {b : Nat → Nat} (hb : ∀ k, b k = (x k).toNat) :
    ∃ i n size, NibbleRecord b n size ∧ i.wellFormed = true ∧ encode i = .record .c ((List.range size).map x) ∧
      ∀ s, exec i s = runRecord size n (decide (1 ≤ n)) (BitVec.ofNat 8 (16 * (b 0 / 16))) s := by
  obtain ⟨c, l, hx, hcolour, hlow⟩ := exists_nibbles (x 0)
  rw [← hb 0] at hcolour hlow
  have hwide : 256 * l.toNat + (x 1).toNat = (l ++ x 1).toNat := by
    rw [toNat_append_eq_add]
    omega
  simp only [NibbleRecord, hcolour, hlow, hb 1, hwide, ← dequantC_eq_ofNat]
  by_cases hK : c = 0#4
  · subst hK
    refine ⟨.cRunK (l ++ x 1), (l ++ x 1).toNat, 2, by simp, rfl, ?_, fun _ => rfl⟩
    rw [encode_cRunK, hx]
    rfl
  by_cases hW : c = 15#4
  · subst hW
    refine ⟨.cRunW (l ++ x 1), (l ++ x 1).toNat, 2, by simp, rfl, ?_, fun _ => rfl⟩
    rw [encode_cRunW, hx]
    rfl
  · have hmiddle : ¬(c.toNat = 0 ∨ c.toNat = 15) := by bv_omega
    refine ⟨.cRunM c l, l.toNat, 1, by rw [if_neg hmiddle]; exact ⟨rfl, rfl⟩, ?_, ?_, fun _ => rfl⟩
    · simp [Instr.wellFormed, middleColour, hK, hW]
    · rw [encode, hx]
      rfl

/-- Settles O41: there is no byte, or the bytes are a record of the first byte's colour; the run of a record has R211's
order. -/
theorem formatCRecordStep : Obligations.FormatCRecordStep := by
  rintro s b ⟨hbusy, hdir, hfmt⟩ hout hin ho hb
  rw [engineStep_dec hbusy hdir, decStep_record hout]
  by_cases hend : s.inLen.toNat < s.inPos.toNat + 1
  · refine ⟨_, recordStep_of_stream_end (Nat.le_of_lt_succ hend), ?_⟩
    rw [if_pos hend]
    rfl
  · obtain ⟨i, n, size, hnibble, hi, he, hexec⟩ := exists_recordC_of_bytes hb
    obtain ⟨t, ht, hchain⟩ := runRecord_chain ho size n (decide (1 ≤ n)) (BitVec.ofNat 8 (16 * (b 0 / 16)))
    refine ⟨t, (recordStep_eq_exec hi (hfmt ▸ he) hin).trans ((hexec s).trans ht), ?_⟩
    rw [if_neg hend]
    simp only [decide_eq_false_iff_not, Nat.not_le, Nat.lt_one_iff] at hchain
    exact ⟨n, size, hnibble, hchain⟩

end Sys2Proof.Machine
end

section
/-! SUPPORT. Errors (O27, O44): a record's meaning is the run of its own length, canonical check and pixel, so its errors come
in runRecord's order (R211); and R210's table, one lemma for each kind of step that can end a job. `Status.raised .noError` is
the STATUS of finish(), so each lemma names the codes of all its ends. -/

namespace Sys2Proof.Machine

/-! ### The meaning of a record -/

theorem canonical_aRun (on : Bool) (l : BitVec 7) : (Instr.aRun on l).canonical = canonicalA l.toNat := by
  rw [Bool.eq_iff_iff, canonicalA, capA, decide_eq_true_iff]
  simp only [Instr.canonical, Bool.and_eq_true, bne_iff_ne, ne_eq, ← BitVec.toNat_inj, BitVec.toNat_ofNat]
  omega

theorem canonical_bRun1 (c n : BitVec 7) : (Instr.bRun1 c n).canonical = decide (2 ≤ n.toNat) := by
  rw [Bool.eq_iff_iff, decide_eq_true_iff]
  simp only [Instr.canonical, Bool.and_eq_true, bne_iff_ne, ne_eq, ← BitVec.toNat_inj, BitVec.toNat_ofNat]
  omega

theorem bne_zero_eq_decide {w : Nat} (n : BitVec w) : (n != 0#w) = decide (1 ≤ n.toNat) := by
  rw [Bool.eq_iff_iff, decide_eq_true_iff, bne_iff_ne, ne_eq, ← BitVec.toNat_inj, BitVec.toNat_zero,
    Nat.one_le_iff_ne_zero]

/-- A record's meaning, canonical or not, is the run of its length and pixel. -/
theorem exec_eq_runRecord {i : Instr} (hlen : 1 ≤ i.recordLength) (s : State) :
    exec i s = runRecord i.recordLength i.runLength i.canonical i.pixel s := by
  cases i with
  | nop | encA | encB | encC | decA | decB | decC => exact absurd hlen (by decide)
  | aRun on l =>
    rw [canonical_aRun]
    rfl
  | bRun1 c n =>
    rw [canonical_bRun1, Instr.pixel, ← dequantB_eq_ofNat]
    rfl
  | bPix c | bRun2 c n | bRun3 c n | bRun4 c n =>
    rw [Instr.pixel, ← dequantB_eq_ofNat]
    rfl
  | cRunK n | cRunW n =>
    rw [Instr.canonical, bne_zero_eq_decide]
    rfl
  | cRunM c n =>
    rw [Instr.canonical, bne_zero_eq_decide, Instr.pixel, ← dequantC_eq_ofNat]
    rfl

/-- Settles O27: each clause is one of runRecord's first three branches. -/
theorem recordErrorsComeInOrder : Obligations.RecordErrorsComeInOrder := by
  intro s i hlen
  refine ⟨exec_of_stream_end hlen, fun hin hstrict hcanon => ?_, fun hin hcanon hpast => ?_⟩
  · rw [exec_eq_runRecord hlen, runRecord, if_neg hin.not_gt, if_pos ⟨hstrict, hcanon⟩]
    rfl
  · have hpasses : ¬(s.mode.strict = true ∧ i.canonical = false) := fun ⟨hstrict, hfalse⟩ =>
      Bool.false_ne_true (hfalse.symm.trans (hcanon hstrict))
    rw [exec_eq_runRecord hlen, runRecord, if_neg hin.not_gt, if_neg hpasses, if_pos hpast]
    rfl

/-! ### The ends of a job -/

/-- The start checks leave a running job, InvalidParameterError, or the end of an empty job (R94, R95). -/
theorem State.startStatus_cases (d : Dir) (s : State) :
    s.startStatus d = Status.started ∨ s.startStatus d = Status.raised .invalidParameter ∨
      s.startStatus d = Status.finished := by
  unfold State.startStatus
  split_ifs <;> simp

/-- A flush ends a job only by OutputOverflowError (R42). -/
theorem flushStep_ended_status {f : Format} {s t : State} (h : flushStep f s = .ended t) :
    t.status = Status.raised .outputOverflow := by
  cases f with
  | a => rw [emitAll_ended_frame h]
  | b => rw [emitAll_ended_frame h]
  | c => exact emitAll_andThen_ended h

/-- R210, encode jobs. -/
theorem encStep_end {s t : State} (h : s.Inv) (hbusy : s.status.busy = true) (hd : s.jobDir = .enc)
    (hst : encStep s = .next t) (hend : t.status.busy = false) :
    ∃ e, t.status = Status.raised e ∧
      (e = .noError ∨ e = .outputOverflow ∨ s.jobFmt = .b ∧ e = .unsupportedRunLength) := by
  obtain ⟨-, -, -, ha, hjob⟩ := h
  obtain ⟨-, -, -, ho, henc, -⟩ := hjob hbusy
  obtain ⟨hin, -, hout, hacc, hcap⟩ := henc hd
  by_cases hp : s.inPos.toNat < s.npix.toNat
  · have hm := pixelStep_encodesFrom hout ho ha (s.ibufByte s.inPos.toNat) (by omega) hcap
    rw [encStep_pixel hp hin] at hst
    rcases Flow.outcome_next hst with ⟨u, hu, rfl⟩ | hpix
    · rw [hu] at hm
      obtain ⟨⟨bs, v, n, rfl, -⟩, -⟩ := hm
      exact nomatch hbusy.symm.trans hend
    · rcases pixelStep_ended_status hpix with hstatus | ⟨hf, hstatus⟩
      · exact ⟨_, hstatus, .inr (.inl rfl)⟩
      · exact ⟨_, hstatus, .inr (.inr ⟨hf, rfl⟩)⟩
  · rw [encStep_final (by omega)] at hst
    rcases Flow.outcome_next hst with ⟨u, -, rfl⟩ | hflush
    · exact ⟨.noError, rfl, .inl rfl⟩
    · exact ⟨.outputOverflow, flushStep_ended_status hflush, .inr (.inl rfl)⟩

/-- The errors of a record; MalformedRecordError is raised with STRICT = 1 only (R207). -/
theorem runRecord_end {len n : Nat} {canonical : Bool} {v : Byte} {s t : State} (hbusy : s.status.busy = true)
    (hst : runRecord len n canonical v s = .next t) (hend : t.status.busy = false) :
    ∃ e, t = s.raise e ∧ (e = .truncatedStream ∨ e = .overrun ∨ e = .malformedRecord ∧ s.mode.strict = true) := by
  rcases runRecord_cases len n canonical v s with
    ⟨-, hr⟩ | ⟨-, hstrict, -, hr⟩ | ⟨-, -, -, hr⟩ | ⟨-, -, -, -, -, hr⟩ | ⟨-, -, -, -, hr⟩ <;>
    cases hr.symm.trans hst
  · exact ⟨_, rfl, .inl rfl⟩
  · exact ⟨_, rfl, .inr (.inr ⟨rfl, hstrict⟩)⟩
  · exact ⟨_, rfl, .inr (.inl rfl)⟩
  · exact nomatch hbusy.symm.trans hend

/-- Only Format B has a reserved length prefix (R67). -/
theorem format_of_reservedPrefix {f : Format} {bs : List Byte} (h : decodeRecord f bs = .error .reservedPrefix) :
    f = .b := by
  cases f with
  | a => cases bs <;> cases h
  | b => rfl
  | c =>
    simp only [decodeRecord] at h
    unfold decodeC at h
    repeat' split at h
    all_goals cases h

/-- R210, decode jobs. -/
theorem decStep_end {s t : State} (hbusy : s.status.busy = true) (hst : decStep s = .next t)
    (hend : t.status.busy = false) :
    ∃ e, t.status = Status.raised e ∧
      (e = .noError ∨ e = .truncatedStream ∨ e = .overrun ∨
        e = .malformedRecord ∧ (s.jobFmt = .b ∨ s.mode.strict = true)) := by
  by_cases hp : s.outLen.toNat < s.npix.toNat
  · rw [decStep_record hp] at hst
    rcases recordStep_cases s with ⟨i, rest, -, hlen, hr⟩ | ⟨-, ⟨-, hr⟩ | ⟨-, hr⟩⟩ | ⟨hprefix, hr⟩ <;> rw [hr] at hst
    · rw [exec_eq_runRecord hlen] at hst
      obtain ⟨e, rfl, he⟩ := runRecord_end hbusy hst hend
      exact ⟨e, rfl, .inr (he.imp_right (Or.imp_right (And.imp_right .inr)))⟩
    · cases hst
      exact ⟨_, rfl, .inr (.inl rfl)⟩
    · cases hst
    · cases hst
      exact ⟨_, rfl, .inr (.inr (.inr ⟨rfl, .inl (format_of_reservedPrefix hprefix)⟩))⟩
  · rw [decStep_filled (by omega)] at hst
    cases hst
    exact ⟨.noError, rfl, .inl rfl⟩

/-- Settles O44: the ends of the start step, of an encode step and of a decode step. -/
theorem jobsEndWithTheirErrorCodes : Obligations.JobsEndWithTheirErrorCodes := by
  refine ⟨fun s t hidle i hi hexec _ => ?_, fun s t hinv hbusy hst hend => ?_⟩
  · obtain ⟨d, f, hjob⟩ := jobOf_of_mem hi
    cases (exec_job_idle hjob hidle).symm.trans hexec
    rcases s.startStatus_cases d with h | h | h <;> rw [h]
    · exact .inl rfl
    · exact .inr rfl
    · exact .inl rfl
  · cases hd : s.jobDir with
    | enc =>
      obtain ⟨e, ht, he⟩ := encStep_end hinv hbusy hd (engineStep_enc hbusy hd ▸ hst) hend
      rw [ht]
      exact ⟨rfl, fun _ => he, nofun⟩
    | dec =>
      obtain ⟨e, ht, he⟩ := decStep_end hbusy (engineStep_dec hbusy hd ▸ hst) hend
      rw [ht]
      exact ⟨rfl, nofun, fun _ => he⟩

end Sys2Proof.Machine
end

section
/-! SUPPORT. Reset and hazards (O1, O5, O13): the register values of R230 as one predicate, met by the state after reset and by
every state after a reset event, with what its slots read and how its job commands end. -/

namespace Sys2Proof.Machine

/-! ### The register values of R230 -/

/-- Every register and internal register has its value of R230; OUT_CAP's is OBUF_SIZE. -/
structure State.RegistersReset (s : State) : Prop where
  status : s.status = { busy := false, done := false, err := .noError }
  width : s.width = 0#16
  height : s.height = 0#16
  aThresh : s.aThresh = 0x0FF#9
  mode : s.mode = { strict := false, zeroDimOk := false }
  inLen : s.inLen = 0#32
  outCap : s.outCap = BitVec.ofNat 32 s.obufSize
  outLen : s.outLen = 0#32
  inPos : s.inPos = 0#32
  jobDir : s.jobDir = .enc
  jobFmt : s.jobFmt = .a
  npix : s.npix = 0#32
  accVal : s.accVal = 0#8
  accLen : s.accLen = 0#32

theorem State.reset_registersReset : State.reset.RegistersReset := by
  constructor <;> rfl

/-- R231: whatever the block was doing. -/
theorem State.resetEvent_registersReset (s : State) : s.resetEvent.RegistersReset := by
  constructor <;> rfl

section
variable {s : State} (h : s.RegistersReset)
include h

theorem State.RegistersReset.idle : s.status.busy = false := congrArg Status.busy h.status

/-! What the slots read: each is the value of its field; OUT_LEN and IN_POS are specified because the block is idle. -/

theorem State.RegistersReset.regRead_status : regRead 1#4 s = 0x00000000#32 := by
  rw [Machine.regRead_status, h.status]
  rfl

theorem State.RegistersReset.regRead_width : regRead 2#4 s = 0x00000000#32 := by
  rw [Machine.regRead_width, h.width]
  rfl

theorem State.RegistersReset.regRead_height : regRead 3#4 s = 0x00000000#32 := by
  rw [Machine.regRead_height, h.height]
  rfl

theorem State.RegistersReset.regRead_aThresh : regRead 4#4 s = 0x000000FF#32 := by
  rw [Machine.regRead_aThresh, h.aThresh]
  rfl

theorem State.RegistersReset.regRead_mode : regRead 5#4 s = 0x00000000#32 := by
  rw [Machine.regRead_mode, h.mode]
  rfl

theorem State.RegistersReset.regRead_inLen : regRead 6#4 s = 0x00000000#32 :=
  (Machine.regRead_inLen s).trans h.inLen

/-- R2 bounds OBUF_SIZE, so OUT_CAP holds all of it. -/
theorem State.RegistersReset.regRead_outCap (hz : s.SizesOk) : (regRead 7#4 s).toNat = s.obufSize := by
  obtain ⟨-, -, ho⟩ := hz
  rw [Machine.regRead_outCap, h.outCap, BitVec.toNat_ofNat, Nat.mod_eq_of_lt ho]

theorem State.RegistersReset.regRead_outLen : regRead 8#4 s = 0x00000000#32 :=
  (regRead_outLen_idle h.idle).trans h.outLen

theorem State.RegistersReset.regRead_inPos : regRead 9#4 s = 0x00000000#32 :=
  (regRead_inPos_idle h.idle).trans h.inPos

end

/-! ### Job commands after reset -/

/-- A dimension of 0 that MODE does not allow ends a job with InvalidParameterError, whether or not OUT_CAP fits (R94). -/
theorem State.startStatus_zeroDim_refused {s : State} (d : Dir) (hdim : s.width = 0#16 ∨ s.height = 0#16)
    (hok : s.mode.zeroDimOk = false) : s.startStatus d = Status.raised .invalidParameter := by
  have hzero : s.width.toNat = 0 ∨ s.height.toNat = 0 := hdim.imp (congrArg BitVec.toNat) (congrArg BitVec.toNat)
  rw [State.startStatus, if_pos hzero, if_pos hok, ite_self]

/-- R230: WIDTH and MODE are 0, so no job starts before the host has configured one. -/
theorem State.RegistersReset.exec_job {s : State} (h : s.RegistersReset) {i : Instr}
    (hi : i ∈ [Instr.encA, .encB, .encC, .decA, .decB, .decC]) :
    ∃ t, exec i s = .next t ∧ regRead 1#4 t = 0x00000012#32 := by
  obtain ⟨d, f, hjob⟩ := jobOf_of_mem hi
  have hstatus := State.startStatus_zeroDim_refused d (.inl h.width) (congrArg Mode.zeroDimOk h.mode)
  exact ⟨_, exec_job_idle hjob h.idle,
    (Machine.regRead_status _).trans ((congrArg Status.word hstatus).trans (Status.word_raised .invalidParameter))⟩

/-! ### Buffers with no known byte -/

/-- Log entry 2. -/
theorem State.ibufByte_of_empty {s : State} (h : s.ibuf = []) (a : Nat) : s.ibufByte a = Config.resetIbuf s.resets a := by
  rw [State.ibufByte, h]
  rfl

/-- Log entry 2. -/
theorem State.obufByte_of_empty {s : State} (h : s.obuf = []) (a : Nat) : s.obufByte a = Config.resetObuf s.resets a := by
  rw [State.obufByte, h]
  rfl

/-! ### The obligations -/

/-- Settles O1: the state after reset has the values of R230, and its sizes are legal by its invariant. -/
theorem resetStateHasTheStatedValues : Obligations.ResetStateHasTheStatedValues := by
  have h := State.reset_registersReset
  obtain ⟨hz, -⟩ := State.reset_inv
  exact ⟨regRead_cmd _, h.regRead_status, h.regRead_width, h.regRead_height, h.regRead_aThresh, h.regRead_mode,
    h.regRead_inLen, h.regRead_outCap hz, h.regRead_outLen, h.regRead_inPos, regRead_id _,
    fun _ hi => regRead_reserved hi _, h.jobDir, h.jobFmt, h.npix, h.accVal, h.accLen,
    fun a => ⟨State.ibufByte_of_empty rfl a, State.obufByte_of_empty rfl a⟩,
    engineStep_idle h.idle, fun _ => h.exec_job⟩

/-- Settles O5: the schedule's `reset` steps to `resetEvent`, which has the values of R230. -/
theorem resetEventRestoresTheResetState : Obligations.ResetEventRestoresTheResetState := by
  intro s rest hz hschedule
  have h := State.resetEvent_registersReset { s with schedule := rest }
  exact ⟨_, step_scheduled hschedule, rfl, rfl, h.regRead_status, h.regRead_width, h.regRead_height, h.regRead_aThresh,
    h.regRead_mode, h.regRead_inLen, h.regRead_outCap hz, h.regRead_outLen, h.regRead_inPos,
    h.jobDir, h.jobFmt, h.npix, h.accVal, h.accLen,
    fun a => ⟨State.ibufByte_of_empty rfl a, State.obufByte_of_empty rfl a⟩, rfl, rfl, rfl⟩

/-- Settles O13: both writes stop with their buffer's hazard (R237, R238; log entry 5). -/
theorem bufferWritesWhileBusyAreHazards : Obligations.BufferWritesWhileBusyAreHazards := fun _ a v hbusy =>
  ⟨hostWrite_busy hbusy .ibuf a v, hostWrite_busy hbusy .obuf a v⟩

end Sys2Proof.Machine
end
